-- ==== Sys2Proof/Word.lean ====
section
/-! DEFINITION. The word types of the SPI master control core (spec R12): register values, bytes and command words are unsigned
bit vectors.  Counters, lengths and rates are natural numbers (R13) and are not bit vectors. -/

namespace Sys2Proof

/-- A byte of a FIFO, of a caller buffer or of the bus (R12: "bytes are 8-bit unsigned"). -/
abbrev Byte := BitVec 8

/-- A register of the block (R12, R40: "all registers 32 bits wide"). -/
abbrev Word := BitVec 32

/-- A command word (R110: "Every command is one 64-bit command word"). -/
abbrev CmdWord := BitVec 64

end Sys2Proof
end

