-- ==== Sys2Proof/Syntax.lean ====
section
/-! DEFINITION. The five commands of the core (R2, R115), one constructor per row of spec/opcode_table.json. -/

namespace Sys2Proof

/-- A decoded command with its operands (R112).  `hz` and `bitlen` are natural numbers (R11, R112 "`zext` to a natural number");
that they fit their 32-bit fields is `Instr.wellFormed`. -/
inductive Instr where
  /-- CLAIM, format N (R250). -/
  | claim
  /-- RELEASE, format N (R251). -/
  | release
  /-- SET_SPEED, format S (R147): the requested rate in Hz. -/
  | setSpeed (hz : Nat)
  /-- SET_MODE, format M (R240): clock polarity and phase. -/
  | setMode (cpol cpha : Bool)
  /-- TRANSFER, format T (R191): BEGIN, END, TXP, RXP, CS and BITLEN. -/
  | transfer (beginF endF txp rxp : Bool) (cs : BitVec 2) (bitlen : Nat)
deriving DecidableEq, Repr

end Sys2Proof
end

