-- ==== Sys2Proof/WellFormed.lean ====
section
/-! DEFINITION. Which commands have a word: every operand fits its field (R11, R111, R112). -/

namespace Sys2Proof

/-- HZ and BITLEN are unsigned 32-bit numbers (R11).  The other operands fit their fields by their types. -/
def Instr.wellFormed : Instr → Bool
  | .claim => true
  | .release => true
  | .setSpeed hz => decide (hz < 2 ^ 32)
  | .setMode _ _ => true
  | .transfer _ _ _ _ _ bitlen => decide (bitlen < 2 ^ 32)

end Sys2Proof
end

