-- ==== Sys2Proof/Decode.lean ====
section
/-! DEFINITION. Decoding of command words, total on all 64-bit words (R116), the encoder written from the formats of R111 and the
words of R120, and the pseudo-commands of R121. -/

namespace Sys2Proof

/-- Why a word decodes to ILLEGAL (R117). -/
inductive DecodeError where
  /-- The opcode field is reserved: 0x0 or 0x6 to 0xF (R115). -/
  | reservedOpcode
  /-- A bit marked `Z` in the word's format is 1 (R113). -/
  | mustBeZero
deriving DecidableEq, Repr

/-- The opcode field OP, bits 3:0 in every format (R110). -/
def opField (w : CmdWord) : BitVec 4 := w.extractLsb' 0 4

/-- Bits 63:32: HZ in format S, BITLEN in format T (R111). -/
def highField (w : CmdWord) : BitVec 32 := w.extractLsb' 32 32

/-- CS of format T, bits 9:8 (R111). -/
def csField (w : CmdWord) : BitVec 2 := w.extractLsb' 8 2

/-- A one-bit operand of the word (R112). -/
def bitField (w : CmdWord) (i : Nat) : Bool := w.getLsbD i

/-- The `Z` bits of the formats N, S, M and T (R111), each as the field R116 compares with 0. -/
def zFieldN (w : CmdWord) : BitVec 60 := w.extractLsb' 4 60
def zFieldS (w : CmdWord) : BitVec 28 := w.extractLsb' 4 28
def zFieldM (w : CmdWord) : BitVec 58 := w.extractLsb' 6 58
def zFieldT (w : CmdWord) : BitVec 22 := w.extractLsb' 10 22

/-- `decode` of R116. -/
def decodeWord (w : CmdWord) : Except DecodeError Instr :=
  if opField w = 1#4 then
    if zFieldN w = 0#60 then .ok .claim else .error .mustBeZero
  else if opField w = 2#4 then
    if zFieldN w = 0#60 then .ok .release else .error .mustBeZero
  else if opField w = 3#4 then
    if zFieldS w = 0#28 then .ok (.setSpeed (highField w).toNat) else .error .mustBeZero
  else if opField w = 4#4 then
    if zFieldM w = 0#58 then .ok (.setMode (bitField w 5) (bitField w 4)) else .error .mustBeZero
  else if opField w = 5#4 then
    if zFieldT w = 0#22 then
      .ok (.transfer (bitField w 4) (bitField w 5) (bitField w 6) (bitField w 7) (csField w) (highField w).toNat)
    else .error .mustBeZero
  else .error .reservedOpcode

/-- The word of a command, as the concatenations of R120 (high part first). -/
def encode : Instr → CmdWord
  | .claim => 0#60 ++ 1#4
  | .release => 0#60 ++ 2#4
  | .setSpeed hz => BitVec.ofNat 32 hz ++ (0#28 ++ 3#4)
  | .setMode cpol cpha => 0#58 ++ (BitVec.ofBool cpol ++ (BitVec.ofBool cpha ++ 4#4))
  | .transfer beginF endF txp rxp cs bitlen =>
      BitVec.ofNat 32 bitlen ++ (0#22 ++ (cs ++ (BitVec.ofBool rxp ++ (BitVec.ofBool txp ++
        (BitVec.ofBool endF ++ (BitVec.ofBool beginF ++ 5#4))))))

/-- The opcode of a command (R115). -/
def opcodeOf : Instr → BitVec 4
  | .claim => 1#4
  | .release => 2#4
  | .setSpeed _ => 3#4
  | .setMode _ _ => 4#4
  | .transfer _ _ _ _ _ _ => 5#4

/-- The mask of a command's row in the opcode table (R115). -/
def maskOf : Instr → CmdWord
  | .claim => 0xFFFFFFFFFFFFFFFF#64
  | .release => 0xFFFFFFFFFFFFFFFF#64
  | .setSpeed _ => 0x00000000FFFFFFFF#64
  | .setMode _ _ => 0xFFFFFFFFFFFFFFCF#64
  | .transfer _ _ _ _ _ _ => 0x00000000FFFFFC0F#64

/-- The match value of a command's row in the opcode table (R115). -/
def matchOf : Instr → CmdWord
  | .claim => 0x0000000000000001#64
  | .release => 0x0000000000000002#64
  | .setSpeed _ => 0x0000000000000003#64
  | .setMode _ _ => 0x0000000000000004#64
  | .transfer _ _ _ _ _ _ => 0x0000000000000005#64

/-- The command the decoder reads from an instruction of `nbits` bits given as one number.  A command word is one 64-bit value
on the command port and no byte order applies to it (R110, R31; notes/assumptions/26.md). -/
def decodeTableWord (nbits w : Nat) : Option Instr :=
  match decodeWord (BitVec.ofNat 64 (w % 2 ^ nbits)) with
  | .ok i => some i
  | .error _ => none

/-- The pseudo-command `xfer1` of R121: BEGIN and END both set. -/
def pseudoXfer1 (cs : BitVec 2) (bits : Nat) (tx rx : Bool) : Instr := .transfer true true tx rx cs bits

/-- The pseudo-command `cs_assert` of R121. -/
def pseudoCsAssert (cs : BitVec 2) : Instr := .transfer true false false false cs 0

/-- The pseudo-command `cs_deassert` of R121. -/
def pseudoCsDeassert (cs : BitVec 2) : Instr := .transfer false true false false cs 0

/-- The pseudo-command `set_spi_mode` of R121: mode = 2 × CPOL + CPHA. -/
def pseudoSetSpiMode (m : BitVec 2) : Instr := .setMode (m.getLsbD 1) (m.getLsbD 0)

end Sys2Proof
end

