-- ==== Sys2Proof/Config.lean ====
section
/-! DEFINITION. What an implementation fixes (the parameters of R9), the constraints a configuration must meet (R9, R264), and the
free values: constants without a body, of which nothing can be computed or proved. -/

namespace Sys2Proof

/-- TIMEOUT_MODE of R9 and R214: the deadline assumption. -/
inductive TimeoutMode where
  /-- `expired` is unconstrained and an enabled shifter need not step. -/
  | free
  /-- `expired` only while the shifter is not enabled; an enabled shifter eventually steps. -/
  | fair
deriving DecidableEq, Repr

namespace Config

/-- Capacity in bytes of each FIFO (R9, R52). -/
def fifoDepth : Nat := 64

/-- The largest burst, `FIFO_DEPTH − 1` (R9, R194). -/
def chunkMax : Nat := fifoDepth - 1

/-- Poll budget of one burst in microseconds (R9, R212).  No rule turns it into time (R310); the model has no time. -/
def timeoutUs : Nat := 1000000

/-- Word registers in the block (R9, R36). -/
def numRegs : Nat := 11

/-- Size in bytes of the register window, `0x2C` (R80). -/
def windowBytes : Nat := 4 * numRegs

/-- `flog2` of R13: the largest `k` with `2^k ≤ x`. -/
def flog2 (x : Nat) : Nat := Nat.log2 x

/-- The named parameters of R9 and the platform data of R264.  A datum that the platform data can lack is an `Option`; whether
the pin list parses is all that reaches the core of it (R6, R35). -/
structure Params where
  /-- `BASE_ADDR`, the address of the register window. -/
  baseAddr  : Option Nat
  /-- `PLAT_MAX_HZ`, the platform maximum frequency. -/
  platMaxHz : Option Nat
  /-- The platform data holds a parsable pin list. -/
  pinListOk : Bool
  /-- `BASE_HZ`, the divider input rate. -/
  baseHz    : Nat
  /-- `MIN_HZ`, the hardware floor of the rate. -/
  minHz     : Nat
  /-- `HW_MAX_HZ`, the hardware ceiling of the rate. -/
  hwMaxHz   : Nat
  /-- `NUM_CS`, the number of chip-select lines. -/
  numCs     : Nat
  /-- `TIMEOUT_MODE`. -/
  timeoutMode : TimeoutMode
deriving DecidableEq, Repr

/-- `BASE_ADDR`; zero in a configuration that lacks it, which `Params.valid` refuses. -/
def Params.base (p : Params) : Nat := p.baseAddr.getD 0

/-- `MAX_HZ = min(PLAT_MAX_HZ, HW_MAX_HZ)` (R9). -/
def Params.maxHz (p : Params) : Nat := min (p.platMaxHz.getD 0) p.hwMaxHz

/-- The constraints of R9 and the platform data R264 asks for.  A configuration that fails one is refused with
ConfigurationError. -/
def Params.valid (p : Params) : Bool :=
  p.baseAddr.isSome && p.platMaxHz.isSome && p.pinListOk &&
  decide (2 ≤ p.baseHz) && decide (1 ≤ p.minHz) && decide (p.minHz ≤ p.maxHz) &&
  decide (flog2 p.baseHz - flog2 p.minHz ≤ 15) && decide (2 * p.maxHz < 2 ^ 32) &&
  decide (1 ≤ p.numCs) && decide (p.numCs ≤ 4)

/-- The test configuration of R10 (DESIGN CHOICE, notes/assumptions/5.md: the configuration of the reset state; R10 gives no
`BASE_ADDR` and no `TIMEOUT_MODE`). -/
def Params.test : Params :=
  { baseAddr := some 0, platMaxHz := some 24000000, pinListOk := true, baseHz := 24000000, minHz := 3000,
    hwMaxHz := 24000000, numCs := 4, timeoutMode := .free }

/-- Free value: a byte the slave oracle answers when the input list of the state is used up (R207). -/
opaque freeSlaveByte : Nat → Byte

/-- Free value: a byte of an underflow pop, of a pop from an empty RX FIFO or of a read of TXD (R208, R50, R49). -/
opaque freeByte : Nat → Byte

/-- Free value: after how many of its turns the shifter performs a burst, `none` for never (R205, R210, R214). -/
opaque freeDelay : Nat → Option Nat

/-- Free value: how many polls that read XCH = 1 the deadline answers with `expired = 0` (R213, R215). -/
opaque freeDeadline : Nat → Nat

/-- Free value: the level of a chip-select line in automatic mode at a moment (R174, R176). -/
opaque freeLine : Nat → Nat → Bool

end Config

end Sys2Proof
end

