-- ==== Sys2Proof/Machine/State.lean ====
section
/-! DEFINITION. The state of the block as plain data: the register block (R36 to R54), the engine (R60, R61), the command port and
the lent buffers (R31, R81), the environment's inputs, and the history (R64); why a step can stop; and the reset state (R70). -/

namespace Sys2Proof.Machine

/-- The sequencer positions of R61, the block's program counter. -/
inductive Upc where
  | idle
  | claimR | claimW
  | relR | relW
  | spdR | spdW
  | modeR | modeW
  | tBegR | tBegW | tRstR | tRstW | tLoop | tBc | tTc | tFill | tXchR | tXchW | tPoll
  | tToR | tToW | tDrain | tEndR | tEndW
deriving DecidableEq, Repr

/-- The results of R260. -/
inductive Result where
  | ok | alignmentError | timeoutError | illegalCommand | configurationError
deriving DecidableEq, Repr

/-- Direction of a register access (R32). -/
inductive Dir where
  | read | write
deriving DecidableEq, Repr

/-- What the history records (R64). -/
inductive Event where
  /-- A register access: offset, width in bytes, direction, and the value read or written. -/
  | access (off width : Nat) (dir : Dir) (value : Word)
  /-- A burst of the shifter: the out bytes and the in bytes, in order. -/
  | burst (outs ins : List Byte)
  /-- A command with its result. -/
  | command (word : CmdWord) (result : Result)
deriving DecidableEq, Repr

/-- Byte-addressed storage: the listed bytes by strictly rising address, none of them 0x00; an unlisted address reads as 0x00
(notes/assumptions/15.md).  `Memory.wf` of Machine/Ops.lean says the form. -/
abbrev Memory := List Host.Cell

/-- A caller buffer (R81): a byte sequence indexed from 0, of `len` bytes, whose bytes are those of `cells`. -/
structure Buffer where
  len   : Nat
  cells : Memory
deriving DecidableEq, Repr

/-- What the host presents on the command port (R31, R114): a command word and, beside it, the optional buffers. -/
structure HostCommand where
  word : CmdWord
  tx   : Option Buffer
  rx   : Option Buffer
deriving DecidableEq, Repr

/-- The register block: the registers of R40 that are storage, and the two FIFOs (R52), oldest byte first.  RXD, TXD and FSTA are
no storage of their own: they are views of the FIFOs (R48, R49, R50).  BC and TC hold bits 23:0 (R47). -/
structure Block where
  ctl    : Word
  ictl   : Word
  ista   : Word
  dmac   : Word
  wait   : Word
  cctl   : Word
  bc     : BitVec 24
  tc     : BitVec 24
  txFifo : List Byte
  rxFifo : List Byte
deriving DecidableEq, Repr

/-- The engine registers of R60 and the sequencer position of R61. -/
structure Engine where
  upc     : Upc
  cmd     : CmdWord
  cs      : BitVec 2
  beginF  : Bool
  endF    : Bool
  txp     : Bool
  rxp     : Bool
  rem     : Nat
  chunk   : Nat
  k       : Nat
  ti      : Nat
  ri      : Nat
  v       : Word
  hz      : Word
  curFreq : Word
  curCpol : Bool
  curCpha : Bool
deriving DecidableEq, Repr

/-- The environment's inputs: the draws of the slave oracle, of the shifter's schedule and of the deadline (R16, R30), and the
model's own counters.  None of these is state of the block.  Each input list is read from its head; when it is used up, the
free values of Config are drawn at `drawIx`. -/
structure Env where
  /-- The bytes the slave will answer (R207). -/
  slaveIn   : List Byte
  /-- For each burst to come, after how many of its turns the shifter performs it (`none`: never). -/
  delays    : List (Option Nat)
  /-- For each deadline to be armed, how many polls it answers with `expired = 0`. -/
  deadlines : List Nat
  /-- The turns the shifter still lets pass before the burst in flight is performed. -/
  burstDelay : Option Nat
  /-- The polls the armed deadline still answers with `expired = 0`. -/
  pollsLeft : Nat
  /-- The number of free values drawn so far. -/
  drawIx    : Nat
  /-- The moment at which an automatic chip-select line is drawn (R176): it advances with every step and with every event. -/
  now       : Nat
deriving DecidableEq, Repr

structure State where
  /-- The configuration of the instance (R9); no step changes it (notes/assumptions/5.md). -/
  cfg     : Config.Params
  /-- The launch premise `CLK_ON` (R34, R292). -/
  clkOn   : Bool
  blk     : Block
  e       : Engine
  /-- The commands the host will present, in order (R31). -/
  port    : List HostCommand
  /-- The buffers lent for the current TRANSFER, as they stand; after it, as they were given back (R81). -/
  txBuf   : Option Buffer
  rxBuf   : Option Buffer
  env     : Env
  /-- Accesses, bursts and commands, the newest first (R64).  No rule of the machine reads it. -/
  history : List Event
deriving DecidableEq, Repr

/-- Why the machine stops with a fault. -/
inductive Fault where
  /-- Raised by `step` in a configuration that fails a constraint of R9: ConfigurationError of R264, no instance of the block
  exists and no command is accepted.  Safe. -/
  | configurationError
  /-- Raised by every register access while `CLK_ON` is false: the engine is stuck there (R292, R277).  Safe. -/
  | clockOff
  /-- Raised by the acceptance of a command while the engine is not IDLE: the host has no such move, the command waits (R31);
  `step` never accepts one then.  Safe. -/
  | engineBusy
  /-- Raised by an access to a caller buffer that is absent or at an index outside it; R81 says the engine never makes one, and
  it arises in no state that meets `Inv`.  Safe. -/
  | bufferOutOfRange
deriving DecidableEq, Repr

/-- Why the model refuses. -/
inductive Refusal where
  /-- An instruction without a meaning: only arms of exec answer it.  Safe. -/
  | notModelled (mnemonic : String)
  /-- Raised by the acceptance of a TRANSFER whose buffer is absent or shorter than `L` bytes: "refused at the command port"
  (R81, R294).  Safe. -/
  | bufferTooShort
  /-- Raised by the register bus for an access of a width, offset or kind not listed (R84); the core makes none.  Safe. -/
  | busAccess
  /-- Raised by the shifter when its turn comes with XCH = 1, EN = 1, MASTER = 1 and BC ≠ TC (R205; notes/assumptions/12.md).
  Safe. -/
  | burstCountMismatch
deriving DecidableEq, Repr

/-- The register block after reset (R70): XCH 0 and both FIFOs empty by the spec; every register R70 leaves unspecified holds
zero (DESIGN CHOICE, notes/assumptions/7.md). -/
def Block.reset : Block :=
  { ctl := 0, ictl := 0, ista := 0, dmac := 0, wait := 0, cctl := 0, bc := 0, tc := 0, txFifo := [], rxFifo := [] }

/-- The engine after reset (R70): IDLE by the spec; every other engine register zero (DESIGN CHOICE, notes/assumptions/8.md). -/
def Engine.reset : Engine :=
  { upc := .idle, cmd := 0, cs := 0, beginF := false, endF := false, txp := false, rxp := false, rem := 0, chunk := 0, k := 0,
    ti := 0, ri := 0, v := 0, hz := 0, curFreq := 0, curCpol := false, curCpha := false }

/-- The environment at reset: no input given yet, so that every draw is a free value; the counters zero (DESIGN CHOICE,
notes/assumptions/9.md). -/
def Env.reset : Env :=
  { slaveIn := [], delays := [], deadlines := [], burstDelay := none, pollsLeft := 0, drawIx := 0, now := 0 }

/-- The machine right after reset, initialised (R70, R290, R291): the configuration of R10 and the clock on (notes/assumptions/5.md
and 6.md), no command presented, no buffer lent, nothing recorded. -/
def State.reset : State :=
  { cfg := Config.Params.test, clkOn := true, blk := Block.reset, e := Engine.reset, port := [], txBuf := none, rxBuf := none,
    env := Env.reset, history := [] }

end Sys2Proof.Machine
end

