-- ==== Sys2Proof/Machine/Flags.lean ====
section
/-! DEFINITION. The block has no condition codes (R63): its status bits are the fields of CTL (R42), of CCTL (R46), the counts of
FSTA (R48) and the result word of a command (R260). -/

namespace Sys2Proof.Machine

/-- Register offsets of R40. -/
def offRXD : Nat := 0x00
def offTXD : Nat := 0x04
def offCTL : Nat := 0x08
def offICTL : Nat := 0x0C
def offISTA : Nat := 0x10
def offDMAC : Nat := 0x14
def offWAIT : Nat := 0x18
def offCCTL : Nat := 0x1C
def offBC : Nat := 0x20
def offTC : Nat := 0x24
def offFSTA : Nat := 0x28

/-- Mask names of CTL (R42). -/
def maskEN : Word := 0x1#32
def maskMASTER : Word := 0x2#32
def maskCPHA : Word := 0x4#32
def maskCPOL : Word := 0x8#32
def maskCSPOL_LOW : Word := 0x10#32
def maskTF_RST : Word := 0x100#32
def maskRF_RST : Word := 0x200#32
def maskXCH : Word := 0x400#32
def maskCS : Word := 0x3000#32
def maskDHB : Word := 0x8000#32
def maskCS_MANUAL : Word := 0x10000#32
def maskCS_LEVEL : Word := 0x20000#32

/-- The bits of CTL that no field names: 7:5, 11, 14 and 31:18 (R41, R42). -/
def maskCtlOther : Word := 0xFFFC48E0#32

/-- Mask names of CCTL (R46). -/
def maskCDR2 : Word := 0xFF#32
def maskCDR1 : Word := 0xF00#32
def maskDRS : Word := 0x1000#32

/-- The bits of CCTL that no field names: 31:13 (R46). -/
def maskCctlOther : Word := 0xFFFFE000#32

/-- The fields of a CTL value (R42). -/
def ctlEN (v : Word) : Bool := v.getLsbD 0
def ctlMASTER (v : Word) : Bool := v.getLsbD 1
def ctlCPHA (v : Word) : Bool := v.getLsbD 2
def ctlCPOL (v : Word) : Bool := v.getLsbD 3
def ctlCSPOL_LOW (v : Word) : Bool := v.getLsbD 4
def ctlTF_RST (v : Word) : Bool := v.getLsbD 8
def ctlRF_RST (v : Word) : Bool := v.getLsbD 9
def ctlXCH (v : Word) : Bool := v.getLsbD 10
def ctlCS (v : Word) : BitVec 2 := v.extractLsb' 12 2
def ctlDHB (v : Word) : Bool := v.getLsbD 15
def ctlCS_MANUAL (v : Word) : Bool := v.getLsbD 16
def ctlCS_LEVEL (v : Word) : Bool := v.getLsbD 17

/-- The fields of a CCTL value (R46). -/
def cctlCDR2 (v : Word) : BitVec 8 := v.extractLsb' 0 8
def cctlCDR1 (v : Word) : BitVec 4 := v.extractLsb' 8 4
def cctlDRS (v : Word) : Bool := v.getLsbD 12

/-- CTL as a read returns it: TF_RST and RF_RST "read 0 at every time" (R45). -/
def ctlRead (b : Block) : Word := b.ctl &&& ~~~(maskTF_RST ||| maskRF_RST)

/-- FSTA as a read returns it: RF_CNT in bits 6:0, TF_CNT in bits 22:16 (R48). -/
def fstaRead (b : Block) : Word :=
  (BitVec.ofNat 7 b.rxFifo.length).setWidth 32 ||| ((BitVec.ofNat 7 b.txFifo.length).setWidth 32 <<< 16)

/-- A burst is in flight (R44, R53). -/
def busy (b : Block) : Bool := ctlXCH b.ctl

/-- The code of a result, bits 7:0 of the result word (R260). -/
def Result.code : Result → BitVec 8
  | .ok => 0
  | .alignmentError => 1
  | .timeoutError => 2
  | .illegalCommand => 3
  | .configurationError => 4

/-- The 32-bit result word: the code, bits 31:8 zero (R260). -/
def Result.word (r : Result) : Word := r.code.setWidth 32

end Sys2Proof.Machine
end

