-- ==== Sys2Proof/Machine/Operands.lean ====
section
/-! DEFINITION. The operands of a command in execution, taken from the latched word `e.cmd` (R112, R116 "uses them in the command's
first step"), and those of a TRANSFER's acceptance (R190). -/

namespace Sys2Proof.Machine

/-- HZ of the latched word, as a natural number (R112). -/
def operandHz (e : Engine) : Nat := (highField e.cmd).toNat

/-- CPOL and CPHA of the latched word (R112). -/
def operandCpol (e : Engine) : Bool := bitField e.cmd 5
def operandCpha (e : Engine) : Bool := bitField e.cmd 4

/-- `L = BITLEN div 8`, the bytes a TRANSFER moves (R11, R190). -/
def transferBytes (bitlen : Nat) : Nat := bitlen / 8

/-- The transfer length is a whole number of bytes (R192). -/
def byteAligned (bitlen : Nat) : Bool := bitlen % 8 == 0

/-- A lent buffer suffices: where its flag is set, it is there and holds at least `len` bytes (R81, R190). -/
def bufferSuffices (present : Bool) (buf : Option Buffer) (len : Nat) : Bool :=
  !present || match buf with
    | some b => decide (len ≤ b.len)
    | none => false

/-- `zext_32` of a chunk, as BC and TC are written (R195). -/
def countWord (chunk : Nat) : Word := BitVec.ofNat 32 chunk

/-- The byte of a data-port write, bits 7:0 (R82). -/
def portByte (v : Word) : Byte := v.setWidth 8

end Sys2Proof.Machine
end

