-- ==== Sys2Proof/Machine/Ops.lean ====
section
/-! DEFINITION. The shared operations: sequencing of outcomes, memory and buffers, the draws, the register bus (R80 to R87), the
end of a command with its result or its error (R15, R268), and the acceptance of a command (R31, R62). -/

namespace Sys2Proof.Machine

/-- The outcome of an operation: a value, a fault or a refusal. -/
abbrev Out (α : Type) := Host.Outcome α Fault Refusal

/-- The outcome of a step. -/
abbrev Res := Out State

/-- First `x`, then `f` of what it answers; a fault or a refusal ends the sequence. -/
def andThen {α β : Type} (x : Out α) (f : α → Out β) : Out β :=
  match x with
  | .next a => f a
  | .fault r => .fault r
  | .refused r => .refused r

/-! ### Memory and buffers -/

/-- What an unlisted address reads as (notes/assumptions/15.md). -/
def Memory.unlisted : Byte := 0x00#8

/-- The byte at an address. -/
def Memory.read : Memory → Nat → Byte
  | [], _ => Memory.unlisted
  | (a', b) :: rest, a => if a' = a then b else Memory.read rest a

/-- Store a byte, keeping the addresses rising and no entry equal to what an unlisted address reads as. -/
def Memory.write : Memory → Nat → Byte → Memory
  | [], a, b => if b = Memory.unlisted then [] else [(a, b)]
  | (a', b') :: rest, a, b =>
    if a < a' then (if b = Memory.unlisted then (a', b') :: rest else (a, b) :: (a', b') :: rest)
    else if a = a' then (if b = Memory.unlisted then rest else (a, b) :: rest)
    else (a', b') :: Memory.write rest a b

/-- Every address of the list is above `lo`, they rise strictly, and no byte is what an unlisted address reads as. -/
def Memory.wfAbove : Nat → Memory → Bool
  | _, [] => true
  | lo, (a, b) :: rest => decide (lo ≤ a) && !(b == Memory.unlisted) && Memory.wfAbove (a + 1) rest

/-- The canonical form of memory. -/
def Memory.wf (m : Memory) : Bool := Memory.wfAbove 0 m

/-- Build a buffer of the given bytes. -/
def Buffer.ofBytes (bs : List Byte) : Buffer :=
  { len := bs.length, cells := (bs.zipIdx).foldl (fun m p => Memory.write m p.2 p.1) [] }

/-- A buffer of `n` bytes 0x00. -/
def Buffer.zeros (n : Nat) : Buffer := { len := n, cells := [] }

/-- Byte `i` of a buffer. -/
def Buffer.read (b : Buffer) (i : Nat) : Byte := Memory.read b.cells i

/-- Store a byte at index `i` of a buffer. -/
def Buffer.write (b : Buffer) (i : Nat) (x : Byte) : Buffer := { b with cells := Memory.write b.cells i x }

/-- `TxByte(i)` (R86): byte `i` of the transmit buffer.  An index outside the buffer is no access of the engine (R81). -/
def txByte (i : Nat) (s : State) : Out Byte :=
  match s.txBuf with
  | some b => if i < b.len then .next (b.read i) else .fault .bufferOutOfRange
  | none => .fault .bufferOutOfRange

/-- `RxByte(i) <- x` (R86): store at byte `i` of the receive buffer. -/
def rxByteStore (i : Nat) (x : Byte) (s : State) : Res :=
  match s.rxBuf with
  | some b => if i < b.len then .next { s with rxBuf := some (b.write i x) } else .fault .bufferOutOfRange
  | none => .fault .bufferOutOfRange

/-! ### History and draws -/

/-- A step begins: the next moment, at which an automatic chip-select line is drawn anew (R176; notes/assumptions/21.md). -/
def State.nextMoment (s : State) : State := { s with env := { s.env with now := s.env.now + 1 } }

/-- Record an event (R64), at a moment of its own. -/
def State.record (ev : Event) (s : State) : State :=
  { s with env := { s.env with now := s.env.now + 1 }, history := ev :: s.history }

/-- The result of the latest command, read off the history (R31, R63: the result is returned to the host and kept nowhere else). -/
def lastResult : List Event → Option Result
  | [] => none
  | .command _ r :: _ => some r
  | .access .. :: rest => lastResult rest
  | .burst .. :: rest => lastResult rest

/-- Draw the byte the slave answers in one byte time (R207). -/
def drawSlave (s : State) : Byte × State :=
  match s.env.slaveIn with
  | b :: bs => (b, { s with env := { s.env with slaveIn := bs } })
  | [] => (Config.freeSlaveByte s.env.drawIx, { s with env := { s.env with drawIx := s.env.drawIx + 1 } })

/-- Draw a byte no rule gives: an underflow pop, a pop from an empty RX FIFO, a read of TXD (R208, R50, R49). -/
def drawByte (s : State) : Byte × State :=
  (Config.freeByte s.env.drawIx, { s with env := { s.env with drawIx := s.env.drawIx + 1 } })

/-- A burst starts (R44): draw after how many of its turns the shifter performs it (R205, R210). -/
def startBurst (s : State) : State :=
  match s.env.delays with
  | d :: ds => { s with env := { s.env with delays := ds, burstDelay := d } }
  | [] => { s with env := { s.env with burstDelay := Config.freeDelay s.env.drawIx, drawIx := s.env.drawIx + 1 } }

/-- The deadline is armed (R197, R212): draw how many polls it answers with `expired = 0` (R213, R215). -/
def armDeadline (s : State) : State :=
  match s.env.deadlines with
  | d :: ds => { s with env := { s.env with deadlines := ds, pollsLeft := d } }
  | [] => { s with env := { s.env with pollsLeft := Config.freeDeadline s.env.drawIx, drawIx := s.env.drawIx + 1 } }

/-! ### The register block -/

/-- CTL as a write leaves it: the written bits, TF_RST and RF_RST cleared (R45), XCH at 1 where it was 1 or is written 1 (R44). -/
def ctlStored (old v : Word) : Word :=
  (v &&& ~~~(maskTF_RST ||| maskRF_RST)) ||| (old &&& maskXCH)

/-- The register block after a write of CTL, but for the burst it may start: the FIFO resets are part of the write (R45). -/
def ctlWriteBlock (b : Block) (v : Word) : Block :=
  { b with ctl := ctlStored b.ctl v,
           txFifo := if ctlTF_RST v then [] else b.txFifo,
           rxFifo := if ctlRF_RST v then [] else b.rxFifo }

/-- A write of CTL (R43, R44, R45): a 1 in bit 10 starts a burst exactly when XCH was 0. -/
def ctlWrite (v : Word) (s : State) : State :=
  let s1 := { s with blk := ctlWriteBlock s.blk v }
  if ctlXCH v && !busy s.blk then startBurst s1 else s1

/-- A pop of the RX FIFO (R50): the head byte, or a drawn byte from an empty FIFO, which stays empty. -/
def rxPop (s : State) : Byte × State :=
  match s.blk.rxFifo with
  | b :: bs => (b, { s with blk := { s.blk with rxFifo := bs } })
  | [] => drawByte s

/-- A push on the TX FIFO (R49): at the tail, lost where the FIFO is full. -/
def txPush (x : Byte) (s : State) : State :=
  if s.blk.txFifo.length < Config.fifoDepth then { s with blk := { s.blk with txFifo := s.blk.txFifo ++ [x] } } else s

/-- A read on the register bus at an offset of the window (R83, R84, R87): whole registers with 4 bytes, the data ports with 1.
RXD pops; a read of TXD is a drawn byte with no side effect (R49); every other access is refused. -/
def busRead (off width : Nat) (s : State) : Out (Word × State) :=
  if width = 4 then
    if off = offCTL then .next (ctlRead s.blk, s)
    else if off = offICTL then .next (s.blk.ictl, s)
    else if off = offISTA then .next (s.blk.ista, s)
    else if off = offDMAC then .next (s.blk.dmac, s)
    else if off = offWAIT then .next (s.blk.wait, s)
    else if off = offCCTL then .next (s.blk.cctl, s)
    else if off = offBC then .next (s.blk.bc.setWidth 32, s)
    else if off = offTC then .next (s.blk.tc.setWidth 32, s)
    else if off = offFSTA then .next (fstaRead s.blk, s)
    else .refused .busAccess
  else if width = 1 then
    if off = offRXD then .next ((rxPop s).1.setWidth 32, (rxPop s).2)
    else if off = offTXD then .next ((drawByte s).1.setWidth 32, (drawByte s).2)
    else .refused .busAccess
  else .refused .busAccess

/-- A write on the register bus (R83, R84, R87).  BC and TC keep bits 23:0 (R47); a write of FSTA or of RXD is ignored (R48, R50);
ICTL, ISTA, DMAC and WAIT hold their reset values for ever (R51), so a write of one is refused (notes/assumptions/16.md). -/
def busWrite (off width : Nat) (v : Word) (s : State) : Res :=
  if width = 4 then
    if off = offCTL then .next (ctlWrite v s)
    else if off = offCCTL then .next { s with blk := { s.blk with cctl := v } }
    else if off = offBC then .next { s with blk := { s.blk with bc := v.setWidth 24 } }
    else if off = offTC then .next { s with blk := { s.blk with tc := v.setWidth 24 } }
    else if off = offFSTA then .next s
    else .refused .busAccess
  else if width = 1 then
    if off = offTXD then .next (txPush (portByte v) s)
    else if off = offRXD then .next s
    else .refused .busAccess
  else .refused .busAccess

/-- The address lies in the 44 bytes of the window (R80). -/
def inWindow (s : State) (addr : Nat) : Bool :=
  decide (s.cfg.base ≤ addr) && decide (addr < s.cfg.base + Config.windowBytes)

/-- `MemRead(addr, n)` (R14, R80): no access while the clock is off (R292), none outside the window (R84); recorded (R64). -/
def memRead (addr width : Nat) (s : State) : Out (Word × State) :=
  if !s.clkOn then .fault .clockOff
  else if !inWindow s addr then .refused .busAccess
  else andThen (busRead (addr - s.cfg.base) width s) fun p =>
    .next (p.1, p.2.record (.access (addr - s.cfg.base) width .read p.1))

/-- `MemWrite(addr, n, v)` (R14, R80). -/
def memWrite (addr width : Nat) (v : Word) (s : State) : Res :=
  if !s.clkOn then .fault .clockOff
  else if !inWindow s addr then .refused .busAccess
  else andThen (busWrite (addr - s.cfg.base) width v s) fun s1 =>
    .next (s1.record (.access (addr - s.cfg.base) width .write v))

/-- `RegRead(off)` (R14). -/
def regRead (off : Nat) (s : State) : Out (Word × State) := memRead (s.cfg.base + off) 4 s

/-- `RegWrite(off, v)` (R14). -/
def regWrite (off : Nat) (v : Word) (s : State) : Res := memWrite (s.cfg.base + off) 4 v s

/-- `PortRead(off)` (R14): the byte in bits 7:0 (R82). -/
def portRead (off : Nat) (s : State) : Out (Byte × State) :=
  andThen (memRead (s.cfg.base + off) 1 s) fun p => .next (portByte p.1, p.2)

/-- `PortWrite(off, b)` (R14). -/
def portWrite (off : Nat) (b : Byte) (s : State) : Res := memWrite (s.cfg.base + off) 1 (b.setWidth 32) s

/-! ### The engine -/

/-- Change the engine registers. -/
def State.withEngine (s : State) (e : Engine) : State := { s with e := e }

/-- `upc <- target` (R15). -/
def State.goto (target : Upc) (s : State) : State := s.withEngine { s.e with upc := target }

/-- `e.v <- RegRead(off); upc <- target`: the first half of a read-modify-write (R85). -/
def readInto (off : Nat) (target : Upc) (s : State) : Res :=
  andThen (regRead off s) fun p => .next (p.2.withEngine { p.2.e with v := p.1, upc := target })

/-- `finish(r)` (R15): the result goes to the host, the engine is IDLE.  `raise E()` is `finish(E)`; an error saves nothing and has
no vector and no handler (R268, R269). -/
def finish (r : Result) (s : State) : State := (s.goto .idle).record (.command s.e.cmd r)

/-- The end of a word at its acceptance, by IllegalCommand or AlignmentError (R117, R192, R263): no access, no change of any state
of the block or the engine (R268); the history has the command with its result (notes/assumptions/10.md). -/
def rejectAtAcceptance (w : CmdWord) (r : Result) (s : State) : State := s.record (.command w r)

/-- Acceptance of a command other than TRANSFER (R31, R62): only while the engine is IDLE; the word is latched. -/
def accept (w : CmdWord) (first : Upc) (s : State) : Res :=
  if s.e.upc = .idle then .next (s.withEngine { s.e with cmd := w, upc := first }) else .fault .engineBusy

/-- The engine registers at the acceptance of a TRANSFER (R116, R191). -/
def transferEngine (e : Engine) (w : CmdWord) (beginF endF txp rxp : Bool) (cs : BitVec 2) (bitlen : Nat) : Engine :=
  { e with cmd := w, cs := cs, beginF := beginF, endF := endF, txp := txp, rxp := rxp, rem := transferBytes bitlen, ti := 0, ri := 0,
           upc := if beginF then .tBegR else .tRstR }

/-- Acceptance of a TRANSFER (R191, R192): AlignmentError first, then the port's check of the lent buffers (R81;
notes/assumptions/11.md). -/
def acceptTransfer (w : CmdWord) (beginF endF txp rxp : Bool) (cs : BitVec 2) (bitlen : Nat) (s : State) : Res :=
  if s.e.upc ≠ .idle then .fault .engineBusy
  else if !byteAligned bitlen then .next (rejectAtAcceptance w .alignmentError s)
  else if !(bufferSuffices txp s.txBuf (transferBytes bitlen) && bufferSuffices rxp s.rxBuf (transferBytes bitlen)) then
    .refused .bufferTooShort
  else .next (s.withEngine (transferEngine s.e w beginF endF txp rxp cs bitlen))

end Sys2Proof.Machine
end

