-- ==== Sys2Proof/Machine/ChipSelect.lean ====
section
/-! DEFINITION. The chip-select controller: the value SETCS writes (R170) and the levels of the lines (R174 to R176). -/

namespace Sys2Proof.Machine

/-- The CTL value SETCS(c, sel) writes, from the value `v` read (R170). -/
def setcsValue (v : Word) (c : BitVec 2) (sel : Bool) : Word :=
  (v &&& ~~~(maskCS ||| maskCS_LEVEL)) ||| (c.setWidth 32 <<< 12) ||| (if sel then 0#32 else maskCS_LEVEL)

/-- The active level of the lines (R174). -/
def activeLevel (v : Word) : Bool := !ctlCSPOL_LOW v

/-- The level of chip-select line `i`; `none` where the block has no such line (R172).  In automatic mode a level drawn anew at
every step (R176): the free value of the moment, which every step advances. -/
def csLine (s : State) (i : Nat) : Option Bool :=
  if i < s.cfg.numCs then
    if ctlCS_MANUAL s.blk.ctl then
      some (if i = (ctlCS s.blk.ctl).toNat then ctlCS_LEVEL s.blk.ctl else !activeLevel s.blk.ctl)
    else some (Config.freeLine s.env.now i)
  else none

/-- Line `i` is asserted (R175). -/
def csAsserted (s : State) (i : Nat) : Bool := csLine s i == some (activeLevel s.blk.ctl)

end Sys2Proof.Machine
end

