-- ==== Sys2Proof/Machine/Divisor.lean ====
section
/-! DEFINITION. The clock-divisor calculator DIVCALC (R140 to R144), the CCTL value SET_SPEED writes (R147), and the serial clock
rate of a CCTL value (R56). -/

namespace Sys2Proof.Machine

/-- The divider schemes of R142 and R143. -/
inductive Scheme where
  /-- Linear (CDR2). -/
  | a
  /-- Power of two (CDR1). -/
  | b
deriving DecidableEq, Repr

/-- The clamp of R140. -/
def clampHz (p : Config.Params) (hz : Nat) : Nat := min (max hz p.minHz) p.maxHz

/-- The linear quotient of R141, of a clamped rate. -/
def linearQuotient (p : Config.Params) (fc : Nat) : Nat := p.baseHz / (2 * fc)

/-- `DIVCALC(hz)` of R144. -/
def divcalc (p : Config.Params) (hz : Nat) : Scheme × Nat :=
  if linearQuotient p (clampHz p hz) ≤ 256 then (.a, max (linearQuotient p (clampHz p hz) - 1) 0)
  else (.b, Config.flog2 p.baseHz - Config.flog2 (clampHz p hz))

/-- The CCTL value of `SPD_W` (R147): DRS and the chosen divider field replaced, the rest as read. -/
def cctlValue (v : Word) (d : Scheme × Nat) : Word :=
  match d.1 with
  | .a => (v &&& ~~~(maskCDR2 ||| maskDRS)) ||| (BitVec.ofNat 8 d.2).setWidth 32 ||| maskDRS
  | .b => (v &&& ~~~(maskCDR1 ||| maskDRS)) ||| ((BitVec.ofNat 4 d.2).setWidth 32 <<< 8)

/-- The serial clock rate of R56 as an exact rational, in Hz. -/
def clockRate (p : Config.Params) (cctl : Word) : Rat :=
  if cctlDRS cctl then (p.baseHz : Rat) / (2 * ((cctlCDR2 cctl).toNat + 1) : Rat)
  else (p.baseHz : Rat) / (2 ^ ((cctlCDR1 cctl).toNat + 1) : Rat)

end Sys2Proof.Machine
end

