-- ==== Sys2Proof/Machine/Shifter.lean ====
section
/-! DEFINITION. The shifter (R205 to R211): when it has a step, the burst it performs in one step, and its turn between two steps
of the engine (R85, R91). -/

namespace Sys2Proof.Machine

/-- A burst is in flight and the shifter may run: XCH, EN, MASTER and CLK_ON of R205. -/
def shifterArmed (s : State) : Bool :=
  ctlXCH s.blk.ctl && ctlEN s.blk.ctl && ctlMASTER s.blk.ctl && s.clkOn

/-- The shifter is enabled (R205). -/
def shifterEnabled (s : State) : Bool := shifterArmed s && s.blk.bc == s.blk.tc

/-- The out byte of one byte time (R206): popped from the TX FIFO, drawn where it is empty (R208). -/
def txPop (s : State) : Byte × State :=
  match s.blk.txFifo with
  | b :: bs => (b, { s with blk := { s.blk with txFifo := bs } })
  | [] => drawByte s

/-- The in byte goes to the tail of the RX FIFO, lost where it is full (R206, R208). -/
def rxPush (x : Byte) (s : State) : State :=
  if s.blk.rxFifo.length < Config.fifoDepth then { s with blk := { s.blk with rxFifo := s.blk.rxFifo ++ [x] } } else s

/-- The byte times of a burst (R206): the out bytes, the in bytes, and the state after them. -/
def byteTimes : Nat → State → List Byte × List Byte × State
  | 0, s => ([], [], s)
  | n + 1, s =>
    let o := txPop s
    let i := drawSlave o.2
    let r := byteTimes n (rxPush i.1 i.2)
    (o.1 :: r.1, i.1 :: r.2.1, r.2.2)

/-- SHIFT of R206: the whole burst of `BC` byte times, recorded; XCH cleared. -/
def burst (s : State) : State :=
  let r := byteTimes s.blk.bc.toNat s
  let s1 := { r.2.2 with blk := { r.2.2.blk with ctl := r.2.2.blk.ctl &&& ~~~maskXCH } }
  s1.record (.burst r.1 r.2.1)

/-- The turns the burst in flight still waits.  In mode `fair` the shifter is weakly fair, so that it never waits for ever (R214). -/
def turnsLeft (s : State) : Option Nat :=
  match s.cfg.timeoutMode, s.env.burstDelay with
  | .fair, none => some 0
  | _, d => d

/-- The shifter's turn, before a step of the engine (R16, R85, R91): with a burst in flight and EN, MASTER and the clock on, it
performs the burst when the turns drawn for it are over, and lets the turn pass otherwise.  A burst that would be performed with
BC ≠ TC is refused (R205; notes/assumptions/12.md).  The schedule is notes/assumptions/3.md. -/
def shifterTurn (s : State) : Res :=
  if shifterArmed s then
    match turnsLeft s with
    | none => .next s
    | some 0 => if s.blk.bc = s.blk.tc then .next (burst s) else .refused .burstCountMismatch
    | some (n + 1) => .next { s with env := { s.env with burstDelay := some n } }
  else .next s

/-- What the armed deadline answers at a poll that reads XCH = 1 (R213): in mode `fair`, `expired = 1` only while the shifter is not
enabled (R214); the polls it answers with `expired = 0` are finite (R215; notes/assumptions/4.md). -/
def deadlineExpired (s : State) : Bool :=
  s.env.pollsLeft == 0 && (s.cfg.timeoutMode == .free || !shifterEnabled s)

end Sys2Proof.Machine
end

