-- ==== Sys2Proof/Machine/Sequencer.lean ====
section
/-! DEFINITION. The engine's sequencer (R61, R62): one definition per labelled step of R147, R191, R240, R250 and R251, the engine
step that selects it by `e.upc`, and the running of a command's steps with the shifter's turn before each. -/

namespace Sys2Proof.Machine

/-- `RegWrite(off, v)`, then the engine goes to `target`. -/
def writeThen (off : Nat) (v : Word) (target : Upc) (s : State) : Res :=
  andThen (regWrite off v s) fun s1 => .next (s1.goto target)

/-- `RegWrite(off, v)`, then `finish(r)`. -/
def writeFinish (off : Nat) (v : Word) (r : Result) (s : State) : Res :=
  andThen (regWrite off v s) fun s1 => .next (finish r s1)

/-! ### CLAIM and RELEASE (R250, R251) -/

def claimValue (v : Word) : Word := v ||| maskEN ||| maskMASTER ||| maskCS_MANUAL ||| maskCSPOL_LOW ||| maskDHB
def releaseValue (v : Word) : Word := v &&& ~~~maskEN

def stepClaimR (s : State) : Res := readInto offCTL .claimW s
def stepClaimW (s : State) : Res := writeFinish offCTL (claimValue s.e.v) .ok s
def stepRelR (s : State) : Res := readInto offCTL .relW s
def stepRelW (s : State) : Res := writeFinish offCTL (releaseValue s.e.v) .ok s

/-! ### SET_SPEED (R147) -/

def stepSpdR (s : State) : Res :=
  readInto offCCTL .spdW (s.withEngine { s.e with hz := BitVec.ofNat 32 (clampHz s.cfg (operandHz s.e)) })

def stepSpdW (s : State) : Res :=
  andThen (regWrite offCCTL (cctlValue s.e.v (divcalc s.cfg s.e.hz.toNat)) s) fun s1 =>
    .next (finish .ok (s1.withEngine { s1.e with curFreq := s1.e.hz }))

/-! ### SET_MODE (R240) -/

def modeValue (v : Word) (cpol cpha : Bool) : Word :=
  (v &&& ~~~(maskCPOL ||| maskCPHA)) ||| (if cpol then maskCPOL else 0#32) ||| (if cpha then maskCPHA else 0#32)

def stepModeR (s : State) : Res := readInto offCTL .modeW s

def stepModeW (s : State) : Res :=
  andThen (regWrite offCTL (modeValue s.e.v (operandCpol s.e) (operandCpha s.e)) s) fun s1 =>
    .next (finish .ok (s1.withEngine { s1.e with curCpol := operandCpol s1.e, curCpha := operandCpha s1.e }))

/-! ### TRANSFER (R191) -/

/-- `T_LOOP`: no access, folded into the step that enters it (R191, R194). -/
def enterLoop (s : State) : State :=
  if s.e.rem = 0 then
    if s.e.endF then s.goto .tEndR else finish .ok s
  else s.withEngine { s.e with chunk := min s.e.rem Config.chunkMax, k := 0, upc := .tBc }

def stepTBegR (s : State) : Res := readInto offCTL .tBegW s
def stepTBegW (s : State) : Res := writeThen offCTL (setcsValue s.e.v s.e.cs true) .tRstR s
def stepTRstR (s : State) : Res := readInto offCTL .tRstW s

/-- R193: both FIFO-reset bits in one register write. -/
def stepTRstW (s : State) : Res :=
  andThen (regWrite offCTL (s.e.v ||| maskTF_RST ||| maskRF_RST) s) fun s1 => .next (enterLoop (s1.goto .tLoop))

def stepTBc (s : State) : Res := writeThen offBC (countWord s.e.chunk) .tTc s
def stepTTc (s : State) : Res := writeThen offTC (countWord s.e.chunk) .tFill s

/-- The byte of the next fill (R196): from the transmit buffer, or 0x00 with none. -/
def fillByte (s : State) : Out Byte := if s.e.txp then txByte s.e.ti s else .next 0x00#8

def stepTFill (s : State) : Res :=
  andThen (fillByte s) fun b =>
    andThen (portWrite offTXD b s) fun s1 =>
      .next (s1.withEngine { s1.e with ti := s1.e.ti + 1, k := s1.e.k + 1,
                                       upc := if s1.e.k + 1 = s1.e.chunk then .tXchR else .tFill })

def stepTXchR (s : State) : Res := readInto offCTL .tXchW s

/-- R197: the write with bit 10 set starts the burst and arms the deadline (R212). -/
def stepTXchW (s : State) : Res :=
  andThen (regWrite offCTL (s.e.v ||| maskXCH) s) fun s1 => .next ((armDeadline s1).goto .tPoll)

/-- R198: the read comes first; only a read with XCH = 1 consults the deadline (R213). -/
def stepTPoll (s : State) : Res :=
  andThen (regRead offCTL s) fun p =>
    if ctlXCH p.1 then
      .next { p.2 with e := { p.2.e with v := p.1, upc := if deadlineExpired p.2 then .tToR else .tPoll },
                       env := { p.2.env with pollsLeft := p.2.env.pollsLeft - 1 } }
    else .next (p.2.withEngine { p.2.e with v := p.1, k := 0, upc := .tDrain })

def stepTToR (s : State) : Res := readInto offCTL .tToW s

/-- R199: SETCS(e.cs, 0), then TimeoutError. -/
def stepTToW (s : State) : Res := writeFinish offCTL (setcsValue s.e.v s.e.cs false) .timeoutError s

/-- A drained byte goes to the receive buffer where there is one (R200). -/
def keepByte (b : Byte) (s : State) : Res := if s.e.rxp then rxByteStore s.e.ri b s else .next s

/-- The engine registers after a drained byte (R200, R201). -/
def afterDrain (s : State) : State :=
  let s1 := s.withEngine { s.e with ri := s.e.ri + 1, k := s.e.k + 1 }
  if s1.e.k = s1.e.chunk then enterLoop (s1.withEngine { s1.e with rem := s1.e.rem - s1.e.chunk, upc := .tLoop }) else s1

def stepTDrain (s : State) : Res :=
  andThen (portRead offRXD s) fun p => andThen (keepByte p.1 p.2) fun s1 => .next (afterDrain s1)

def stepTEndR (s : State) : Res := readInto offCTL .tEndW s

/-- R202: SETCS(e.cs, 0), then OK. -/
def stepTEndW (s : State) : Res := writeFinish offCTL (setcsValue s.e.v s.e.cs false) .ok s

/-! ### The engine step -/

/-- One engine step: the step of the position `e.upc` (R62).  In IDLE the engine has none of its own; a command is accepted by the
port (Machine/Port.lean). -/
def engineStep (s : State) : Res :=
  match s.e.upc with
  | .idle => .next s
  | .claimR => stepClaimR s
  | .claimW => stepClaimW s
  | .relR => stepRelR s
  | .relW => stepRelW s
  | .spdR => stepSpdR s
  | .spdW => stepSpdW s
  | .modeR => stepModeR s
  | .modeW => stepModeW s
  | .tBegR => stepTBegR s
  | .tBegW => stepTBegW s
  | .tRstR => stepTRstR s
  | .tRstW => stepTRstW s
  | .tLoop => .next (enterLoop s)
  | .tBc => stepTBc s
  | .tTc => stepTTc s
  | .tFill => stepTFill s
  | .tXchR => stepTXchR s
  | .tXchW => stepTXchW s
  | .tPoll => stepTPoll s
  | .tToR => stepTToR s
  | .tToW => stepTToW s
  | .tDrain => stepTDrain s
  | .tEndR => stepTEndR s
  | .tEndW => stepTEndW s

/-- The finest step: the shifter's turn, then one engine step (R16, R85). -/
def tick (s : State) : Res := andThen (shifterTurn s) engineStep

/-- Tick while the position meets `p`, at most `n` times. -/
def runWhile (p : Upc → Bool) : Nat → State → Res
  | 0, s => .next s
  | n + 1, s => if p s.e.upc then andThen (tick s) (runWhile p n) else .next s

/-- A command is in execution. -/
def running (u : Upc) : Bool := u != .idle

/-- The positions of a TRANSFER before its first burst. -/
def inPrologue (u : Upc) : Bool := u == .tBegR || u == .tBegW || u == .tRstR || u == .tRstW

/-- The positions of a burst before its poll. -/
def inFill (u : Upc) : Bool := u == .tBc || u == .tTc || u == .tFill || u == .tXchR || u == .tXchW

/-- At least the polls one deadline can last (R215): those it answers with `expired = 0`, and in mode `fair` those until the
enabled shifter has stepped. -/
def pollBound (s : State) : Nat := s.env.pollsLeft + s.env.burstDelay.getD 0 + 2

/-- The steps of one burst, from `T_BC` to the loop test, or to the timeout path. -/
def runBurst (s : State) : Res :=
  andThen (runWhile inFill (s.e.chunk + 4) s) fun s1 =>
    andThen (runWhile (fun u => u == .tPoll) (pollBound s1) s1) fun s2 =>
      runWhile (fun u => u == .tDrain) s2.e.chunk s2

/-- The bursts of a TRANSFER, at most `n`. -/
def runBursts : Nat → State → Res
  | 0, s => .next s
  | n + 1, s => if s.e.upc = .tBc then andThen (runBurst s) (runBursts n) else .next s

end Sys2Proof.Machine
end

