-- ==== Sys2Proof/Machine/BusClaim.lean ====
section
/-! DEFINITION. The meanings of CLAIM and RELEASE (R250, R251): acceptance, then the two steps of the read-modify-write of CTL, the
shifter's turn before each. -/

namespace Sys2Proof.Machine

/-- CLAIM (R250). -/
def execClaim (s : State) : Res := andThen (accept (encode .claim) .claimR s) (runWhile running 2)

/-- RELEASE (R251). -/
def execRelease (s : State) : Res := andThen (accept (encode .release) .relR s) (runWhile running 2)

end Sys2Proof.Machine
end

