-- ==== Sys2Proof/Machine/Mode.lean ====
section
/-! DEFINITION. The meaning of SET_MODE (R240). -/

namespace Sys2Proof.Machine

/-- SET_MODE (R240): acceptance, then `MODE_R` and `MODE_W`. -/
def execSetMode (cpol cpha : Bool) (s : State) : Res :=
  andThen (accept (encode (.setMode cpol cpha)) .modeR s) (runWhile running 2)

end Sys2Proof.Machine
end

