-- ==== Sys2Proof/Machine/Speed.lean ====
section
/-! DEFINITION. The meaning of SET_SPEED (R147). -/

namespace Sys2Proof.Machine

/-- SET_SPEED (R147): acceptance, then `SPD_R` and `SPD_W`. -/
def execSetSpeed (hz : Nat) (s : State) : Res := andThen (accept (encode (.setSpeed hz)) .spdR s) (runWhile running 2)

end Sys2Proof.Machine
end

