-- ==== Sys2Proof/Machine/Transfer.lean ====
section
/-! DEFINITION. The meaning of TRANSFER (R191). -/

namespace Sys2Proof.Machine

/-- TRANSFER (R191): acceptance (R192), chip select and FIFO reset, the bursts (at most one a byte), and the end or the timeout path.
The poll loop is bounded (R215), so that every TRANSFER finishes. -/
def execTransfer (beginF endF txp rxp : Bool) (cs : BitVec 2) (bitlen : Nat) (s : State) : Res :=
  andThen (acceptTransfer (encode (.transfer beginF endF txp rxp cs bitlen)) beginF endF txp rxp cs bitlen s) fun s1 =>
    andThen (runWhile inPrologue 4 s1) fun s2 =>
      andThen (runBursts s2.e.rem s2) (runWhile running 2)

end Sys2Proof.Machine
end

