-- ==== Sys2Proof/Machine/Dispatch.lean ====
section
/-! DEFINITION. One arm per command: each calls its meaning. -/

namespace Sys2Proof.Machine

def exec (i : Instr) (s : State) : Host.Outcome State Fault Refusal :=
  match i with
  | .claim => Sys2Proof.Machine.execClaim s
  | .release => Sys2Proof.Machine.execRelease s
  | .setSpeed hz => Sys2Proof.Machine.execSetSpeed hz s
  | .setMode cpol cpha => Sys2Proof.Machine.execSetMode cpol cpha s
  | .transfer beginF endF txp rxp cs bitlen => Sys2Proof.Machine.execTransfer beginF endF txp rxp cs bitlen s

end Sys2Proof.Machine
end

