-- ==== Sys2Proof/Machine/Port.lean ====
section
/-! DEFINITION. The command port (R31, R62): taking the host's next command, and what the engine does in its turn. -/

namespace Sys2Proof.Machine

/-- The host's command leaves the port; with a TRANSFER its buffers are lent to the engine (R81, R114). -/
def takeCommand (c : HostCommand) (rest : List HostCommand) (i : Instr) (s : State) : State :=
  match i with
  | .claim => { s with port := rest }
  | .release => { s with port := rest }
  | .setSpeed _ => { s with port := rest }
  | .setMode _ _ => { s with port := rest }
  | .transfer _ _ _ _ _ _ => { s with port := rest, txBuf := c.tx, rxBuf := c.rx }

/-- The engine's turn: a step of the command in execution; in IDLE the host's next command, decoded (R116) and executed, or ended
with IllegalCommand (R117); nothing where the host has none (R295). -/
def engineTurn (s : State) : Res :=
  if s.e.upc = .idle then
    match s.port with
    | [] => .next s
    | c :: rest =>
      match decodeWord c.word with
      | .ok i => exec i (takeCommand c rest i s)
      | .error _ => .next (rejectAtAcceptance c.word .illegalCommand { s with port := rest })
  else engineStep s

/-- Initialisation (R291): the configuration is checked and refused with ConfigurationError, then the clock is on; no register is
written. -/
def initialise (p : Config.Params) (s : State) : Res :=
  if p.valid then .next { s with cfg := p, clkOn := true } else .fault .configurationError

/-- The reset input (R34, R290): the block and the engine at the values of R70; the configuration, the clock premise, the host's
commands and what was recorded are outside the block and stay.  It is an input, no step of the machine.  What it does to a command in
execution beside that the spec leaves open, and the model chooses (DESIGN CHOICE, notes/assumptions/32.md): the lent buffers, which
are the host's memory (R35, R81), stay as they stand, with every byte stored so far, and the interrupted command returns no result. -/
def hardwareReset (s : State) : State :=
  { s with blk := Block.reset, e := Engine.reset,
           env := { s.env with burstDelay := none, pollsLeft := 0, now := s.env.now + 1 } }

/-- A command placed at the head of the port, with zeroed buffers long enough for it; the engine waits for it. -/
def placeCommand (w : CmdWord) (s : State) : State :=
  { s with e := { s.e with upc := .idle },
           port := { word := w, tx := some (Buffer.zeros (transferBytes (highField w).toNat)),
                     rx := some (Buffer.zeros (transferBytes (highField w).toNat)) } :: s.port }

end Sys2Proof.Machine
end

