-- ==== Sys2Proof/Machine/Step.lean ====
section
/-! DEFINITION. One step of the machine, and the placing of a command word where the next step takes it. -/

namespace Sys2Proof.Machine

/-- One step.  A configuration that fails a constraint of R9 is no instance and accepts no command (R264).  Otherwise, at a moment of
its own (R176), the shifter's turn (R85), then the engine's: a whole command from IDLE (notes/assumptions/1.md), one engine step where a command is in execution,
nothing where the host has no command. -/
def step (s : State) : Host.Outcome State Fault Refusal :=
  if s.cfg.valid then andThen (shifterTurn s.nextMoment) engineTurn else .fault .configurationError

/-- The command word `w`, of `nbits` bits, presented as the host's next command, with the buffers the port asks for.  The engine
fetches nothing from memory (R94): a program is the sequence of commands the host presents (notes/assumptions/14.md). -/
def State.withFetchWord (s : State) (nbits w : Nat) : State := placeCommand (BitVec.ofNat 64 (w % 2 ^ nbits)) s

end Sys2Proof.Machine
end

