-- ==== Sys2Proof/Safety.lean ====
section
/-! DEFINITION. The terms claims use: the states that accept a command, the invariant of the machine, the promises of the spec that
hold across all commands, and how histories are counted. -/

namespace Sys2Proof.Machine

/-- The engine accepts a command and its accesses have a meaning: IDLE (R31) with the clock on (R292). -/
structure Ready (s : State) : Prop where
  idle : s.e.upc = .idle
  clk  : s.clkOn = true

/-- No burst is in flight (CTL.XCH = 0), the premise of R217, R242 and R301. -/
def Quiet (s : State) : Prop := busy s.blk = false

/-- No turn of the shifter is refused for its counts (R205): no burst is in flight, or its counts are equal. -/
def CountsAgree (s : State) : Prop := busy s.blk = true → s.blk.bc = s.blk.tc

/-- The positions that hold a CTL value in `e.v`, read and not yet written back (R85). -/
def holdsCtl (u : Upc) : Bool :=
  u == .claimW || u == .relW || u == .modeW || u == .tBegW || u == .tRstW || u == .tXchW || u == .tToW || u == .tEndW

/-- The positions of a TRANSFER whose rest still sends or receives (R191). -/
def inTransfer (u : Upc) : Bool :=
  u == .tBegR || u == .tBegW || u == .tRstR || u == .tRstW || u == .tLoop || u == .tBc || u == .tTc || u == .tFill || u == .tXchR ||
    u == .tXchW || u == .tPoll || u == .tDrain

/-- The positions inside the body of the chunk loop (R191). -/
def inLoopBody (u : Upc) : Bool :=
  u == .tBc || u == .tTc || u == .tFill || u == .tXchR || u == .tXchW || u == .tPoll || u == .tDrain

/-- The bytes of the transfer not yet written to TXD. -/
def sendLeft (e : Engine) : Nat :=
  if e.upc = .tFill then e.rem - e.k
  else if e.upc = .tXchR ∨ e.upc = .tXchW ∨ e.upc = .tPoll ∨ e.upc = .tDrain then e.rem - e.chunk
  else if inTransfer e.upc then e.rem
  else 0

/-- The bytes of the transfer not yet read from RXD. -/
def recvLeft (e : Engine) : Nat :=
  if e.upc = .tDrain then e.rem - e.k
  else if inTransfer e.upc then e.rem
  else 0

/-- Every lent buffer is in canonical form. -/
def Buffer.wf (b : Buffer) : Bool := Memory.wf b.cells

/-- The invariant of the machine: what every step keeps, and what keeps the engine inside its buffers and its registers inside the
ranges of R60. -/
structure Inv (s : State) : Prop where
  /-- TF_RST and RF_RST are never held (R45). -/
  noResetBits : ctlTF_RST s.blk.ctl = false ∧ ctlRF_RST s.blk.ctl = false
  /-- A FIFO holds at most `FIFO_DEPTH` bytes (R52). -/
  txDepth : s.blk.txFifo.length ≤ Config.fifoDepth
  rxDepth : s.blk.rxFifo.length ≤ Config.fifoDepth
  /-- The ranges of R60. -/
  chunkRange : s.e.chunk ≤ Config.chunkMax
  kRange : s.e.k ≤ Config.chunkMax
  remRange : s.e.rem < 2 ^ 29
  tiRange : s.e.ti + sendLeft s.e < 2 ^ 29
  riRange : s.e.ri + recvLeft s.e < 2 ^ 29
  /-- In the loop body the chunk is that of R194 and at least 1. -/
  chunkIs : inLoopBody s.e.upc = true → s.e.chunk = min s.e.rem Config.chunkMax ∧ 1 ≤ s.e.chunk
  /-- The counter of a fill or a drain is below the chunk, and 0 before a fill. -/
  kBefore : s.e.upc = .tBc ∨ s.e.upc = .tTc → s.e.k = 0
  kInside : s.e.upc = .tFill ∨ s.e.upc = .tDrain → s.e.k < s.e.chunk
  /-- BC and TC hold the chunk once written (R195). -/
  bcIs : s.e.upc = .tTc ∨ s.e.upc = .tFill ∨ s.e.upc = .tXchR ∨ s.e.upc = .tXchW ∨ s.e.upc = .tPoll → s.blk.bc.toNat = s.e.chunk
  tcIs : s.e.upc = .tFill ∨ s.e.upc = .tXchR ∨ s.e.upc = .tXchW ∨ s.e.upc = .tPoll → s.blk.tc = s.blk.bc
  /-- The lent buffers hold every byte still to be moved (R81). -/
  txRoom : inTransfer s.e.upc = true → s.e.txp = true → ∃ b, s.txBuf = some b ∧ s.e.ti + sendLeft s.e ≤ b.len
  rxRoom : inTransfer s.e.upc = true → s.e.rxp = true → ∃ b, s.rxBuf = some b ∧ s.e.ri + recvLeft s.e ≤ b.len
  /-- Memory keeps its canonical form. -/
  txCanonical : ∀ b, s.txBuf = some b → b.wf = true
  rxCanonical : ∀ b, s.rxBuf = some b → b.wf = true
  portCanonical : ∀ c ∈ s.port, (∀ b, c.tx = some b → b.wf = true) ∧ (∀ b, c.rx = some b → b.wf = true)

/-- Manual, active-low chip select (R177), held also by a CTL value on its way back. -/
structure ManualActiveLow (s : State) : Prop where
  now  : ctlCS_MANUAL s.blk.ctl = true ∧ ctlCSPOL_LOW s.blk.ctl = true
  held : holdsCtl s.e.upc = true → ctlCS_MANUAL s.e.v = true ∧ ctlCSPOL_LOW s.e.v = true

/-- The bits of CTL and CCTL that no field names hold the values `x` and `y` (R41), also in a value on its way back. -/
structure OtherBits (x y : Word) (s : State) : Prop where
  ctl      : s.blk.ctl &&& maskCtlOther = x
  cctl     : s.blk.cctl &&& maskCctlOther = y
  ctlHeld  : holdsCtl s.e.upc = true → s.e.v &&& maskCtlOther = x
  cctlHeld : s.e.upc = .spdW → s.e.v &&& maskCctlOther = y

/-- The registers no rule of the core accesses (R51). -/
def sameOpaque (a b : Block) : Prop := a.ictl = b.ictl ∧ a.ista = b.ista ∧ a.dmac = b.dmac ∧ a.wait = b.wait

/-- CTL, as it reads, changed from `s` to `t` in exactly the bits `f` names, to the values `f` gives; XCH aside, which the shifter
also clears (R44, R209). -/
def CtlChanged (s t : State) (f : Nat → Option Bool) : Prop :=
  ∀ j, j < 32 → j ≠ 10 → (ctlRead t.blk).getLsbD j = (f j).getD ((ctlRead s.blk).getLsbD j)

/-- The frame of a command that writes no register but CTL and CCTL: from `s` to `t`, with the engine registers `e` but for `e.v`.
No FIFO changes and no burst is in flight where none was at acceptance; otherwise the shifter alone changes the FIFOs. -/
structure RmwFrame (s t : State) (e : Engine) : Prop where
  cfg     : t.cfg = s.cfg
  clkOn   : t.clkOn = s.clkOn
  port    : t.port = s.port
  txBuf   : t.txBuf = s.txBuf
  rxBuf   : t.rxBuf = s.rxBuf
  counts  : t.blk.bc = s.blk.bc ∧ t.blk.tc = s.blk.tc
  unused  : sameOpaque s.blk t.blk
  engine  : t.e = { e with v := t.e.v, upc := .idle }
  quiet   : Quiet s → Quiet t ∧ t.blk.txFifo = s.blk.txFifo ∧ t.blk.rxFifo = s.blk.rxFifo ∧ t.env.slaveIn = s.env.slaveIn

/-- Register writes of a history (R218). -/
def writeCount : List Event → Nat
  | [] => 0
  | .access _ _ .write _ :: rest => writeCount rest + 1
  | .access _ _ .read _ :: rest => writeCount rest
  | .burst .. :: rest => writeCount rest
  | .command .. :: rest => writeCount rest

/-- Register reads of a history (R218). -/
def readCount : List Event → Nat
  | [] => 0
  | .access _ _ .read _ :: rest => readCount rest + 1
  | .access _ _ .write _ :: rest => readCount rest
  | .burst .. :: rest => readCount rest
  | .command .. :: rest => readCount rest

/-- The values written to CTL in a history, oldest first (R178). -/
def ctlWrites : List Event → List Word
  | [] => []
  | .access off _ .write v :: rest => if off = offCTL then ctlWrites rest ++ [v] else ctlWrites rest
  | .access _ _ .read _ :: rest => ctlWrites rest
  | .burst .. :: rest => ctlWrites rest
  | .command .. :: rest => ctlWrites rest

/-- The bytes out and in of the bursts of a history, oldest first (R64). -/
def sentBytes : List Event → List Byte
  | [] => []
  | .burst outs _ :: rest => sentBytes rest ++ outs
  | .access .. :: rest => sentBytes rest
  | .command .. :: rest => sentBytes rest

def receivedBytes : List Event → List Byte
  | [] => []
  | .burst _ ins :: rest => receivedBytes rest ++ ins
  | .access .. :: rest => receivedBytes rest
  | .command .. :: rest => receivedBytes rest

/-- The sizes of the bursts of a history, oldest first (R216). -/
def burstSizes : List Event → List Nat
  | [] => []
  | .burst outs _ :: rest => burstSizes rest ++ [outs.length]
  | .access .. :: rest => burstSizes rest
  | .command .. :: rest => burstSizes rest

/-- A history scanned for polls (R198, R218), event by event: whether a burst has been started and is being polled, and the polls of
each burst so far, the latest burst first. -/
structure PollScan where
  polling : Bool
  counts  : List Nat
deriving DecidableEq, Repr

/-- One more poll of the latest burst. -/
def PollScan.poll (p : PollScan) : PollScan :=
  match p.counts with
  | [] => p
  | k :: ks => { p with counts := (k + 1) :: ks }

/-- No burst is being polled. -/
def PollScan.close (p : PollScan) : PollScan := { p with polling := false }

/-- The polls of a history, one event further.  A write of CTL that sets XCH starts the polls of a burst (R197); every read of CTL is
then a poll of it (R198), until another register is read (the drain, R200) or a register is written or the command ends.  The read of
the timeout path (R199) follows the polls without another access between, and is counted with them. -/
def pollEvent : Event → PollScan → PollScan
  | .access off _ .write v, p =>
    if off = offCTL ∧ ctlXCH v = true then { polling := true, counts := 0 :: p.counts } else p.close
  | .access off _ .read _, p => if off = offCTL then (if p.polling then p.poll else p) else p.close
  | .burst .., p => p
  | .command .., p => p.close

/-- The number of polls of each burst a history starts, oldest burst first (R218). -/
def pollCounts (ev : List Event) : List Nat := (ev.foldr pollEvent { polling := false, counts := [] }).counts.reverse

/-- Bytes `from_` to `from_ + n − 1` of a buffer. -/
def Buffer.slice (b : Buffer) (from_ : Nat) : Nat → List Byte
  | 0 => []
  | n + 1 => b.read from_ :: Buffer.slice b (from_ + 1) n

/-- What a TRANSFER needs to be accepted (R31, R81, R192, R292): a ready engine, whole bytes, and the lent buffers long enough; and the
receive buffer in canonical form, so that a store is read back. -/
structure Accepts (s : State) (txp rxp : Bool) (bitlen : Nat) : Prop where
  ready   : Ready s
  aligned : bitlen % 8 = 0
  tx      : txp = true → ∃ b, s.txBuf = some b ∧ bitlen / 8 ≤ b.len
  rx      : rxp = true → ∃ b, s.rxBuf = some b ∧ bitlen / 8 ≤ b.len ∧ b.wf = true

/-- The first `n` bytes a TRANSFER sends (R196): those of the lent transmit buffer, or 0x00 with none. -/
def dataOut (txp : Bool) (buf : Option Buffer) (n : Nat) : List Byte :=
  if txp then (match buf with | some b => b.slice 0 n | none => []) else List.replicate n 0x00#8

/-- The receive buffer `after`, the in bytes `ins` stored at its first places in order and every other place as `before` (R81, R82,
R200). -/
structure Stored (before after : Buffer) (ins : List Byte) : Prop where
  len    : after.len = before.len
  stored : ∀ i, i < ins.length → after.read i = ins.getD i 0x00#8
  rest   : ∀ i, ins.length ≤ i → after.read i = before.read i

/-- What becomes of the lent receive buffer (R200): `ins` stored where RXP is set, nothing otherwise. -/
def Delivered (rxp : Bool) (s t : State) (ins : List Byte) : Prop :=
  if rxp then ∃ b b', s.rxBuf = some b ∧ t.rxBuf = some b' ∧ Stored b b' ins else t.rxBuf = s.rxBuf

/-- The number of bursts of a transfer of `n` bytes, `ceil(n / 63)` (R216). -/
def burstCount (n : Nat) : Nat := (n + 62) / 63

/-- The sizes of the bursts of a transfer of `n` bytes (R216). -/
def chunkSizes (n : Nat) : List Nat := List.replicate (n / 63) 63 ++ (if n % 63 = 0 then [] else [n % 63])

/-- The change SETCS(`cs`, `sel`) makes in CTL, bit by bit (R170). -/
def csBits (cs : BitVec 2) (sel : Bool) (j : Nat) : Option Bool :=
  if j = 12 then some (cs.getLsbD 0) else if j = 13 then some (cs.getLsbD 1) else if j = 17 then some (!sel) else none

/-- The change a TRANSFER that finishes OK makes in CTL (R191): SETCS(cs, 1) with BEGIN, SETCS(cs, 0) with END. -/
def transferBits (cs : BitVec 2) (beginF endF : Bool) (j : Nat) : Option Bool :=
  if endF then csBits cs false j else if beginF then csBits cs true j else none

/-- The CS and CS_LEVEL bits of a CTL value. -/
def csState (v : Word) : BitVec 2 × Bool := (ctlCS v, ctlCS_LEVEL v)

/-- The frame of a TRANSFER from `s` to `t`: it writes no register but CTL, BC and TC, no engine register but its own, and no byte of
the transmit buffer. -/
structure TransferFrame (s t : State) (w : CmdWord) (beginF endF txp rxp : Bool) (cs : BitVec 2) : Prop where
  cfg    : t.cfg = s.cfg
  clkOn  : t.clkOn = s.clkOn
  port   : t.port = s.port
  txBuf  : t.txBuf = s.txBuf
  cctl   : t.blk.cctl = s.blk.cctl
  unused : sameOpaque s.blk t.blk
  engine : t.e = { s.e with cmd := w, cs := cs, beginF := beginF, endF := endF, txp := txp, rxp := rxp, rem := t.e.rem,
                            chunk := t.e.chunk, k := t.e.k, ti := t.e.ti, ri := t.e.ri, v := t.e.v, upc := .idle }

end Sys2Proof.Machine
end

