-- ==== Sys2Proof/Certificates/Slice0/Obligations.lean ====
section
/-! DEFINITION. The statements about the model, each with the rule of the spec it formalises. -/

open Sys2Proof Sys2Proof.Machine

/-! ### Encoding -/

/-- Decoding the word of a well-formed command gives it back, with every operand at every value its field admits (R112, R116, R120). -/
def Obligations.DecodeEncodeRoundTrip : Prop :=
  ∀ i : Instr, i.wellFormed = true → decodeWord (encode i) = .ok i

/-- A word that decodes is the word of the command it decodes to, and that command is well formed (R112, R116). -/
def Obligations.EncodeDecodeRoundTrip : Prop :=
  ∀ (w : CmdWord) (i : Instr), decodeWord w = .ok i → i.wellFormed = true ∧ encode i = w

/-- R115: a word decodes to a command exactly when it matches the command's row of the opcode table; 0x0 and 0x6 to 0xF are
reserved. -/
def Obligations.WordsDecodeByTheirMatchAndMask : Prop :=
  ∀ w : CmdWord,
    (decodeWord w = .ok .claim ↔ w &&& 0xFFFFFFFFFFFFFFFF#64 = 0x0000000000000001#64) ∧
    (decodeWord w = .ok .release ↔ w &&& 0xFFFFFFFFFFFFFFFF#64 = 0x0000000000000002#64) ∧
    ((∃ hz, decodeWord w = .ok (.setSpeed hz)) ↔ w &&& 0x00000000FFFFFFFF#64 = 0x0000000000000003#64) ∧
    ((∃ cpol cpha, decodeWord w = .ok (.setMode cpol cpha)) ↔ w &&& 0xFFFFFFFFFFFFFFCF#64 = 0x0000000000000004#64) ∧
    ((∃ b e tx rx cs n, decodeWord w = .ok (.transfer b e tx rx cs n)) ↔ w &&& 0x00000000FFFFFC0F#64 = 0x0000000000000005#64) ∧
    (decodeWord w = .error .reservedOpcode ↔ opField w = 0#4 ∨ 6 ≤ (opField w).toNat)

/-- R113: a word of a format with a 1 in a `Z` bit of it is illegal, and no other word of a format is. -/
def Obligations.AMustBeZeroBitMakesAWordIllegal : Prop :=
  ∀ w : CmdWord, decodeWord w = .error .mustBeZero ↔
    ((opField w = 1#4 ∨ opField w = 2#4) ∧ ∃ j, 4 ≤ j ∧ j < 64 ∧ w.getLsbD j = true) ∨
    (opField w = 3#4 ∧ ∃ j, 4 ≤ j ∧ j < 32 ∧ w.getLsbD j = true) ∨
    (opField w = 4#4 ∧ ∃ j, 6 ≤ j ∧ j < 64 ∧ w.getLsbD j = true) ∨
    (opField w = 5#4 ∧ ∃ j, 10 ≤ j ∧ j < 32 ∧ w.getLsbD j = true)

/-- Words written out from the formats of R111 decode to the commands they stand for. -/
def Obligations.WordsWrittenOutDecode : Prop :=
  decodeWord 0x0000000000000001#64 = .ok .claim ∧
  decodeWord 0x0000000000000002#64 = .ok .release ∧
  decodeWord 0x000F424000000003#64 = .ok (.setSpeed 1000000) ∧
  decodeWord 0x0000000000000014#64 = .ok (.setMode false true) ∧
  decodeWord 0x0000000000000024#64 = .ok (.setMode true false) ∧
  decodeWord 0x00000320000002F5#64 = .ok (.transfer true true true true 2#2 800) ∧
  decodeWord 0x0000000800000315#64 = .ok (.transfer true false false false 3#2 8) ∧
  decodeWord 0x0000000D00000165#64 = .ok (.transfer false true true false 1#2 13)

/-! ### The step -/

/-- R62: a step of an idle engine with a command at its port that decodes is the shifter's turn (R85), then that command, its buffers
lent with it (R81).  That a step is a whole command, where the shifter's turn stands in it, and the moment every step begins with, are
the model's choice (notes/assumptions/1.md, 28.md, 21.md). -/
def Obligations.StepRunsTheDecodedCommand : Prop :=
  ∀ (s s1 : State) (c : HostCommand) (rest : List HostCommand) (i : Instr),
    s.cfg.valid = true → s.e.upc = .idle → s.port = c :: rest → decodeWord c.word = .ok i → shifterTurn s.nextMoment = .next s1 →
    step s = exec i (takeCommand c rest i s1) ∧
    takeCommand c rest i s1 = { s1 with port := rest, txBuf := (takeCommand c rest i s1).txBuf, rxBuf := (takeCommand c rest i s1).rxBuf } ∧
    (if opcodeOf i = 5#4 then (takeCommand c rest i s1).txBuf = c.tx ∧ (takeCommand c rest i s1).rxBuf = c.rx
     else (takeCommand c rest i s1).txBuf = s.txBuf ∧ (takeCommand c rest i s1).rxBuf = s.rxBuf)

/-- R31, R62: while a command is in execution no command leaves the port, and none is accepted.  The model's choice is that a step is
then the shifter's turn and one engine step (notes/assumptions/1.md, 28.md), at a moment of its own (21.md), and that a command executed
there all the same is the fault `engineBusy` (18.md). -/
def Obligations.ACommandInExecutionRunsOnAlone : Prop :=
  ∀ s s1 : State, s.cfg.valid = true → s.e.upc ≠ .idle → shifterTurn s.nextMoment = .next s1 →
    step s = engineStep s1 ∧ (∀ t, step s = .next t → t.port = s.port) ∧ (∀ i, exec i s = .fault .engineBusy)

/-- R117, R263, R268: a word that decodes to ILLEGAL ends at once with IllegalCommand: no access, no change of the block, the engine
or the buffers.  The model's choice is that the word is not latched into `e.cmd` (R62 against R117 and R268; notes/assumptions/10.md),
that the history keeps it with its result (27.md), and that the step and the event each have a moment (21.md). -/
def Obligations.AnIllegalWordChangesNothing : Prop :=
  ∀ (s s1 : State) (c : HostCommand) (rest : List HostCommand) (x : DecodeError),
    s.cfg.valid = true → s.e.upc = .idle → s.port = c :: rest → decodeWord c.word = .error x → shifterTurn s.nextMoment = .next s1 →
    step s = .next { s1 with port := rest, env := { s1.env with now := s1.env.now + 1 },
                             history := .command c.word .illegalCommand :: s1.history }

/-- R9: the configurations that are accepted; R260, R264: initialisation refuses every other with ConfigurationError; R291: with an
accepted one the clock is on and no register is written.  That every step in a refused configuration, of which R264 says that it accepts
no command, is the fault `configurationError` is the model's choice (notes/assumptions/19.md). -/
def Obligations.AnInvalidConfigurationIsRefused : Prop :=
  ∀ (p : Config.Params) (s : State),
    (p.valid = true ↔ (∃ a, p.baseAddr = some a) ∧ (∃ h, p.platMaxHz = some h) ∧ p.pinListOk = true ∧ 2 ≤ p.baseHz ∧ 1 ≤ p.minHz ∧
      p.minHz ≤ p.maxHz ∧ Config.flog2 p.baseHz - Config.flog2 p.minHz ≤ 15 ∧ 2 * p.maxHz < 2 ^ 32 ∧ 1 ≤ p.numCs ∧ p.numCs ≤ 4) ∧
    (p.valid = false → initialise p s = .fault .configurationError) ∧
    (p.valid = true → initialise p s = .next { s with cfg := p, clkOn := true }) ∧
    (s.cfg.valid = false → step s = .fault .configurationError)

/-- R290, R295: an idle engine whose host has no command waits; only the shifter may act, and the moment of the step passes (the
model's own counter, notes/assumptions/21.md). -/
def Obligations.AnIdleEngineWaits : Prop :=
  ∀ s s1 : State, s.cfg.valid = true → s.e.upc = .idle → s.port = [] → shifterTurn s.nextMoment = .next s1 → step s = .next s1

/-- R292, R277: while the clock is off no access has a step, every command that would make one is stuck, and the shifter makes no
progress. -/
def Obligations.NoAccessWhileTheClockIsOff : Prop :=
  ∀ s : State, s.clkOn = false →
    (∀ addr width v, memRead addr width s = .fault .clockOff ∧ memWrite addr width v s = .fault .clockOff) ∧
    shifterTurn s = .next s ∧
    (s.e.upc = .idle →
      exec .claim s = .fault .clockOff ∧ exec .release s = .fault .clockOff ∧ (∀ hz, exec (.setSpeed hz) s = .fault .clockOff) ∧
      (∀ cpol cpha, exec (.setMode cpol cpha) s = .fault .clockOff) ∧
      (∀ b e tx rx cs bitlen, bitlen % 8 = 0 → bufferSuffices tx s.txBuf (bitlen / 8) = true →
        bufferSuffices rx s.rxBuf (bitlen / 8) = true → exec (.transfer b e tx rx cs bitlen) s = .fault .clockOff))

/-- Every step keeps the configuration (R9), the clock premise (R34) and the registers no rule of the core accesses (R51). -/
def Obligations.StepKeepsConfigurationAndUnusedRegisters : Prop :=
  ∀ s t : State, step s = .next t → t.cfg = s.cfg ∧ t.clkOn = s.clkOn ∧ sameOpaque s.blk t.blk

/-- Every step keeps the invariant of the machine: the canonical form of memory, the FIFO depths (R52), the register ranges (R60), and
the positions' own facts (`Inv` of Safety.lean). -/
def Obligations.StepKeepsInv : Prop :=
  ∀ s t : State, Inv s → step s = .next t → Inv t

/-- The reset state meets the invariant. -/
def Obligations.ResetMeetsInv : Prop := Inv State.reset

/-- R81, R84, R277: with the clock on, a step of a state that meets the invariant never faults and makes no access the bus refuses; it
goes on, or is refused for a short buffer at the port, or for a burst whose counts differ (R205, at the
shifter's turn: the model's choice, notes/assumptions/12.md). -/
def Obligations.NoStepLeavesTheBuffersOrTheBus : Prop :=
  ∀ s : State, Inv s → s.cfg.valid = true → s.clkOn = true →
    (∃ t, step s = .next t) ∨ step s = .refused .bufferTooShort ∨ step s = .refused .burstCountMismatch

/-- R260, R265, R269: every command the engine accepts with the clock on ends with the engine IDLE and one result: OK, or AlignmentError
or TimeoutError for a TRANSFER alone; or the model refuses it, a TRANSFER for a short buffer (R81), any for a burst in flight whose
counts differ (R205, at the shifter's turn: the model's choice, notes/assumptions/12.md). -/
def Obligations.EveryCommandEndsWithOneOfItsResults : Prop :=
  ∀ (i : Instr) (s : State), Ready s →
    (∃ t r, exec i s = .next t ∧ t.e.upc = .idle ∧ lastResult t.history = some r ∧
      (r = .ok ∨ (opcodeOf i = 5#4 ∧ (r = .alignmentError ∨ r = .timeoutError)))) ∨
    (exec i s = .refused .bufferTooShort ∧ opcodeOf i = 5#4) ∨ exec i s = .refused .burstCountMismatch

/-- R260: the result word of every result: its code in bits 7:0, bits 31:8 zero. -/
def Obligations.ResultWords : Prop :=
  Result.ok.word = 0#32 ∧ Result.alignmentError.word = 1#32 ∧ Result.timeoutError.word = 2#32 ∧ Result.illegalCommand.word = 3#32 ∧
  Result.configurationError.word = 4#32 ∧ ∀ r : Result, r.word.extractLsb' 8 24 = 0#24

/-- R70, R290: what reset leaves: no burst in flight, both FIFOs empty, FSTA reading 0, the engine IDLE, the FIFO-reset bits and bits
31:24 of BC and TC reading 0; and with no command presented the machine waits (but for the moment, the model's own counter,
notes/assumptions/21.md). -/
def Obligations.ResetLeavesNoBurstAndEmptyFifos : Prop :=
  busy State.reset.blk = false ∧ (ctlRead State.reset.blk).getLsbD 8 = false ∧ (ctlRead State.reset.blk).getLsbD 9 = false ∧
  State.reset.blk.txFifo = [] ∧ State.reset.blk.rxFifo = [] ∧ fstaRead State.reset.blk = 0#32 ∧ State.reset.e.upc = .idle ∧
  (∀ j, 24 ≤ j → (State.reset.blk.bc.setWidth 32 : Word).getLsbD j = false ∧ (State.reset.blk.tc.setWidth 32 : Word).getLsbD j = false) ∧
  step State.reset = .next State.reset.nextMoment

/-- R34, R70, R290: what the reset input leaves, in whatever state it falls: no burst in flight, both FIFOs empty, FSTA reading 0, the
engine IDLE, the FIFO-reset bits and bits 31:24 of BC and TC reading 0; outside the block, nothing moves: the configuration, the clock
premise and the commands to come.  That the lent buffers stay as they stand and that an interrupted command gives no result is the
model's choice (notes/assumptions/32.md). -/
def Obligations.AHardwareResetLeavesNoBurstAndEmptyFifos : Prop :=
  ∀ s : State,
    busy (hardwareReset s).blk = false ∧ (ctlRead (hardwareReset s).blk).getLsbD 8 = false ∧
    (ctlRead (hardwareReset s).blk).getLsbD 9 = false ∧ (hardwareReset s).blk.txFifo = [] ∧ (hardwareReset s).blk.rxFifo = [] ∧
    fstaRead (hardwareReset s).blk = 0#32 ∧ (hardwareReset s).e.upc = .idle ∧
    (∀ j, 24 ≤ j → ((hardwareReset s).blk.bc.setWidth 32 : Word).getLsbD j = false ∧
      ((hardwareReset s).blk.tc.setWidth 32 : Word).getLsbD j = false) ∧
    (hardwareReset s).cfg = s.cfg ∧ (hardwareReset s).clkOn = s.clkOn ∧ (hardwareReset s).port = s.port ∧
    (hardwareReset s).txBuf = s.txBuf ∧ (hardwareReset s).rxBuf = s.rxBuf ∧ (hardwareReset s).history = s.history ∧
    (Inv s → Inv (hardwareReset s)) ∧
    (s.cfg.valid = true → s.port = [] → step (hardwareReset s) = .next (hardwareReset s).nextMoment)

/-! ### CLAIM, RELEASE, SET_MODE, SET_SPEED -/

/-- R250: CLAIM sets EN, MASTER, CS_MANUAL, CSPOL_LOW and DHB, writes every other field back as read, and returns OK; for every
state that accepts it, also with a burst of agreeing counts in flight.  With none in flight its accesses are one read of CTL and one write. -/
def Obligations.ClaimSetsEnableMasterAndModeBits : Prop :=
  ∀ s : State, Ready s → CountsAgree s →
    ∃ t, exec .claim s = .next t ∧ lastResult t.history = some .ok ∧
      CtlChanged s t (fun j => if j = 0 ∨ j = 1 ∨ j = 4 ∨ j = 15 ∨ j = 16 then some true else none) ∧
      t.blk.cctl = s.blk.cctl ∧ RmwFrame s t { s.e with cmd := encode .claim } ∧
      (Quiet s → t.history =
        [.command 0x1#64 .ok,
         .access 0x08 4 .write (ctlRead s.blk ||| maskEN ||| maskMASTER ||| maskCS_MANUAL ||| maskCSPOL_LOW ||| maskDHB),
         .access 0x08 4 .read (ctlRead s.blk)] ++ s.history)

/-- R251: RELEASE clears EN, writes every other field back as read, and returns OK; with no burst in flight its accesses are one read
of CTL and one write. -/
def Obligations.ReleaseClearsEnableOnly : Prop :=
  ∀ s : State, Ready s → CountsAgree s →
    ∃ t, exec .release s = .next t ∧ lastResult t.history = some .ok ∧
      CtlChanged s t (fun j => if j = 0 then some false else none) ∧
      t.blk.cctl = s.blk.cctl ∧ RmwFrame s t { s.e with cmd := encode .release } ∧
      (Quiet s → t.history =
        [.command 0x2#64 .ok, .access 0x08 4 .write (ctlRead s.blk &&& ~~~maskEN), .access 0x08 4 .read (ctlRead s.blk)] ++ s.history)

/-- R240: SET_MODE sets CTL.CPOL and CTL.CPHA to its operands and records them, writes every other field back as read, and
returns OK; with no burst in flight its accesses are one read of CTL and one write. -/
def Obligations.SetModeWritesPolarityAndPhase : Prop :=
  ∀ (cpol cpha : Bool) (s : State), Ready s → CountsAgree s →
    ∃ t, exec (.setMode cpol cpha) s = .next t ∧ lastResult t.history = some .ok ∧
      CtlChanged s t (fun j => if j = 2 then some cpha else if j = 3 then some cpol else none) ∧
      t.blk.cctl = s.blk.cctl ∧
      RmwFrame s t { s.e with cmd := encode (.setMode cpol cpha), curCpol := cpol, curCpha := cpha } ∧
      (Quiet s → t.history =
        [.command (encode (.setMode cpol cpha)) .ok,
         .access 0x08 4 .write ((ctlRead s.blk &&& ~~~(maskCPOL ||| maskCPHA)) ||| (if cpol then maskCPOL else 0#32) |||
           (if cpha then maskCPHA else 0#32)),
         .access 0x08 4 .read (ctlRead s.blk)] ++ s.history)

/-- R147: SET_SPEED clamps its rate, writes DRS and the divider field of the scheme DIVCALC gives, keeps the other divider field and
CCTL's other bits, records the clamped rate, writes no other register, and returns OK; with no burst in flight its accesses are one
read of CCTL and one write. -/
def Obligations.SetSpeedWritesDividerAndRecordsClampedRate : Prop :=
  ∀ (hz : Nat) (s : State), Ready s → CountsAgree s → s.cfg.valid = true → hz < 2 ^ 32 →
    ∃ t, exec (.setSpeed hz) s = .next t ∧ lastResult t.history = some .ok ∧
      CtlChanged s t (fun _ => none) ∧
      t.blk.cctl &&& maskCctlOther = s.blk.cctl &&& maskCctlOther ∧
      (let fc := min (max hz s.cfg.minHz) s.cfg.maxHz
       let n := s.cfg.baseHz / (2 * fc)
       t.e.curFreq.toNat = fc ∧
       (n ≤ 256 → cctlDRS t.blk.cctl = true ∧ (cctlCDR2 t.blk.cctl).toNat = n - 1 ∧ cctlCDR1 t.blk.cctl = cctlCDR1 s.blk.cctl) ∧
       (256 < n → cctlDRS t.blk.cctl = false ∧ (cctlCDR1 t.blk.cctl).toNat = Config.flog2 s.cfg.baseHz - Config.flog2 fc ∧
         cctlCDR2 t.blk.cctl = cctlCDR2 s.blk.cctl)) ∧
      RmwFrame s t { s.e with cmd := encode (.setSpeed hz), hz := t.e.hz, curFreq := t.e.hz } ∧
      (Quiet s → t.history =
        [.command (encode (.setSpeed hz)) .ok, .access 0x1C 4 .write t.blk.cctl, .access 0x1C 4 .read s.blk.cctl] ++ s.history)

/-- R242: a second SET_MODE with the same operands leaves every register as the first left it, no burst being in flight. -/
def Obligations.SetModeIsIdempotent : Prop :=
  ∀ (cpol cpha : Bool) (s : State), Ready s → Quiet s →
    ∃ t u, exec (.setMode cpol cpha) s = .next t ∧ exec (.setMode cpol cpha) t = .next u ∧ u.blk = t.blk ∧
      u.e.curCpol = t.e.curCpol ∧ u.e.curCpha = t.e.curCpha

/-- R149: a second SET_SPEED with the same rate leaves every register as the first left it, and SET_SPEED and SET_MODE commute; no burst
being in flight. -/
def Obligations.SetSpeedIsIdempotentAndCommutesWithSetMode : Prop :=
  ∀ (hz : Nat) (cpol cpha : Bool) (s : State), Ready s → Quiet s →
    (∃ t u, exec (.setSpeed hz) s = .next t ∧ exec (.setSpeed hz) t = .next u ∧ u.blk = t.blk ∧ u.e.curFreq = t.e.curFreq) ∧
    (∃ t u t' u', exec (.setSpeed hz) s = .next t ∧ exec (.setMode cpol cpha) t = .next u ∧
      exec (.setMode cpol cpha) s = .next t' ∧ exec (.setSpeed hz) t' = .next u' ∧
      u.blk = u'.blk ∧ u.e.curFreq = u'.e.curFreq ∧ u.e.curCpol = u'.e.curCpol ∧ u.e.curCpha = u'.e.curCpha)

/-- R252: after RELEASE every field of CTL but EN and all of CCTL keep their values, and a CLAIM then restores a claimed controller. -/
def Obligations.AClaimAfterReleaseRestoresTheController : Prop :=
  ∀ s : State, Ready s → Quiet s →
    ctlEN s.blk.ctl = true → ctlMASTER s.blk.ctl = true → ctlCSPOL_LOW s.blk.ctl = true → ctlDHB s.blk.ctl = true →
    ctlCS_MANUAL s.blk.ctl = true →
    ∃ t u, exec .release s = .next t ∧ CtlChanged s t (fun j => if j = 0 then some false else none) ∧ t.blk.cctl = s.blk.cctl ∧
      exec .claim t = .next u ∧ ctlRead u.blk = ctlRead s.blk ∧ u.blk.cctl = s.blk.cctl

/-! ### The divisor calculator -/

/-- R142, R143: the scheme DIVCALC chooses, its divider, and that the divider fits its field. -/
def Obligations.DivcalcChoosesASchemeWhoseDividerFits : Prop :=
  ∀ (p : Config.Params) (hz : Nat), p.valid = true →
    let fc := min (max hz p.minHz) p.maxHz
    let n := p.baseHz / (2 * fc)
    (n ≤ 256 → divcalc p hz = (.a, n - 1) ∧ n - 1 ≤ 255 ∧ (n = 0 ↔ p.baseHz < 2 * fc)) ∧
    (256 < n → divcalc p hz = (.b, Config.flog2 p.baseHz - Config.flog2 fc) ∧ 9 ≤ Config.flog2 p.baseHz - Config.flog2 fc ∧
      Config.flog2 p.baseHz - Config.flog2 fc ≤ 15)

/-- R145: the bounds of the rate (R56) that the value written for a request programs, whatever CCTL held. -/
def Obligations.AchievedRateBounds : Prop :=
  ∀ (p : Config.Params) (hz : Nat) (v : Word), p.valid = true →
    let fc := min (max hz p.minHz) p.maxHz
    let n := p.baseHz / (2 * fc)
    let r := clockRate p (cctlValue v (divcalc p hz))
    (1 ≤ n → n ≤ 256 → r = (p.baseHz : Rat) / (2 * n) ∧ (fc : Rat) ≤ r ∧ r < 2 * fc ∧ (r = fc ↔ 2 * n * fc = p.baseHz)) ∧
    (n = 0 → r = (p.baseHz : Rat) / 2 ∧ r < fc ∧ (p.maxHz ≤ p.baseHz → (fc : Rat) / 2 ≤ r)) ∧
    (256 < n → (fc : Rat) / 4 < r ∧ r < fc)

/-- R146: a request below the floor gives the result of the floor, one above the maximum that of the maximum. -/
def Obligations.RequestsOutsideTheRangeAreClamped : Prop :=
  ∀ (p : Config.Params) (hz : Nat), p.valid = true →
    (hz < p.minHz → divcalc p hz = divcalc p p.minHz) ∧ (p.maxHz < hz → divcalc p hz = divcalc p p.maxHz)

/-! ### Chip select -/

/-- R175: a line is asserted exactly when its level is the active one (0 where CSPOL_LOW is 1, else 1).  In manual mode the line of
CTL.CS is at CTL.CS_LEVEL and every other at the inactive level (R174); with CSPOL_LOW = 1 a line is asserted exactly when it is the line
of CTL.CS and CTL.CS_LEVEL is 0, with CSPOL_LOW = 0 when CTL.CS_LEVEL is 1; at most one line is asserted; an index without a line
asserts none (R172). -/
def Obligations.TheAssertedLineInManualMode : Prop :=
  ∀ (s : State) (i : Nat),
    (csAsserted s i = true ↔ csLine s i = some (if ctlCSPOL_LOW s.blk.ctl then false else true)) ∧
    (ctlCS_MANUAL s.blk.ctl = true →
      csLine s i = (if i < s.cfg.numCs then
        some (if i = (ctlCS s.blk.ctl).toNat then ctlCS_LEVEL s.blk.ctl else ctlCSPOL_LOW s.blk.ctl) else none) ∧
      (ctlCSPOL_LOW s.blk.ctl = true →
        (csAsserted s i = true ↔ i < s.cfg.numCs ∧ i = (ctlCS s.blk.ctl).toNat ∧ ctlCS_LEVEL s.blk.ctl = false)) ∧
      (ctlCSPOL_LOW s.blk.ctl = false →
        (csAsserted s i = true ↔ i < s.cfg.numCs ∧ i = (ctlCS s.blk.ctl).toNat ∧ ctlCS_LEVEL s.blk.ctl = true)) ∧
      (∀ k, csAsserted s i = true → csAsserted s k = true → i = k) ∧
      (s.cfg.numCs ≤ (ctlCS s.blk.ctl).toNat → csAsserted s i = false))

/-- R176: with CS_MANUAL = 0 the level of every line there is, is the free value of the line and the moment; and every step, in whatever
mode, ends at a later moment than it began, so that no level is kept from one step to the next.  The form of the draw is the model's
choice (notes/assumptions/21.md). -/
def Obligations.AutomaticLinesAreDrawnAnewAtEveryStep : Prop :=
  ∀ s : State,
    (ctlCS_MANUAL s.blk.ctl = false →
      ∀ i, csLine s i = if i < s.cfg.numCs then some (Config.freeLine s.env.now i) else none) ∧
    ∀ t, step s = .next t → s.env.now < t.env.now

/-- R170, R171, R199, R202, R300: the write half of SETCS at `T_BEG_W`, `T_TO_W` and `T_END_W`, from a value read that holds no FIFO-reset
bit: CTL.CS is the index and CTL.CS_LEVEL the level, XCH is set where the value read had it, every other field is as read, no FIFO
changes; and the command goes on, times out, or ends OK. -/
def Obligations.SetcsWritesIndexAndLevelOnly : Prop :=
  ∀ s : State, s.clkOn = true → s.e.v.getLsbD 8 = false → s.e.v.getLsbD 9 = false →
    (s.e.upc = .tBegW ∨ s.e.upc = .tToW ∨ s.e.upc = .tEndW) →
    ∃ t, engineStep s = .next t ∧
      (∀ j, j < 32 → j ≠ 10 →
        (ctlRead t.blk).getLsbD j = (csBits s.e.cs (s.e.upc == .tBegW) j).getD (s.e.v.getLsbD j)) ∧
      busy t.blk = (ctlXCH s.e.v || busy s.blk) ∧
      t.blk = { s.blk with ctl := t.blk.ctl } ∧
      (s.e.upc = .tBegW → t.e = { s.e with upc := .tRstR }) ∧
      (s.e.upc = .tToW → t.e = { s.e with upc := .idle } ∧ lastResult t.history = some .timeoutError) ∧
      (s.e.upc = .tEndW → t.e = { s.e with upc := .idle } ∧ lastResult t.history = some .ok)

/-- R177: CLAIM establishes manual, active-low chip select. -/
def Obligations.ClaimEstablishesManualActiveLow : Prop :=
  ∀ s : State, Ready s → CountsAgree s → ∃ t, exec .claim s = .next t ∧ ManualActiveLow t

/-- R177: no step of any command clears CS_MANUAL or CSPOL_LOW. -/
def Obligations.StepKeepsManualActiveLow : Prop :=
  ∀ s t : State, ManualActiveLow s → step s = .next t → ManualActiveLow t

/-- R177, R121: after the first CLAIM, `cs_assert c` asserts line `c` where there is such a line and deasserts every other, and
`cs_deassert c` deasserts every line. -/
def Obligations.CsAssertAndDeassertDriveTheLines : Prop :=
  ∀ (c : BitVec 2) (s : State), Ready s → Quiet s → ManualActiveLow s →
    (∃ t, exec (pseudoCsAssert c) s = .next t ∧ lastResult t.history = some .ok ∧
      ∀ i, csAsserted t i = true ↔ i < s.cfg.numCs ∧ i = c.toNat) ∧
    (∃ t, exec (pseudoCsDeassert c) s = .next t ∧ lastResult t.history = some .ok ∧ ∀ i, csAsserted t i = false)

/-- R302: in manual mode, of either polarity, RELEASE, SET_MODE and SET_SPEED leave every chip-select line at its level, and so does
CLAIM where the polarity is already active-low. -/
def Obligations.OtherCommandsDoNotDisturbChipSelect : Prop :=
  ∀ (s : State) (i : Instr), Ready s → CountsAgree s → ctlCS_MANUAL s.blk.ctl = true →
    (i = .claim → ctlCSPOL_LOW s.blk.ctl = true) → opcodeOf i ≠ 5#4 →
    ∃ t, exec i s = .next t ∧ ∀ k, csLine t k = csLine s k

/-- R41: every step keeps the bits of CTL and CCTL that no field names. -/
def Obligations.StepKeepsTheOtherBits : Prop :=
  ∀ (x y : Word) (s t : State), OtherBits x y s → step s = .next t → OtherBits x y t

/-! ### The register block -/

/-- R43, R44, R45: a write of CTL sets the fields that are storage to the written bits; bits 8 and 9 empty the FIFOs and read 0; a 1 in
bit 10 sets XCH and starts a burst exactly where XCH was 0; a 0 in bit 10 leaves XCH as it was. -/
def Obligations.AWriteOfCtl : Prop :=
  ∀ (s : State) (v : Word), s.clkOn = true →
    ∃ t, regWrite 0x08 v s = .next t ∧
      (∀ j, j < 32 → j ≠ 8 → j ≠ 9 → j ≠ 10 → (ctlRead t.blk).getLsbD j = v.getLsbD j) ∧
      (ctlRead t.blk).getLsbD 8 = false ∧ (ctlRead t.blk).getLsbD 9 = false ∧
      (ctlRead t.blk).getLsbD 10 = (v.getLsbD 10 || busy s.blk) ∧
      t.blk = { s.blk with ctl := t.blk.ctl, txFifo := if v.getLsbD 8 then [] else s.blk.txFifo,
                           rxFifo := if v.getLsbD 9 then [] else s.blk.rxFifo } ∧
      t = { s with blk := t.blk, env := t.env, history := .access 0x08 4 .write v :: s.history } ∧
      (v.getLsbD 10 = false ∨ busy s.blk = true → t.env = { s.env with now := s.env.now + 1 })

/-- R47, R48: BC and TC keep bits 23:0 of a write and read 0 above; FSTA reads the two FIFO counts and a write of it is ignored. -/
def Obligations.CountAndStatusRegisters : Prop :=
  ∀ (s : State) (v : Word), s.clkOn = true → s.blk.txFifo.length ≤ 64 → s.blk.rxFifo.length ≤ 64 →
    (∃ t u, regWrite 0x20 v s = .next t ∧ t.blk = { s.blk with bc := v.extractLsb' 0 24 } ∧
      regRead 0x20 t = .next (v &&& 0x00FFFFFF#32, u) ∧ u.blk = t.blk) ∧
    (∃ t u, regWrite 0x24 v s = .next t ∧ t.blk = { s.blk with tc := v.extractLsb' 0 24 } ∧
      regRead 0x24 t = .next (v &&& 0x00FFFFFF#32, u) ∧ u.blk = t.blk) ∧
    (∃ x t, regRead 0x28 s = .next (x, t) ∧ t.blk = s.blk ∧ x.toNat = s.blk.rxFifo.length + 65536 * s.blk.txFifo.length) ∧
    (∃ t, regWrite 0x28 v s = .next t ∧ t.blk = s.blk)

/-- R49, R50: a byte written to TXD goes to the tail of a TX FIFO with room and is lost on a full one; a read of RXD takes the head of
the RX FIFO, and removes nothing from an empty one; a read of TXD and a write of RXD change nothing. -/
def Obligations.DataPorts : Prop :=
  ∀ (s : State) (b : Byte), s.clkOn = true →
    (∃ t, portWrite 0x04 b s = .next t ∧
      t.blk = { s.blk with txFifo := if s.blk.txFifo.length < 64 then s.blk.txFifo ++ [b] else s.blk.txFifo }) ∧
    (∀ x xs, s.blk.rxFifo = x :: xs → ∃ t, portRead 0x00 s = .next (x, t) ∧ t.blk = { s.blk with rxFifo := xs }) ∧
    (s.blk.rxFifo = [] → ∃ x t, portRead 0x00 s = .next (x, t) ∧ t.blk = s.blk) ∧
    (∃ x t, portRead 0x04 s = .next (x, t) ∧ t.blk = s.blk) ∧
    (∃ t, portWrite 0x00 b s = .next t ∧ t.blk = s.blk)

/-- R84: an access at an offset that is no multiple of its width, a 4-byte access to a data port, a 1-byte access to another register,
and an access outside the window are refused. -/
def Obligations.TheBusRefusesEveryOtherAccess : Prop :=
  ∀ (s : State) (addr width : Nat) (v : Word), s.clkOn = true →
    (addr < s.cfg.base ∨ s.cfg.base + 0x2C ≤ addr ∨ (width ≠ 4 ∧ width ≠ 1) ∨ (addr - s.cfg.base) % width ≠ 0 ∨
      (width = 4 ∧ (addr = s.cfg.base ∨ addr = s.cfg.base + 0x04)) ∨
      (width = 1 ∧ addr ≠ s.cfg.base ∧ addr ≠ s.cfg.base + 0x04)) →
    memRead addr width s = .refused .busAccess ∧ memWrite addr width v s = .refused .busAccess

/-- A store to a byte memory is read back at its address, leaves every other address as it was, and keeps the canonical form (the model's
own form of a buffer's bytes, notes/assumptions/15.md). -/
def Obligations.AStoreChangesOneByte : Prop :=
  ∀ (m : Memory) (a : Nat) (b : Byte), m.wf = true →
    (m.write a b).read a = b ∧ (∀ a', a' ≠ a → (m.write a b).read a' = m.read a') ∧ (m.write a b).wf = true

/-- Memories in canonical form (the model's own, notes/assumptions/15.md) that read alike at every address are equal. -/
def Obligations.CanonicalMemoriesThatReadAlikeAreEqual : Prop :=
  ∀ m m' : Memory, m.wf = true → m'.wf = true → (∀ a, m.read a = m'.read a) → m = m'

/-! ### The shifter and the poll -/

/-- R205, R210: without XCH, EN, MASTER and the clock the shifter makes no progress; with them and BC = TC its turn passes or performs
the burst; with them and BC ≠ TC it passes or is refused, and no burst is performed; a turn never faults, and is refused for the counts
alone.  The refusal at the shifter's turn is the model's choice (notes/assumptions/12.md), and so is the countdown of turns, which is
over at 0, and in mode `fair` also where none was drawn (notes/assumptions/3.md). -/
def Obligations.WhenTheShifterHasAStep : Prop :=
  ∀ s : State,
    (busy s.blk = false ∨ ctlEN s.blk.ctl = false ∨ ctlMASTER s.blk.ctl = false ∨ s.clkOn = false → shifterTurn s = .next s) ∧
    (busy s.blk = true → ctlEN s.blk.ctl = true → ctlMASTER s.blk.ctl = true → s.clkOn = true →
      (s.env.burstDelay = some 0 ∨ (s.cfg.timeoutMode = .fair ∧ s.env.burstDelay = none)) →
      (s.blk.bc = s.blk.tc → shifterTurn s = .next (burst s)) ∧
      (s.blk.bc ≠ s.blk.tc → shifterTurn s = .refused .burstCountMismatch)) ∧
    (∀ t, shifterTurn s = .next t →
      (t = burst s ∧ s.blk.bc = s.blk.tc) ∨ t = s ∨
        ∃ n, s.env.burstDelay = some (n + 1) ∧ t = { s with env := { s.env with burstDelay := some n } }) ∧
    (∀ r, shifterTurn s ≠ .fault r) ∧
    (∀ r, shifterTurn s = .refused r → r = .burstCountMismatch ∧ s.blk.bc ≠ s.blk.tc)

/-- R206, R209: a burst that finds BC bytes in the TX FIFO and room for BC in the RX FIFO sends the first in order, receives as many,
stores them in order, records both, and clears XCH; no other field of CTL and no other register changes. -/
def Obligations.ABurstMovesItsBytesAndClearsXch : Prop :=
  ∀ s : State, s.blk.bc.toNat ≤ s.blk.txFifo.length → s.blk.rxFifo.length + s.blk.bc.toNat ≤ 64 →
    ∃ ins : List Byte, ins.length = s.blk.bc.toNat ∧
      (s.blk.bc.toNat ≤ s.env.slaveIn.length → ins = s.env.slaveIn.take s.blk.bc.toNat) ∧
      busy (burst s).blk = false ∧ (∀ j, j ≠ 10 → (burst s).blk.ctl.getLsbD j = s.blk.ctl.getLsbD j) ∧
      burst s = { s with
        blk := { s.blk with ctl := (burst s).blk.ctl, txFifo := s.blk.txFifo.drop s.blk.bc.toNat, rxFifo := s.blk.rxFifo ++ ins },
        env := (burst s).env,
        history := .burst (s.blk.txFifo.take s.blk.bc.toNat) ins :: s.history }

/-- R208, R206, R209: whatever the FIFOs hold, a burst of BC byte times sends and receives BC bytes, leaves the TX FIFO without its first
BC bytes, fills the RX FIFO to at most its depth, losing the bytes above it, records both, and clears XCH; no other field of CTL, no
other register and nothing outside the block changes, but for the environment's draws. -/
def Obligations.ABurstUnderflowsAndOverflows : Prop :=
  ∀ s : State, s.blk.rxFifo.length ≤ 64 →
    ∃ outs ins : List Byte, outs.length = s.blk.bc.toNat ∧ ins.length = s.blk.bc.toNat ∧
      outs.take s.blk.txFifo.length = s.blk.txFifo.take s.blk.bc.toNat ∧
      (s.blk.bc.toNat ≤ s.env.slaveIn.length → ins = s.env.slaveIn.take s.blk.bc.toNat) ∧
      busy (burst s).blk = false ∧ (∀ j, j ≠ 10 → (burst s).blk.ctl.getLsbD j = s.blk.ctl.getLsbD j) ∧
      burst s = { s with
        blk := { s.blk with ctl := (burst s).blk.ctl, txFifo := s.blk.txFifo.drop s.blk.bc.toNat,
                            rxFifo := s.blk.rxFifo ++ ins.take (64 - s.blk.rxFifo.length) },
        env := (burst s).env,
        history := .burst outs ins :: s.history }

/-- R198, R213, R214: a poll reads CTL; XCH = 0 ends it with success; XCH = 1 consults the deadline, which in mode `fair` expires only
where the shifter is not enabled. -/
def Obligations.APollReadsBeforeItConsultsTheDeadline : Prop :=
  ∀ s : State, s.clkOn = true → s.e.upc = .tPoll →
    (busy s.blk = false → ∃ t, engineStep s = .next t ∧ t.e = { s.e with v := ctlRead s.blk, k := 0, upc := .tDrain } ∧ t.blk = s.blk ∧
      t.env.pollsLeft = s.env.pollsLeft) ∧
    (busy s.blk = true → ∃ t, engineStep s = .next t ∧ t.blk = s.blk ∧
      t.e = { s.e with v := ctlRead s.blk, upc := if deadlineExpired s then .tToR else .tPoll }) ∧
    (s.cfg.timeoutMode = .fair → deadlineExpired s = true →
      ¬ (busy s.blk = true ∧ ctlEN s.blk.ctl = true ∧ ctlMASTER s.blk.ctl = true ∧ s.blk.bc = s.blk.tc))

/-- R300: a CTL write that holds XCH = 1 from its read, after the shifter has completed the burst, starts a new burst with the counts
as they are; whichever of the writes that put bit 10 back as read it is. -/
def Obligations.AStaleReadRestartsTheBurst : Prop :=
  ∀ s : State, s.clkOn = true → Quiet s → ctlXCH s.e.v = true → holdsCtl s.e.upc = true →
    ∃ t, engineStep s = .next t ∧ busy t.blk = true ∧ t.blk.bc = s.blk.bc ∧ t.blk.tc = s.blk.tc

/-- R44, R211: no engine step clears XCH; the shifter alone does. -/
def Obligations.NoEngineStepClearsXch : Prop :=
  ∀ s t : State, busy s.blk = true → engineStep s = .next t → busy t.blk = true

/-! ### TRANSFER -/

/-- R192: a TRANSFER whose length is not a whole number of bytes ends with AlignmentError before any access and changes no state.  The
model's choice is that it does so whatever buffers were lent (R81 gives no order; notes/assumptions/11.md), that the word is not latched
into `e.cmd` (10.md), and that the history keeps it with its result (27.md), at a moment of its own. -/
def Obligations.AMisalignedTransferChangesNothing : Prop :=
  ∀ (b e tx rx : Bool) (cs : BitVec 2) (bitlen : Nat) (s : State), s.e.upc = .idle → bitlen % 8 ≠ 0 →
    exec (.transfer b e tx rx cs bitlen) s =
      .next { s with env := { s.env with now := s.env.now + 1 },
                     history := .command (encode (.transfer b e tx rx cs bitlen)) .alignmentError :: s.history }

/-- R81: a TRANSFER with a buffer that is absent or shorter than its length is refused at the command port, where its length
is a whole number of bytes; otherwise AlignmentError comes first (the model's choice, notes/assumptions/11.md). -/
def Obligations.AShortBufferIsRefused : Prop :=
  ∀ (b e tx rx : Bool) (cs : BitVec 2) (bitlen : Nat) (s : State), s.e.upc = .idle → bitlen % 8 = 0 →
    ((tx = true ∧ ∀ x, s.txBuf = some x → x.len < bitlen / 8) ∨ (rx = true ∧ ∀ x, s.rxBuf = some x → x.len < bitlen / 8)) →
    exec (.transfer b e tx rx cs bitlen) s = .refused .bufferTooShort

/-- R222: a TRANSFER of no bits asserts its line with BEGIN, empties both FIFOs, deasserts with END, in this order, performs no burst and
ends OK; no burst being in flight. -/
def Obligations.AZeroLengthTransferResetsTheFifos : Prop :=
  ∀ (b e tx rx : Bool) (cs : BitVec 2) (s : State), Accepts s tx rx 0 → Quiet s →
    ∃ t, exec (.transfer b e tx rx cs 0) s = .next t ∧ lastResult t.history = some .ok ∧
      t.blk.txFifo = [] ∧ t.blk.rxFifo = [] ∧ Quiet t ∧ t.blk.bc = s.blk.bc ∧ t.blk.tc = s.blk.tc ∧ t.rxBuf = s.rxBuf ∧
      CtlChanged s t (transferBits cs b e) ∧
      TransferFrame s t (encode (.transfer b e tx rx cs 0)) b e tx rx cs ∧
      ∃ ev w1 w2 w3, t.history = ev ++ s.history ∧ burstSizes ev = [] ∧
        ctlWrites ev = (if b then [w1] else []) ++ [w2] ++ (if e then [w3] else []) ∧
        csState w1 = (cs, false) ∧ w2.getLsbD 8 = true ∧ w2.getLsbD 9 = true ∧ csState w3 = (cs, true)

/-- R215: every TRANSFER accepted with no burst in flight finishes, with OK or with TimeoutError, in either TIMEOUT_MODE. -/
def Obligations.EveryTransferFinishes : Prop :=
  ∀ (b e tx rx : Bool) (cs : BitVec 2) (bitlen : Nat) (s : State), Accepts s tx rx bitlen → Quiet s →
    ∃ t, exec (.transfer b e tx rx cs bitlen) s = .next t ∧ TransferFrame s t (encode (.transfer b e tx rx cs bitlen)) b e tx rx cs ∧
      (lastResult t.history = some .ok ∨ (lastResult t.history = some .timeoutError ∧ 1 ≤ bitlen / 8))

/-- R217 and R82: a TRANSFER accepted with no burst in flight that ends OK has sent the bytes of the transmit buffer (0x00 with none) in
order, and stored the bytes received in order, as many as it sent, at the first places of the receive buffer and nowhere else; both
FIFOs are empty and no burst is in flight; CTL changes by SETCS with BEGIN and END alone. -/
def Obligations.ATransferMovesEveryByteInOrder : Prop :=
  ∀ (b e tx rx : Bool) (cs : BitVec 2) (bitlen : Nat) (s t : State), Accepts s tx rx bitlen → Quiet s →
    exec (.transfer b e tx rx cs bitlen) s = .next t → lastResult t.history = some .ok →
    ∃ ev, t.history = ev ++ s.history ∧ sentBytes ev = dataOut tx s.txBuf (bitlen / 8) ∧
      (receivedBytes ev).length = bitlen / 8 ∧ Delivered rx s t (receivedBytes ev) ∧
      (bitlen / 8 ≤ s.env.slaveIn.length →
        receivedBytes ev = s.env.slaveIn.take (bitlen / 8) ∧ t.env.slaveIn = s.env.slaveIn.drop (bitlen / 8)) ∧
      t.blk.txFifo = [] ∧ t.blk.rxFifo = [] ∧ Quiet t ∧ CtlChanged s t (transferBits cs b e) ∧
      (1 ≤ bitlen / 8 → t.blk.bc = t.blk.tc ∧ t.blk.bc.toNat = (chunkSizes (bitlen / 8)).getLastD 0)

/-- R214: in TIMEOUT_MODE `fair`, with EN and MASTER set and no burst in flight, a TRANSFER succeeds, whatever the shifter's schedule
and the deadline draw. -/
def Obligations.AFairTransferSucceeds : Prop :=
  ∀ (b e tx rx : Bool) (cs : BitVec 2) (bitlen : Nat) (s : State), Accepts s tx rx bitlen → Quiet s →
    s.cfg.timeoutMode = .fair → ctlEN s.blk.ctl = true → ctlMASTER s.blk.ctl = true →
    ∃ t, exec (.transfer b e tx rx cs bitlen) s = .next t ∧ lastResult t.history = some .ok ∧ CtlChanged s t (transferBits cs b e) ∧
      t.blk.txFifo = [] ∧ t.blk.rxFifo = [] ∧ TransferFrame s t (encode (.transfer b e tx rx cs bitlen)) b e tx rx cs ∧
      ∃ ev, t.history = ev ++ s.history ∧ sentBytes ev = dataOut tx s.txBuf (bitlen / 8) ∧ Delivered rx s t (receivedBytes ev)

/-- R221: with EN = 0 a TRANSFER of at least one byte ends with TimeoutError in either TIMEOUT_MODE, its line deasserted, its burst in
flight and no byte received.  That this holds whatever burst was in flight before is the model's choice (notes/assumptions/12.md): with a
stale burst of another size the write of BC makes BC ≠ TC, which R205 refuses at no moment it names and the model only at the turn of an
enabled shifter.  What the FIFOs hold afterwards (the burst's bytes in the one, nothing in the other) is the model's reading of R262 and
R268 (notes/assumptions/23.md): the source calls it undefined, and R262 says that a claim may assume nothing of it. -/
def Obligations.ATransferAfterReleaseTimesOut : Prop :=
  ∀ (b e tx rx : Bool) (cs : BitVec 2) (bitlen : Nat) (s : State), Accepts s tx rx bitlen → 8 ≤ bitlen → ctlEN s.blk.ctl = false →
    ∃ t, exec (.transfer b e tx rx cs bitlen) s = .next t ∧ lastResult t.history = some .timeoutError ∧
      CtlChanged s t (csBits cs false) ∧ busy t.blk = true ∧ t.rxBuf = s.rxBuf ∧ t.blk.rxFifo = [] ∧
      t.blk.txFifo = dataOut tx s.txBuf (min (bitlen / 8) 63) ∧
      TransferFrame s t (encode (.transfer b e tx rx cs bitlen)) b e tx rx cs ∧
      ∃ ev, t.history = ev ++ s.history ∧ burstSizes ev = []

/-- R220, R199: a TRANSFER accepted with no burst in flight that ends with TimeoutError in burst `j` has performed the bursts before
it, 63 bytes each, stored their bytes and nothing above them, and read the transmit bytes of burst `j` too; its line is deasserted.
Burst `j` is still in flight with its bytes in the TX FIFO, or the shifter has performed it after the last poll (R211).
What the FIFOs hold afterwards (the last clause) is the model's reading of R262 and R268 (notes/assumptions/23.md): the source calls it
undefined, and R262 says that a claim may assume nothing of it. -/
def Obligations.ATimeoutKeepsTheEarlierBursts : Prop :=
  ∀ (b e tx rx : Bool) (cs : BitVec 2) (bitlen : Nat) (s t : State), Accepts s tx rx bitlen → Quiet s →
    exec (.transfer b e tx rx cs bitlen) s = .next t → lastResult t.history = some .timeoutError →
    ∃ j ev, 63 * j < bitlen / 8 ∧ t.history = ev ++ s.history ∧
      (burstSizes ev).take j = List.replicate j 63 ∧ j ≤ (burstSizes ev).length ∧ (burstSizes ev).length ≤ j + 1 ∧
      (sentBytes ev).take (63 * j) = dataOut tx s.txBuf (63 * j) ∧ 63 * j ≤ (receivedBytes ev).length ∧
      Delivered rx s t ((receivedBytes ev).take (63 * j)) ∧
      t.e.ti = 63 * j + min (bitlen / 8 - 63 * j) 63 ∧ t.e.ri = 63 * j ∧
      t.blk.bc = t.blk.tc ∧ t.blk.bc.toNat = min (bitlen / 8 - 63 * j) 63 ∧ CtlChanged s t (csBits cs false) ∧
      ((burstSizes ev).length = j → busy t.blk = true ∧ t.blk.rxFifo = [] ∧
        dataOut tx s.txBuf (63 * j) ++ t.blk.txFifo = dataOut tx s.txBuf (63 * j + min (bitlen / 8 - 63 * j) 63))

/-- R216: a TRANSFER that ends OK, accepted with no burst in flight, performs `floor(L / 63)` bursts of 63 bytes and one of the rest, if
any. -/
def Obligations.ATransferIsCutIntoBurstsOf63 : Prop :=
  ∀ (b e tx rx : Bool) (cs : BitVec 2) (bitlen : Nat) (s t : State), Accepts s tx rx bitlen → Quiet s →
    exec (.transfer b e tx rx cs bitlen) s = .next t → lastResult t.history = some .ok →
    ∃ ev, t.history = ev ++ s.history ∧
      burstSizes ev = List.replicate (bitlen / 8 / 63) 63 ++ (if bitlen / 8 % 63 = 0 then [] else [bitlen / 8 % 63]) ∧
      (burstSizes ev).length = (bitlen / 8 + 62) / 63 ∧ (burstSizes ev).sum = bitlen / 8

/-- R218: the register writes and reads of a TRANSFER of `L` bytes in `N` bursts that ends OK; `p_j ≥ 1` polls in burst `j`, the polls
being the CTL reads between the write that starts the burst and its drain (`pollCounts` of Safety.lean); no burst being in flight at
its acceptance. -/
def Obligations.TheAccessCountsOfATransfer : Prop :=
  ∀ (b e tx rx : Bool) (cs : BitVec 2) (bitlen : Nat) (s t : State), Accepts s tx rx bitlen → Quiet s →
    exec (.transfer b e tx rx cs bitlen) s = .next t → lastResult t.history = some .ok →
    ∃ ev : List Event, t.history = ev ++ s.history ∧
      (pollCounts ev).length = (bitlen / 8 + 62) / 63 ∧ (∀ p ∈ pollCounts ev, 1 ≤ p) ∧
      writeCount ev = b.toNat + e.toNat + 1 + 3 * ((bitlen / 8 + 62) / 63) + bitlen / 8 ∧
      readCount ev = b.toNat + e.toNat + 1 + (bitlen / 8 + 62) / 63 + (pollCounts ev).sum + bitlen / 8

/-- R219, R178, R223: inside a TRANSFER that ends OK, accepted with no burst in flight, the CTL writes are one assertion with BEGIN, the
FIFO reset (bits 8 and 9 set, bit 10 clear), one start a burst (bit 10 set, bits 8 and 9 clear), none of which moves CS or CS_LEVEL, and
one deassertion with END. -/
def Obligations.ChipSelectIsNeverToggledBetweenBursts : Prop :=
  ∀ (b e tx rx : Bool) (cs : BitVec 2) (bitlen : Nat) (s t : State), Accepts s tx rx bitlen → Quiet s →
    exec (.transfer b e tx rx cs bitlen) s = .next t → lastResult t.history = some .ok →
    ∃ (ev : List Event) (w1 w2 w3 : Word) (starts : List Word), t.history = ev ++ s.history ∧
      ctlWrites ev = (if b then [w1] else []) ++ (w2 :: starts) ++ (if e then [w3] else []) ∧
      starts.length = (bitlen / 8 + 62) / 63 ∧
      csState w1 = (cs, false) ∧ csState w3 = (cs, true) ∧
      w2.getLsbD 8 = true ∧ w2.getLsbD 9 = true ∧ w2.getLsbD 10 = false ∧
      (∀ m ∈ starts, m.getLsbD 8 = false ∧ m.getLsbD 9 = false ∧ m.getLsbD 10 = true) ∧
      ∀ m ∈ w2 :: starts, csState m = if b then (cs, false) else csState s.blk.ctl
end

