-- ==== Sys2Proof/Laws/State.lean ====
section
/-! SUPPORT. One lemma per field per update of the state: what each named update changes and what it leaves as it was. -/

namespace Sys2Proof.Machine

section
variable (s : State) (ev : Event) (e : Engine) (u : Upc) (r : Result) (w : CmdWord) (v : Word) (x : Byte)

@[simp] theorem record_cfg : (s.record ev).cfg = s.cfg := rfl
@[simp] theorem record_clkOn : (s.record ev).clkOn = s.clkOn := rfl
@[simp] theorem record_blk : (s.record ev).blk = s.blk := rfl
@[simp] theorem record_e : (s.record ev).e = s.e := rfl
@[simp] theorem record_port : (s.record ev).port = s.port := rfl
@[simp] theorem record_txBuf : (s.record ev).txBuf = s.txBuf := rfl
@[simp] theorem record_rxBuf : (s.record ev).rxBuf = s.rxBuf := rfl
@[simp] theorem record_env : (s.record ev).env = { s.env with now := s.env.now + 1 } := rfl
@[simp] theorem record_history : (s.record ev).history = ev :: s.history := rfl

@[simp] theorem nextMoment_cfg : s.nextMoment.cfg = s.cfg := rfl
@[simp] theorem nextMoment_clkOn : s.nextMoment.clkOn = s.clkOn := rfl
@[simp] theorem nextMoment_blk : s.nextMoment.blk = s.blk := rfl
@[simp] theorem nextMoment_e : s.nextMoment.e = s.e := rfl
@[simp] theorem nextMoment_port : s.nextMoment.port = s.port := rfl
@[simp] theorem nextMoment_txBuf : s.nextMoment.txBuf = s.txBuf := rfl
@[simp] theorem nextMoment_rxBuf : s.nextMoment.rxBuf = s.rxBuf := rfl
@[simp] theorem nextMoment_env : s.nextMoment.env = { s.env with now := s.env.now + 1 } := rfl
@[simp] theorem nextMoment_history : s.nextMoment.history = s.history := rfl

@[simp] theorem withEngine_cfg : (s.withEngine e).cfg = s.cfg := rfl
@[simp] theorem withEngine_clkOn : (s.withEngine e).clkOn = s.clkOn := rfl
@[simp] theorem withEngine_blk : (s.withEngine e).blk = s.blk := rfl
@[simp] theorem withEngine_e : (s.withEngine e).e = e := rfl
@[simp] theorem withEngine_port : (s.withEngine e).port = s.port := rfl
@[simp] theorem withEngine_txBuf : (s.withEngine e).txBuf = s.txBuf := rfl
@[simp] theorem withEngine_rxBuf : (s.withEngine e).rxBuf = s.rxBuf := rfl
@[simp] theorem withEngine_env : (s.withEngine e).env = s.env := rfl
@[simp] theorem withEngine_history : (s.withEngine e).history = s.history := rfl

@[simp] theorem goto_cfg : (s.goto u).cfg = s.cfg := rfl
@[simp] theorem goto_clkOn : (s.goto u).clkOn = s.clkOn := rfl
@[simp] theorem goto_blk : (s.goto u).blk = s.blk := rfl
@[simp] theorem goto_e : (s.goto u).e = { s.e with upc := u } := rfl
@[simp] theorem goto_port : (s.goto u).port = s.port := rfl
@[simp] theorem goto_txBuf : (s.goto u).txBuf = s.txBuf := rfl
@[simp] theorem goto_rxBuf : (s.goto u).rxBuf = s.rxBuf := rfl
@[simp] theorem goto_env : (s.goto u).env = s.env := rfl
@[simp] theorem goto_history : (s.goto u).history = s.history := rfl

@[simp] theorem finish_cfg : (finish r s).cfg = s.cfg := rfl
@[simp] theorem finish_clkOn : (finish r s).clkOn = s.clkOn := rfl
@[simp] theorem finish_blk : (finish r s).blk = s.blk := rfl
@[simp] theorem finish_e : (finish r s).e = { s.e with upc := .idle } := rfl
@[simp] theorem finish_port : (finish r s).port = s.port := rfl
@[simp] theorem finish_txBuf : (finish r s).txBuf = s.txBuf := rfl
@[simp] theorem finish_rxBuf : (finish r s).rxBuf = s.rxBuf := rfl
@[simp] theorem finish_env : (finish r s).env = { s.env with now := s.env.now + 1 } := rfl
@[simp] theorem finish_history : (finish r s).history = .command s.e.cmd r :: s.history := rfl

@[simp] theorem rejectAtAcceptance_cfg : (rejectAtAcceptance w r s).cfg = s.cfg := rfl
@[simp] theorem rejectAtAcceptance_clkOn : (rejectAtAcceptance w r s).clkOn = s.clkOn := rfl
@[simp] theorem rejectAtAcceptance_blk : (rejectAtAcceptance w r s).blk = s.blk := rfl
@[simp] theorem rejectAtAcceptance_e : (rejectAtAcceptance w r s).e = s.e := rfl
@[simp] theorem rejectAtAcceptance_port : (rejectAtAcceptance w r s).port = s.port := rfl
@[simp] theorem rejectAtAcceptance_txBuf : (rejectAtAcceptance w r s).txBuf = s.txBuf := rfl
@[simp] theorem rejectAtAcceptance_rxBuf : (rejectAtAcceptance w r s).rxBuf = s.rxBuf := rfl
@[simp] theorem rejectAtAcceptance_env :
    (rejectAtAcceptance w r s).env = { s.env with now := s.env.now + 1 } := rfl
@[simp] theorem rejectAtAcceptance_history : (rejectAtAcceptance w r s).history = .command w r :: s.history := rfl

/-- A draw changes the environment alone. -/
theorem startBurst_eq : startBurst s = { s with env := (startBurst s).env } := by
  unfold startBurst; split <;> rfl
@[simp] theorem startBurst_cfg : (startBurst s).cfg = s.cfg := by rw [startBurst_eq]
@[simp] theorem startBurst_clkOn : (startBurst s).clkOn = s.clkOn := by rw [startBurst_eq]
@[simp] theorem startBurst_blk : (startBurst s).blk = s.blk := by rw [startBurst_eq]
@[simp] theorem startBurst_e : (startBurst s).e = s.e := by rw [startBurst_eq]
@[simp] theorem startBurst_port : (startBurst s).port = s.port := by rw [startBurst_eq]
@[simp] theorem startBurst_txBuf : (startBurst s).txBuf = s.txBuf := by rw [startBurst_eq]
@[simp] theorem startBurst_rxBuf : (startBurst s).rxBuf = s.rxBuf := by rw [startBurst_eq]
@[simp] theorem startBurst_history : (startBurst s).history = s.history := by rw [startBurst_eq]
@[simp] theorem startBurst_slaveIn : (startBurst s).env.slaveIn = s.env.slaveIn := by
  unfold startBurst; split <;> rfl
@[simp] theorem startBurst_now : (startBurst s).env.now = s.env.now := by
  unfold startBurst; split <;> rfl

theorem armDeadline_eq : armDeadline s = { s with env := (armDeadline s).env } := by
  unfold armDeadline; split <;> rfl
@[simp] theorem armDeadline_cfg : (armDeadline s).cfg = s.cfg := by rw [armDeadline_eq]
@[simp] theorem armDeadline_clkOn : (armDeadline s).clkOn = s.clkOn := by rw [armDeadline_eq]
@[simp] theorem armDeadline_blk : (armDeadline s).blk = s.blk := by rw [armDeadline_eq]
@[simp] theorem armDeadline_e : (armDeadline s).e = s.e := by rw [armDeadline_eq]
@[simp] theorem armDeadline_port : (armDeadline s).port = s.port := by rw [armDeadline_eq]
@[simp] theorem armDeadline_txBuf : (armDeadline s).txBuf = s.txBuf := by rw [armDeadline_eq]
@[simp] theorem armDeadline_rxBuf : (armDeadline s).rxBuf = s.rxBuf := by rw [armDeadline_eq]
@[simp] theorem armDeadline_history : (armDeadline s).history = s.history := by rw [armDeadline_eq]
@[simp] theorem armDeadline_slaveIn : (armDeadline s).env.slaveIn = s.env.slaveIn := by
  unfold armDeadline; split <;> rfl
@[simp] theorem armDeadline_now : (armDeadline s).env.now = s.env.now := by
  unfold armDeadline; split <;> rfl

theorem drawSlave_eq : (drawSlave s).2 = { s with env := (drawSlave s).2.env } := by
  unfold drawSlave; split <;> rfl
@[simp] theorem drawSlave_cfg : (drawSlave s).2.cfg = s.cfg := by rw [drawSlave_eq]
@[simp] theorem drawSlave_clkOn : (drawSlave s).2.clkOn = s.clkOn := by rw [drawSlave_eq]
@[simp] theorem drawSlave_blk : (drawSlave s).2.blk = s.blk := by rw [drawSlave_eq]
@[simp] theorem drawSlave_e : (drawSlave s).2.e = s.e := by rw [drawSlave_eq]
@[simp] theorem drawSlave_port : (drawSlave s).2.port = s.port := by rw [drawSlave_eq]
@[simp] theorem drawSlave_txBuf : (drawSlave s).2.txBuf = s.txBuf := by rw [drawSlave_eq]
@[simp] theorem drawSlave_rxBuf : (drawSlave s).2.rxBuf = s.rxBuf := by rw [drawSlave_eq]
@[simp] theorem drawSlave_history : (drawSlave s).2.history = s.history := by rw [drawSlave_eq]
@[simp] theorem drawSlave_now : (drawSlave s).2.env.now = s.env.now := by
  unfold drawSlave; split <;> rfl

@[simp] theorem drawByte_cfg : (drawByte s).2.cfg = s.cfg := rfl
@[simp] theorem drawByte_clkOn : (drawByte s).2.clkOn = s.clkOn := rfl
@[simp] theorem drawByte_blk : (drawByte s).2.blk = s.blk := rfl
@[simp] theorem drawByte_e : (drawByte s).2.e = s.e := rfl
@[simp] theorem drawByte_port : (drawByte s).2.port = s.port := rfl
@[simp] theorem drawByte_txBuf : (drawByte s).2.txBuf = s.txBuf := rfl
@[simp] theorem drawByte_rxBuf : (drawByte s).2.rxBuf = s.rxBuf := rfl
@[simp] theorem drawByte_history : (drawByte s).2.history = s.history := rfl
@[simp] theorem drawByte_slaveIn : (drawByte s).2.env.slaveIn = s.env.slaveIn := rfl
@[simp] theorem drawByte_now : (drawByte s).2.env.now = s.env.now := rfl

/-- A write of CTL changes the block, and the environment where it starts a burst. -/
theorem ctlWrite_eq : ctlWrite v s = { s with blk := ctlWriteBlock s.blk v, env := (ctlWrite v s).env } := by
  unfold ctlWrite
  dsimp only
  split
  · rw [startBurst_eq]
  · rfl
@[simp] theorem ctlWrite_cfg : (ctlWrite v s).cfg = s.cfg := by rw [ctlWrite_eq]
@[simp] theorem ctlWrite_clkOn : (ctlWrite v s).clkOn = s.clkOn := by rw [ctlWrite_eq]
@[simp] theorem ctlWrite_blk : (ctlWrite v s).blk = ctlWriteBlock s.blk v := by rw [ctlWrite_eq]
@[simp] theorem ctlWrite_e : (ctlWrite v s).e = s.e := by rw [ctlWrite_eq]
@[simp] theorem ctlWrite_port : (ctlWrite v s).port = s.port := by rw [ctlWrite_eq]
@[simp] theorem ctlWrite_txBuf : (ctlWrite v s).txBuf = s.txBuf := by rw [ctlWrite_eq]
@[simp] theorem ctlWrite_rxBuf : (ctlWrite v s).rxBuf = s.rxBuf := by rw [ctlWrite_eq]
@[simp] theorem ctlWrite_history : (ctlWrite v s).history = s.history := by rw [ctlWrite_eq]
@[simp] theorem ctlWrite_slaveIn : (ctlWrite v s).env.slaveIn = s.env.slaveIn := by
  unfold ctlWrite
  dsimp only
  split
  · exact startBurst_slaveIn _
  · rfl
@[simp] theorem ctlWrite_now : (ctlWrite v s).env.now = s.env.now := by
  unfold ctlWrite
  dsimp only
  split
  · exact startBurst_now _
  · rfl

@[simp] theorem rxPop_cfg : (rxPop s).2.cfg = s.cfg := by unfold rxPop; split <;> rfl
@[simp] theorem rxPop_clkOn : (rxPop s).2.clkOn = s.clkOn := by unfold rxPop; split <;> rfl
@[simp] theorem rxPop_e : (rxPop s).2.e = s.e := by unfold rxPop; split <;> rfl
@[simp] theorem rxPop_port : (rxPop s).2.port = s.port := by unfold rxPop; split <;> rfl
@[simp] theorem rxPop_txBuf : (rxPop s).2.txBuf = s.txBuf := by unfold rxPop; split <;> rfl
@[simp] theorem rxPop_rxBuf : (rxPop s).2.rxBuf = s.rxBuf := by unfold rxPop; split <;> rfl
@[simp] theorem rxPop_history : (rxPop s).2.history = s.history := by unfold rxPop; split <;> rfl
@[simp] theorem rxPop_slaveIn : (rxPop s).2.env.slaveIn = s.env.slaveIn := by unfold rxPop; split <;> rfl
@[simp] theorem rxPop_now : (rxPop s).2.env.now = s.env.now := by unfold rxPop; split <;> rfl

/-- A pop of the RX FIFO takes its head, or leaves it empty (R50). -/
@[simp] theorem rxPop_blk : (rxPop s).2.blk = { s.blk with rxFifo := s.blk.rxFifo.tail } := by
  unfold rxPop
  split
  · next h => simp [h]
  · next h => rw [drawByte_blk]; cases hb : s.blk; simp_all

theorem txPush_eq : txPush x s = { s with blk := (txPush x s).blk } := by
  unfold txPush; split <;> rfl
@[simp] theorem txPush_cfg : (txPush x s).cfg = s.cfg := by rw [txPush_eq]
@[simp] theorem txPush_clkOn : (txPush x s).clkOn = s.clkOn := by rw [txPush_eq]
@[simp] theorem txPush_e : (txPush x s).e = s.e := by rw [txPush_eq]
@[simp] theorem txPush_port : (txPush x s).port = s.port := by rw [txPush_eq]
@[simp] theorem txPush_txBuf : (txPush x s).txBuf = s.txBuf := by rw [txPush_eq]
@[simp] theorem txPush_rxBuf : (txPush x s).rxBuf = s.rxBuf := by rw [txPush_eq]
@[simp] theorem txPush_env : (txPush x s).env = s.env := by rw [txPush_eq]
@[simp] theorem txPush_history : (txPush x s).history = s.history := by rw [txPush_eq]

/-- A push on a TX FIFO with room appends (R49). -/
theorem txPush_blk (h : s.blk.txFifo.length < Config.fifoDepth) :
    (txPush x s).blk = { s.blk with txFifo := s.blk.txFifo ++ [x] } := by
  unfold txPush; rw [if_pos h]

end

end Sys2Proof.Machine
end

