-- ==== Sys2Proof/Laws/Ops.lean ====
section
/-! SUPPORT. What each shared operation answers: the sequencing, the register accesses the core makes (R83), the acceptance of a
command, and the two halves of a read-modify-write. -/

namespace Sys2Proof.Machine

@[simp] theorem andThen_next {α β : Type} (a : α) (f : α → Out β) : andThen (.next a) f = f a := rfl
@[simp] theorem andThen_fault {α β : Type} (r : Fault) (f : α → Out β) : andThen (.fault r) f = .fault r := rfl
@[simp] theorem andThen_refused {α β : Type} (r : Refusal) (f : α → Out β) : andThen (.refused r) f = .refused r := rfl

/-- A sequence that answers a next state has both of its parts answer one. -/
theorem andThen_eq_next {α β : Type} {x : Out α} {f : α → Out β} {b : β} :
    andThen x f = .next b ↔ ∃ a, x = .next a ∧ f a = .next b := by
  cases x <;> simp [andThen]

/-- A sequence faults in its first part or in its second. -/
theorem andThen_eq_fault {α β : Type} {x : Out α} {f : α → Out β} {r : Fault} :
    andThen x f = .fault r ↔ x = .fault r ∨ ∃ a, x = .next a ∧ f a = .fault r := by
  cases x <;> simp [andThen]

/-- A sequence is refused in its first part or in its second. -/
theorem andThen_eq_refused {α β : Type} {x : Out α} {f : α → Out β} {r : Refusal} :
    andThen x f = .refused r ↔ x = .refused r ∨ ∃ a, x = .next a ∧ f a = .refused r := by
  cases x <;> simp [andThen]

theorem andThen_assoc {α β γ : Type} (x : Out α) (f : α → Out β) (g : β → Out γ) :
    andThen (andThen x f) g = andThen x (fun a => andThen (f a) g) := by
  cases x <;> rfl

section
variable (s : State)

theorem inWindow_offset {off : Nat} (h : off < 44) : inWindow s (s.cfg.base + off) = true := by
  simp [inWindow, Config.windowBytes, Config.numRegs, h]

/-- An access through the window with the clock on is the access of the bus at that offset, recorded. -/
theorem memRead_offset {off : Nat} (width : Nat) (hc : s.clkOn = true) (h : off < 44) :
    memRead (s.cfg.base + off) width s =
      andThen (busRead off width s) fun p => .next (p.1, p.2.record (.access off width .read p.1)) := by
  simp [memRead, hc, inWindow_offset s h]

theorem memWrite_offset {off : Nat} (width : Nat) (v : Word) (hc : s.clkOn = true) (h : off < 44) :
    memWrite (s.cfg.base + off) width v s =
      andThen (busWrite off width v s) fun s1 => .next (s1.record (.access off width .write v)) := by
  simp [memWrite, hc, inWindow_offset s h]

/-- No access while the clock is off (R292). -/
theorem memRead_clockOff (addr width : Nat) (hc : s.clkOn = false) : memRead addr width s = .fault .clockOff := by
  simp [memRead, hc]

theorem memWrite_clockOff (addr width : Nat) (v : Word) (hc : s.clkOn = false) :
    memWrite addr width v s = .fault .clockOff := by
  simp [memWrite, hc]

theorem regRead_ctl (hc : s.clkOn = true) :
    regRead offCTL s = .next (ctlRead s.blk, s.record (.access offCTL 4 .read (ctlRead s.blk))) := by
  unfold regRead; rw [memRead_offset s 4 hc (by decide)]; rfl

theorem regRead_cctl (hc : s.clkOn = true) :
    regRead offCCTL s = .next (s.blk.cctl, s.record (.access offCCTL 4 .read s.blk.cctl)) := by
  unfold regRead; rw [memRead_offset s 4 hc (by decide)]; rfl

theorem regWrite_ctl (v : Word) (hc : s.clkOn = true) :
    regWrite offCTL v s = .next ((ctlWrite v s).record (.access offCTL 4 .write v)) := by
  unfold regWrite; rw [memWrite_offset s 4 v hc (by decide)]; rfl

theorem regWrite_cctl (v : Word) (hc : s.clkOn = true) :
    regWrite offCCTL v s = .next (State.record (.access offCCTL 4 .write v) { s with blk := { s.blk with cctl := v } }) := by
  unfold regWrite; rw [memWrite_offset s 4 v hc (by decide)]; rfl

theorem regWrite_bc (v : Word) (hc : s.clkOn = true) :
    regWrite offBC v s =
      .next (State.record (.access offBC 4 .write v) { s with blk := { s.blk with bc := v.setWidth 24 } }) := by
  unfold regWrite; rw [memWrite_offset s 4 v hc (by decide)]; rfl

theorem regWrite_tc (v : Word) (hc : s.clkOn = true) :
    regWrite offTC v s =
      .next (State.record (.access offTC 4 .write v) { s with blk := { s.blk with tc := v.setWidth 24 } }) := by
  unfold regWrite; rw [memWrite_offset s 4 v hc (by decide)]; rfl

@[simp] theorem portByte_setWidth (b : Byte) : portByte (b.setWidth 32) = b := by
  unfold portByte; simp

theorem portWrite_txd (b : Byte) (hc : s.clkOn = true) :
    portWrite offTXD b s = .next ((txPush b s).record (.access offTXD 1 .write (b.setWidth 32))) := by
  unfold portWrite
  rw [memWrite_offset s 1 _ hc (by decide), show busWrite offTXD 1 (b.setWidth 32) s = .next (txPush (portByte (b.setWidth 32)) s)
    from rfl, portByte_setWidth]
  rfl

theorem portRead_rxd (hc : s.clkOn = true) :
    portRead offRXD s =
      .next ((rxPop s).1, (rxPop s).2.record (.access offRXD 1 .read ((rxPop s).1.setWidth 32))) := by
  unfold portRead
  rw [memRead_offset s 1 hc (by decide), show busRead offRXD 1 s = .next ((rxPop s).1.setWidth 32, (rxPop s).2) from rfl]
  simp

/-- The first half of a read-modify-write of CTL. -/
theorem readInto_ctl (u : Upc) (hc : s.clkOn = true) :
    readInto offCTL u s = .next (State.withEngine (s.record (.access offCTL 4 .read (ctlRead s.blk)))
      { s.e with v := ctlRead s.blk, upc := u }) := by
  unfold readInto; rw [regRead_ctl s hc]; rfl

/-- The first half of a read-modify-write of CCTL. -/
theorem readInto_cctl (u : Upc) (hc : s.clkOn = true) :
    readInto offCCTL u s = .next (State.withEngine (s.record (.access offCCTL 4 .read s.blk.cctl))
      { s.e with v := s.blk.cctl, upc := u }) := by
  unfold readInto; rw [regRead_cctl s hc]; rfl

theorem accept_idle (w : CmdWord) (u : Upc) (h : s.e.upc = .idle) :
    accept w u s = .next (s.withEngine { s.e with cmd := w, upc := u }) := by
  unfold accept; rw [if_pos h]

theorem accept_busy (w : CmdWord) (u : Upc) (h : s.e.upc ≠ .idle) : accept w u s = .fault .engineBusy := by
  unfold accept; rw [if_neg h]

end

end Sys2Proof.Machine
end

