-- ==== Sys2Proof/Laws/Shifter.lean ====
section
/-! SUPPORT. What the shifter can do: its turn in three cases, the frame of a burst, and the burst from full enough FIFOs. -/

namespace Sys2Proof.Machine

/-- `t` differs from `s` in the FIFOs and the environment alone. -/
def FifoOnly (s t : State) : Prop :=
  t = { s with blk := { s.blk with txFifo := t.blk.txFifo, rxFifo := t.blk.rxFifo }, env := t.env }

theorem FifoOnly.refl (s : State) : FifoOnly s s := rfl

theorem FifoOnly.trans {s t u : State} (h1 : FifoOnly s t) (h2 : FifoOnly t u) : FifoOnly s u := by
  unfold FifoOnly at *
  rw [h2, h1]

theorem txPop_fifoOnly (s : State) : FifoOnly s (txPop s).2 := by
  unfold FifoOnly txPop; split <;> rfl

theorem drawSlave_fifoOnly (s : State) : FifoOnly s (drawSlave s).2 := by
  unfold FifoOnly drawSlave; split <;> rfl

theorem rxPush_fifoOnly (x : Byte) (s : State) : FifoOnly s (rxPush x s) := by
  unfold FifoOnly rxPush; split <;> rfl

theorem byteTimes_fifoOnly (n : Nat) (s : State) : FifoOnly s (byteTimes n s).2.2 := by
  induction n generalizing s with
  | zero => exact FifoOnly.refl s
  | succ n ih =>
    exact ((txPop_fifoOnly s).trans (drawSlave_fifoOnly _)).trans ((rxPush_fifoOnly _ _).trans (ih _))

theorem byteTimes_now (n : Nat) (s : State) : (byteTimes n s).2.2.env.now = s.env.now := by
  induction n generalizing s with
  | zero => rfl
  | succ n ih =>
    have h1 : (txPop s).2.env.now = s.env.now := by unfold txPop; split <;> rfl
    have h2 : ∀ x u, (rxPush x u).env.now = u.env.now := by intro x u; unfold rxPush; split <;> rfl
    show (byteTimes n _).2.2.env.now = _
    rw [ih, h2, drawSlave_now, h1]

theorem txPop_length (s : State) : (txPop s).2.blk.txFifo.length ≤ s.blk.txFifo.length ∧
    (txPop s).2.blk.rxFifo = s.blk.rxFifo := by
  unfold txPop
  split
  · next h => simp [h]
  · exact ⟨Nat.le_refl _, rfl⟩

theorem rxPush_length (x : Byte) (s : State) (h : s.blk.rxFifo.length ≤ Config.fifoDepth) :
    (rxPush x s).blk.rxFifo.length ≤ Config.fifoDepth ∧ (rxPush x s).blk.txFifo = s.blk.txFifo := by
  unfold rxPush
  split
  · next h' => simpa using h'
  · exact ⟨h, rfl⟩

/-- No byte time grows the TX FIFO or overfills the RX FIFO. -/
theorem byteTimes_depth (n : Nat) (s : State) (h : s.blk.rxFifo.length ≤ Config.fifoDepth) :
    (byteTimes n s).2.2.blk.txFifo.length ≤ s.blk.txFifo.length ∧
      (byteTimes n s).2.2.blk.rxFifo.length ≤ Config.fifoDepth := by
  induction n generalizing s with
  | zero => exact ⟨Nat.le_refl _, h⟩
  | succ n ih =>
    have h1 := txPop_length s
    have h2 := rxPush_length (drawSlave (txPop s).2).1 (drawSlave (txPop s).2).2 (by simpa [h1.2] using h)
    have h3 := ih (rxPush (drawSlave (txPop s).2).1 (drawSlave (txPop s).2).2) h2.1
    refine ⟨Nat.le_trans h3.1 ?_, h3.2⟩
    rw [h2.2, drawSlave_blk]
    exact h1.1

/-- The bytes of a burst with enough bytes in the TX FIFO and enough room in the RX FIFO (R217): the first bytes of the one go out,
every byte in goes to the other. -/
theorem byteTimes_filled (n : Nat) (s : State) (htx : n ≤ s.blk.txFifo.length)
    (hrx : s.blk.rxFifo.length + n ≤ Config.fifoDepth) :
    (byteTimes n s).1 = s.blk.txFifo.take n ∧ (byteTimes n s).2.1.length = n ∧
      (byteTimes n s).2.2.blk.txFifo = s.blk.txFifo.drop n ∧
      (byteTimes n s).2.2.blk.rxFifo = s.blk.rxFifo ++ (byteTimes n s).2.1 := by
  induction n generalizing s with
  | zero => simp [byteTimes]
  | succ n ih =>
    obtain ⟨b, bs, hb⟩ : ∃ b bs, s.blk.txFifo = b :: bs := by
      cases h : s.blk.txFifo with
      | nil => simp [h] at htx
      | cons b bs => exact ⟨b, bs, rfl⟩
    have hp : txPop s = (b, { s with blk := { s.blk with txFifo := bs } }) := by
      unfold txPop; rw [hb]
    have hr : ∀ x u, u.blk = { s.blk with txFifo := bs } →
        (rxPush x u).blk = { s.blk with txFifo := bs, rxFifo := s.blk.rxFifo ++ [x] } := by
      intro x u hu
      unfold rxPush
      rw [if_pos (by rw [hu]; show s.blk.rxFifo.length < _; omega), hu]
    have hd := drawSlave_blk (txPop s).2
    rw [hp] at hd
    have hi := ih (rxPush (drawSlave (txPop s).2).1 (drawSlave (txPop s).2).2)
    rw [hr _ _ (by rw [hp]; exact hd)] at hi
    have hlen : s.blk.txFifo.length = bs.length + 1 := by rw [hb]; rfl
    have := hi (by show n ≤ bs.length; omega) (by simp only [List.length_append, List.length_singleton]; omega)
    simp only [byteTimes]
    refine ⟨?_, ?_, ?_, ?_⟩
    · rw [this.1, hp, hb]; rfl
    · simp [this.2.1]
    · rw [this.2.2.1, hb]; rfl
    · rw [this.2.2.2]; simp

/-- The in bytes come from the head of the slave's input list while it lasts (R207). -/
theorem byteTimes_slave (n : Nat) (s : State) (h : n ≤ s.env.slaveIn.length) :
    (byteTimes n s).2.1 = s.env.slaveIn.take n ∧ (byteTimes n s).2.2.env.slaveIn = s.env.slaveIn.drop n := by
  induction n generalizing s with
  | zero => simp [byteTimes]
  | succ n ih =>
    obtain ⟨b, bs, hb⟩ : ∃ b bs, s.env.slaveIn = b :: bs := by
      cases hs : s.env.slaveIn with
      | nil => simp [hs] at h
      | cons b bs => exact ⟨b, bs, rfl⟩
    have h1 : (txPop s).2.env.slaveIn = b :: bs := by
      rw [← hb]; unfold txPop; split <;> rfl
    have h2 : drawSlave (txPop s).2 = (b, { (txPop s).2 with env := { (txPop s).2.env with slaveIn := bs } }) := by
      unfold drawSlave; rw [h1]
    have h3 : ∀ x u, (rxPush x u).env = u.env := by
      intro x u; unfold rxPush; split <;> rfl
    have hi := ih (rxPush (drawSlave (txPop s).2).1 (drawSlave (txPop s).2).2)
    rw [h3, h2] at hi
    have hlen : s.env.slaveIn.length = bs.length + 1 := by rw [hb]; rfl
    have := hi (by show n ≤ bs.length; omega)
    simp only [byteTimes, h2]
    rw [hb]
    exact ⟨by rw [this.1]; rfl, by rw [this.2]; rfl⟩

/-- The frame of a burst: besides the FIFOs, XCH and the history nothing of the state but the environment's draws. -/
theorem burst_eq (s : State) :
    burst s = { s with blk := { s.blk with ctl := s.blk.ctl &&& ~~~maskXCH, txFifo := (burst s).blk.txFifo, rxFifo := (burst s).blk.rxFifo },
                       env := (burst s).env,
                       history := .burst (byteTimes s.blk.bc.toNat s).1 (byteTimes s.blk.bc.toNat s).2.1 :: s.history } := by
  have h := byteTimes_fifoOnly s.blk.bc.toNat s
  unfold FifoOnly at h
  unfold burst
  dsimp only
  generalize (byteTimes s.blk.bc.toNat s).2.2 = t at h
  rw [h]
  rfl

@[simp] theorem burst_cfg (s : State) : (burst s).cfg = s.cfg := by rw [burst_eq]
@[simp] theorem burst_clkOn (s : State) : (burst s).clkOn = s.clkOn := by rw [burst_eq]
@[simp] theorem burst_e (s : State) : (burst s).e = s.e := by rw [burst_eq]
@[simp] theorem burst_port (s : State) : (burst s).port = s.port := by rw [burst_eq]
@[simp] theorem burst_txBuf (s : State) : (burst s).txBuf = s.txBuf := by rw [burst_eq]
@[simp] theorem burst_rxBuf (s : State) : (burst s).rxBuf = s.rxBuf := by rw [burst_eq]
@[simp] theorem burst_ctl (s : State) : (burst s).blk.ctl = s.blk.ctl &&& ~~~maskXCH := by rw [burst_eq]
@[simp] theorem burst_cctl (s : State) : (burst s).blk.cctl = s.blk.cctl := by rw [burst_eq]
@[simp] theorem burst_bc (s : State) : (burst s).blk.bc = s.blk.bc := by rw [burst_eq]
@[simp] theorem burst_tc (s : State) : (burst s).blk.tc = s.blk.tc := by rw [burst_eq]
theorem burst_now (s : State) : (burst s).env.now = s.env.now + 1 := by
  show (byteTimes _ s).2.2.env.now + 1 = _; rw [byteTimes_now]
theorem burst_history (s : State) : (burst s).history =
    .burst (byteTimes s.blk.bc.toNat s).1 (byteTimes s.blk.bc.toNat s).2.1 :: s.history := by rw [burst_eq]
theorem burst_txFifo (s : State) : (burst s).blk.txFifo = (byteTimes s.blk.bc.toNat s).2.2.blk.txFifo := rfl
theorem burst_rxFifo (s : State) : (burst s).blk.rxFifo = (byteTimes s.blk.bc.toNat s).2.2.blk.rxFifo := rfl

/-- The shifter's turn, in its cases: it lets the turn pass, or performs the burst, or is refused. -/
theorem shifterTurn_cases (s : State) :
    shifterTurn s = .next s ∨
    (∃ n, shifterTurn s = .next { s with env := { s.env with burstDelay := some n } } ∧ shifterArmed s = true) ∨
    (shifterTurn s = .next (burst s) ∧ shifterArmed s = true ∧ s.blk.bc = s.blk.tc) ∨
    (shifterTurn s = .refused .burstCountMismatch ∧ shifterArmed s = true ∧ s.blk.bc ≠ s.blk.tc) := by
  unfold shifterTurn
  split
  · next ha =>
    split
    · exact .inl rfl
    · split
      · next hb => exact .inr (.inr (.inl ⟨rfl, ha, hb⟩))
      · next hb => exact .inr (.inr (.inr ⟨rfl, ha, hb⟩))
    · next n _ => exact .inr (.inl ⟨n, rfl, ha⟩)
  · exact .inl rfl

/-- No turn of the shifter goes back to an earlier moment. -/
theorem shifterTurn_now {s t : State} (h : shifterTurn s = .next t) : s.env.now ≤ t.env.now := by
  rcases shifterTurn_cases s with h1 | ⟨n, h1, _⟩ | ⟨h1, _⟩ | ⟨h1, _⟩ <;> rw [h1] at h <;> cases h
  · exact Nat.le_refl _
  · exact Nat.le_refl _
  · rw [burst_now]; exact Nat.le_succ _

/-- With no burst in flight the shifter has no step. -/
theorem shifterTurn_quiet {s : State} (h : busy s.blk = false) : shifterTurn s = .next s := by
  unfold busy at h
  unfold shifterTurn shifterArmed
  simp [h]

/-- A burst in flight makes no progress while EN is 0 (R210). -/
theorem shifterTurn_disabled {s : State} (h : ctlEN s.blk.ctl = false) : shifterTurn s = .next s := by
  unfold shifterTurn shifterArmed
  simp [h]

theorem tick_of_turn {s : State} (h : shifterTurn s = .next s) : tick s = engineStep s := by
  unfold tick; rw [h]; rfl

end Sys2Proof.Machine
end

