-- ==== Sys2Proof/Laws/Bits.lean ====
section
/-! SUPPORT. The bits of the CTL and CCTL values the core writes, one lemma per value. -/

namespace Sys2Proof.Machine

/-- CTL as stored after a write: the FIFO-reset bits 0, XCH kept or set, the rest as written (R43, R44, R45). -/
theorem ctlStored_bit (old v : Word) (j : Nat) :
    (ctlStored old v).getLsbD j =
      ((v.getLsbD j && !(j == 8 || j == 9)) || (old.getLsbD j && j == 10)) := by
  by_cases hj : j < 32
  · have : ∀ j : Fin 32, (ctlStored old v).getLsbD j =
        ((v.getLsbD j && !(j.val == 8 || j.val == 9)) || (old.getLsbD j && j.val == 10)) := by
      intro j
      fin_cases j <;> simp [ctlStored, maskTF_RST, maskRF_RST, maskXCH]
    exact this ⟨j, hj⟩
  · simp [BitVec.getLsbD_of_ge _ _ (Nat.le_of_not_lt hj)]

theorem ctlRead_bit (b : Block) (j : Nat) : (ctlRead b).getLsbD j = (b.ctl.getLsbD j && !(j == 8 || j == 9)) := by
  by_cases hj : j < 32
  · have : ∀ j : Fin 32, (ctlRead b).getLsbD j = (b.ctl.getLsbD j && !(j.val == 8 || j.val == 9)) := by
      intro j
      fin_cases j <;> simp [ctlRead, maskTF_RST, maskRF_RST]
    exact this ⟨j, hj⟩
  · simp [BitVec.getLsbD_of_ge _ _ (Nat.le_of_not_lt hj)]

theorem clearXch_bit (v : Word) (j : Nat) : (v &&& ~~~maskXCH).getLsbD j = (v.getLsbD j && !(j == 10)) := by
  by_cases hj : j < 32
  · have : ∀ j : Fin 32, (v &&& ~~~maskXCH).getLsbD j = (v.getLsbD j && !(j.val == 10)) := by
      intro j
      fin_cases j <;> simp [maskXCH]
    exact this ⟨j, hj⟩
  · simp [BitVec.getLsbD_of_ge _ _ (Nat.le_of_not_lt hj)]

theorem claimValue_bit (v : Word) (j : Nat) (hj : j < 32) :
    (claimValue v).getLsbD j = (v.getLsbD j || (j == 0 || j == 1 || j == 4 || j == 15 || j == 16)) := by
  have : ∀ j : Fin 32, (claimValue v).getLsbD j = (v.getLsbD j || (j.val == 0 || j.val == 1 || j.val == 4 || j.val == 15 || j.val == 16)) := by
    intro j
    fin_cases j <;> simp [claimValue, maskEN, maskMASTER, maskCS_MANUAL, maskCSPOL_LOW, maskDHB]
  exact this ⟨j, hj⟩

theorem releaseValue_bit (v : Word) (j : Nat) : (releaseValue v).getLsbD j = (v.getLsbD j && !(j == 0)) := by
  by_cases hj : j < 32
  · have : ∀ j : Fin 32, (releaseValue v).getLsbD j = (v.getLsbD j && !(j.val == 0)) := by
      intro j
      fin_cases j <;> simp [releaseValue, maskEN]
    exact this ⟨j, hj⟩
  · simp [BitVec.getLsbD_of_ge _ _ (Nat.le_of_not_lt hj)]

theorem modeValue_bit (v : Word) (cpol cpha : Bool) (j : Nat) :
    (modeValue v cpol cpha).getLsbD j = (if j = 2 then cpha else if j = 3 then cpol else v.getLsbD j) := by
  by_cases hj : j < 32
  · have : ∀ j : Fin 32, (modeValue v cpol cpha).getLsbD j = (if j.val = 2 then cpha else if j.val = 3 then cpol else v.getLsbD j) := by
      intro j
      cases cpol <;> cases cpha <;> fin_cases j <;>
        simp [modeValue, maskCPOL, maskCPHA]
    exact this ⟨j, hj⟩
  · rw [if_neg (by omega), if_neg (by omega)]
    simp [BitVec.getLsbD_of_ge _ _ (Nat.le_of_not_lt hj)]

theorem setcsValue_bit (v : Word) (c : BitVec 2) (sel : Bool) (j : Nat) :
    (setcsValue v c sel).getLsbD j =
      (if j = 12 then c.getLsbD 0 else if j = 13 then c.getLsbD 1 else if j = 17 then !sel else v.getLsbD j) := by
  by_cases hj : j < 32
  · have : ∀ j : Fin 32, (setcsValue v c sel).getLsbD j =
        (if j.val = 12 then c.getLsbD 0 else if j.val = 13 then c.getLsbD 1 else if j.val = 17 then !sel else v.getLsbD j) := by
      intro j
      cases sel <;> fin_cases j <;>
        simp [setcsValue, maskCS, maskCS_LEVEL]
    exact this ⟨j, hj⟩
  · rw [if_neg (by omega), if_neg (by omega), if_neg (by omega)]
    simp [BitVec.getLsbD_of_ge _ _ (Nat.le_of_not_lt hj)]

/-- The stored CTL after a write of a value read: XCH apart, the bits of the value. -/
theorem ctlStored_bit_ne {old v : Word} {j : Nat} (h8 : v.getLsbD 8 = false) (h9 : v.getLsbD 9 = false) (h : j ≠ 10) :
    (ctlStored old v).getLsbD j = v.getLsbD j := by
  rw [ctlStored_bit, beq_eq_false_iff_ne.mpr h, Bool.and_false, Bool.or_false]
  by_cases h1 : j = 8
  · subst h1; rw [h8]; rfl
  · by_cases h2 : j = 9
    · subst h2; rw [h9]; rfl
    · rw [beq_eq_false_iff_ne.mpr h1, beq_eq_false_iff_ne.mpr h2, Bool.or_self, Bool.not_false, Bool.and_true]

end Sys2Proof.Machine
end

