-- ==== Sys2Proof/Laws/Memory.lean ====
section
/-! SUPPORT. Every memory operation keeps the canonical form; equal reads mean equal memories is why the form is kept. -/

namespace Sys2Proof.Machine

theorem wfAbove_mono {lo lo' : Nat} (h : lo' ≤ lo) : ∀ {m : Memory}, Memory.wfAbove lo m = true → Memory.wfAbove lo' m = true
  | [], _ => rfl
  | (a, b) :: rest, hm => by
    simp only [Memory.wfAbove, Bool.and_eq_true, decide_eq_true_eq] at hm ⊢
    exact ⟨⟨by omega, hm.1.2⟩, hm.2⟩

/-- A store at or above the bound keeps the form above the bound. -/
theorem wfAbove_write {lo : Nat} {m : Memory} (a : Nat) (b : Byte) (hlo : lo ≤ a) (hm : Memory.wfAbove lo m = true) :
    Memory.wfAbove lo (Memory.write m a b) = true := by
  induction m generalizing lo with
  | nil =>
    unfold Memory.write
    split
    · rfl
    · next h => simp [Memory.wfAbove, hlo, h]
  | cons p rest ih =>
    obtain ⟨a', b'⟩ := p
    simp only [Memory.wfAbove, Bool.and_eq_true, decide_eq_true_eq] at hm
    obtain ⟨⟨h1, h2⟩, h3⟩ := hm
    unfold Memory.write
    split
    · next hlt =>
      split
      · simp [Memory.wfAbove, h1, h2, h3]
      · next hb =>
        simp only [Memory.wfAbove, Bool.and_eq_true, decide_eq_true_eq]
        exact ⟨⟨hlo, by simpa using hb⟩, ⟨by omega, h2⟩, h3⟩
    · next hnlt =>
      split
      · next heq =>
        subst heq
        split
        · exact wfAbove_mono (by omega) h3
        · next hb =>
          simp only [Memory.wfAbove, Bool.and_eq_true, decide_eq_true_eq]
          exact ⟨⟨hlo, by simpa using hb⟩, h3⟩
      · next hne =>
        simp only [Memory.wfAbove, Bool.and_eq_true, decide_eq_true_eq]
        exact ⟨⟨h1, h2⟩, ih (by omega) h3⟩

/-- A store keeps the canonical form. -/
theorem write_keeps_wf {m : Memory} (a : Nat) (b : Byte) (hm : Memory.wf m = true) : Memory.wf (Memory.write m a b) = true :=
  wfAbove_write a b (Nat.zero_le a) hm

theorem bufferWrite_keeps_wf {b : Buffer} (i : Nat) (x : Byte) (h : b.wf = true) : (b.write i x).wf = true :=
  write_keeps_wf i x h

theorem zeros_wf (n : Nat) : (Buffer.zeros n).wf = true := rfl

@[simp] theorem bufferWrite_len (b : Buffer) (i : Nat) (x : Byte) : (b.write i x).len = b.len := rfl

/-- Below the bound of the form nothing is listed. -/
theorem read_below {lo : Nat} {m : Memory} {a : Nat} (hm : Memory.wfAbove lo m = true) (h : a < lo) :
    Memory.read m a = Memory.unlisted := by
  induction m generalizing lo with
  | nil => rfl
  | cons p rest ih =>
    obtain ⟨a', b'⟩ := p
    simp only [Memory.wfAbove, Bool.and_eq_true, decide_eq_true_eq] at hm
    unfold Memory.read
    rw [if_neg (by omega)]
    exact ih hm.2 (by omega)

end Sys2Proof.Machine
end

