-- ==== Sys2Proof/Laws/Turn.lean ====
section
/-! SUPPORT. The shifter's turn once for all later proofs: with agreeing counts it answers a next state, which differs in XCH, the
FIFOs, the environment and the history alone; with no burst in flight it is no step. -/

namespace Sys2Proof.Machine

/-- What a turn of the shifter may change from `s` to `t`. -/
structure Turn (s t : State) : Prop where
  cfg    : t.cfg = s.cfg
  clkOn  : t.clkOn = s.clkOn
  e      : t.e = s.e
  port   : t.port = s.port
  txBuf  : t.txBuf = s.txBuf
  rxBuf  : t.rxBuf = s.rxBuf
  regs   : t.blk = { s.blk with ctl := t.blk.ctl, txFifo := t.blk.txFifo, rxFifo := t.blk.rxFifo }
  ctl    : ∀ j, j ≠ 10 → t.blk.ctl.getLsbD j = s.blk.ctl.getLsbD j
  agree  : CountsAgree t
  quiet  : Quiet s → t = s
  still  : ctlEN s.blk.ctl = false → t = s
  depth  : s.blk.rxFifo.length ≤ Config.fifoDepth →
             t.blk.txFifo.length ≤ s.blk.txFifo.length ∧ t.blk.rxFifo.length ≤ Config.fifoDepth
  hist   : (t.history = s.history ∧ t.blk = s.blk) ∨ ∃ o i, t.history = .burst o i :: s.history ∧ busy t.blk = false

theorem Turn.bc {s t : State} (h : Turn s t) : t.blk.bc = s.blk.bc := by rw [h.regs]
theorem Turn.tc {s t : State} (h : Turn s t) : t.blk.tc = s.blk.tc := by rw [h.regs]
theorem Turn.cctl {s t : State} (h : Turn s t) : t.blk.cctl = s.blk.cctl := by rw [h.regs]
theorem Turn.opaque {s t : State} (h : Turn s t) : sameOpaque s.blk t.blk := by
  unfold sameOpaque; rw [h.regs]; exact ⟨rfl, rfl, rfl, rfl⟩

theorem Turn.refl (s : State) (h : CountsAgree s) : Turn s s where
  cfg := rfl
  clkOn := rfl
  e := rfl
  port := rfl
  txBuf := rfl
  rxBuf := rfl
  regs := rfl
  ctl _ _ := rfl
  agree := h
  quiet _ := rfl
  still _ := rfl
  depth h := ⟨Nat.le_refl _, h⟩
  hist := .inl ⟨rfl, rfl⟩

theorem armed_busy {s : State} (h : shifterArmed s = true) : busy s.blk = true := by
  unfold shifterArmed at h
  unfold busy
  simp only [Bool.and_eq_true] at h
  exact h.1.1.1

theorem armed_enabled {s : State} (h : shifterArmed s = true) : ctlEN s.blk.ctl = true := by
  unfold shifterArmed at h
  simp only [Bool.and_eq_true] at h
  exact h.1.1.2

/-- A turn that answers a next state is a `Turn`. -/
theorem turn_of_next {s t : State} (hc : CountsAgree s) (h : shifterTurn s = .next t) : Turn s t := by
  rcases shifterTurn_cases s with h1 | ⟨n, h1, ha⟩ | ⟨h1, ha, hb⟩ | ⟨h1, ha, hb⟩
  · rw [h1] at h; cases h; exact Turn.refl s hc
  · rw [h1] at h; cases h
    exact { Turn.refl s hc with quiet := fun hq => by unfold Quiet at hq; rw [armed_busy ha] at hq; cases hq
                                still := fun he => by rw [armed_enabled ha] at he; cases he }
  · rw [h1] at h; cases h
    exact
      { cfg := burst_cfg s, clkOn := burst_clkOn s, e := burst_e s, port := burst_port s, txBuf := burst_txBuf s
        rxBuf := burst_rxBuf s, regs := by rw [burst_eq]
        ctl := fun j hj => by rw [burst_ctl, clearXch_bit]; simp [hj]
        agree := fun _ => by rw [burst_bc, burst_tc, hb]
        quiet := fun hq => by unfold Quiet at hq; rw [armed_busy ha] at hq; cases hq
        still := fun he => by rw [armed_enabled ha] at he; cases he
        depth := fun hd => by rw [burst_txFifo, burst_rxFifo]; exact byteTimes_depth _ s hd
        hist := .inr ⟨_, _, burst_history s, by unfold busy ctlXCH; rw [burst_ctl, clearXch_bit]; simp⟩ }
  · rw [h1] at h; cases h

/-- With agreeing counts the turn is not refused (R205). -/
theorem turn_exists {s : State} (hc : CountsAgree s) : ∃ t, shifterTurn s = .next t ∧ Turn s t := by
  rcases shifterTurn_cases s with h1 | ⟨n, h1, _⟩ | ⟨h1, _, _⟩ | ⟨h1, ha, hb⟩
  · exact ⟨_, h1, turn_of_next hc h1⟩
  · exact ⟨_, h1, turn_of_next hc h1⟩
  · exact ⟨_, h1, turn_of_next hc h1⟩
  · exact absurd (hc (armed_busy ha)) hb

/-- A tick whose counts agree is a turn, then the engine step. -/
theorem tick_turn {s : State} (hc : CountsAgree s) : ∃ t, tick s = engineStep t ∧ Turn s t := by
  obtain ⟨t, h, ht⟩ := turn_exists hc
  exact ⟨t, by unfold tick; rw [h]; rfl, ht⟩

theorem runWhile_step {p : Upc → Bool} {n : Nat} {s : State} (h : p s.e.upc = true) :
    runWhile p (n + 1) s = andThen (tick s) (runWhile p n) := by
  conv_lhs => unfold runWhile
  rw [if_pos h]

theorem runWhile_stop {p : Upc → Bool} {n : Nat} {s : State} (h : p s.e.upc = false) : runWhile p n s = .next s := by
  cases n with
  | zero => rfl
  | succ n => unfold runWhile; rw [if_neg (by rw [h]; decide)]

end Sys2Proof.Machine
end

