-- ==== Sys2Proof/Laws/Rmw.lean ====
section
/-! SUPPORT. A read-modify-write of CTL as two engine steps with the shifter's turn before each (R85): the state between them, and
the state after the write, once for every command that makes one. -/

namespace Sys2Proof.Machine

/-- The state `c` just before the write half, for the read half begun in `s`: CTL and FIFOs as the shifter may have left them, the value
read in `e.v`. -/
structure Between (s c : State) (target : Upc) : Prop where
  cfg    : c.cfg = s.cfg
  clkOn  : c.clkOn = s.clkOn
  port   : c.port = s.port
  txBuf  : c.txBuf = s.txBuf
  rxBuf  : c.rxBuf = s.rxBuf
  regs   : c.blk = { s.blk with ctl := c.blk.ctl, txFifo := c.blk.txFifo, rxFifo := c.blk.rxFifo }
  ctl    : ∀ j, j ≠ 10 → c.blk.ctl.getLsbD j = s.blk.ctl.getLsbD j
  agree  : CountsAgree c
  e      : c.e = { s.e with v := c.e.v, upc := target }
  held   : ∀ j, j ≠ 10 → c.e.v.getLsbD j = (ctlRead s.blk).getLsbD j
  quiet  : Quiet s → c.blk = s.blk ∧ c.env.slaveIn = s.env.slaveIn ∧ c.e.v = ctlRead s.blk
  still  : ctlEN s.blk.ctl = false → c.blk = s.blk ∧ ∃ v, c.history = .access offCTL 4 .read v :: s.history
  /-- The read alone is recorded and the block is as it was, or a burst is recorded beside the read. -/
  hist   : (∃ v, c.history = .access offCTL 4 .read v :: s.history ∧ c.e.v = ctlRead s.blk ∧ c.blk = s.blk) ∨
             ∃ v o i, c.history = .access offCTL 4 .read v :: .burst o i :: s.history ∨
               c.history = .burst o i :: .access offCTL 4 .read v :: s.history

theorem Between.noReset {s c : State} {u : Upc} (h : Between s c u) : c.e.v.getLsbD 8 = false ∧ c.e.v.getLsbD 9 = false := by
  rw [h.held 8 (by decide), h.held 9 (by decide), ctlRead_bit, ctlRead_bit]
  simp

/-- The read half: one tick, and the turn before the write half. -/
theorem between_exists {s : State} {source target : Upc} (hclk : s.clkOn = true) (hag : CountsAgree s) (hu : s.e.upc = source)
    (hR : ∀ a : State, a.e.upc = source → engineStep a = readInto offCTL target a) :
    ∃ b c, tick s = .next b ∧ b.e.upc = target ∧ tick b = engineStep c ∧ Between s c target := by
  obtain ⟨a, ha, ta⟩ := tick_turn hag
  have hb : tick s = .next (State.withEngine (a.record (.access offCTL 4 .read (ctlRead a.blk)))
      { a.e with v := ctlRead a.blk, upc := target }) := by
    rw [ha, hR a (by rw [ta.e, hu]), readInto_ctl a target (by rw [ta.clkOn, hclk])]
  generalize hbd : State.withEngine (a.record (.access offCTL 4 .read (ctlRead a.blk)))
    { a.e with v := ctlRead a.blk, upc := target } = b at hb
  have hbb : b.blk = a.blk := by rw [← hbd]; rfl
  have hbe : b.e = { a.e with v := ctlRead a.blk, upc := target } := by rw [← hbd]; rfl
  obtain ⟨c, hc, tc⟩ := tick_turn (s := b) (by unfold CountsAgree; rw [hbb]; exact ta.agree)
  have hv : c.e.v = ctlRead a.blk := by rw [tc.e, hbe]
  refine ⟨b, c, hb, by rw [hbe], hc, ?_⟩
  constructor
  · rw [tc.cfg, ← hbd]; exact ta.cfg
  · rw [tc.clkOn, ← hbd]; exact ta.clkOn
  · rw [tc.port, ← hbd]; exact ta.port
  · rw [tc.txBuf, ← hbd]; exact ta.txBuf
  · rw [tc.rxBuf, ← hbd]; exact ta.rxBuf
  · rw [tc.regs, hbb, ta.regs]
  · intro j hj; rw [tc.ctl j hj, hbb, ta.ctl j hj]
  · exact tc.agree
  · rw [hv, tc.e, hbe, ta.e]
  · intro j hj; rw [hv, ctlRead_bit, ctlRead_bit, ta.ctl j hj]
  · intro hq
    have e1 := ta.quiet hq
    have e2 := tc.quiet (by unfold Quiet; rw [hbb, e1]; exact hq)
    exact ⟨by rw [e2, hbb, e1], by rw [e2, ← hbd, e1]; rfl, by rw [hv, e1]⟩
  · intro hq
    have e1 := ta.still hq
    have e2 := tc.still (by rw [hbb, e1]; exact hq)
    exact ⟨by rw [e2, hbb, e1], ctlRead a.blk, by rw [e2, ← hbd, e1]; rfl⟩
  · have bh : b.history = .access offCTL 4 .read (ctlRead a.blk) :: a.history := by rw [← hbd]; rfl
    rcases ta.hist with ⟨h1, h2⟩ | ⟨o, i, h1, h2⟩
    · rcases tc.hist with ⟨h3, h4⟩ | ⟨o, i, h3, _⟩
      · exact .inl ⟨_, by rw [h3, bh, h1], by rw [hv, h2], by rw [h4, hbb, h2]⟩
      · exact .inr ⟨_, o, i, .inr (by rw [h3, bh, h1])⟩
    · have e2 := tc.quiet (by unfold Quiet; rw [hbb]; exact h2)
      exact .inr ⟨_, o, i, .inl (by rw [e2, bh, h1])⟩

/-- The block after a write of CTL by a value that asks for no FIFO reset. -/
theorem ctlWriteBlock_plain {b : Block} {v : Word} (h8 : v.getLsbD 8 = false) (h9 : v.getLsbD 9 = false) :
    ctlWriteBlock b v = { b with ctl := ctlStored b.ctl v } := by
  unfold ctlWriteBlock ctlTF_RST ctlRF_RST
  rw [h8, h9]
  rfl

/-- CTL reads, XCH apart, what was written. -/
theorem ctlRead_after_write {b : Block} {v : Word} (h8 : v.getLsbD 8 = false) (h9 : v.getLsbD 9 = false) {j : Nat} (hj : j ≠ 10) :
    (ctlRead (ctlWriteBlock b v)).getLsbD j = v.getLsbD j := by
  rw [ctlWriteBlock_plain h8 h9, ctlRead_bit, ctlStored_bit_ne h8 h9 hj]
  by_cases h1 : j = 8
  · subst h1; rw [h8]; rfl
  · by_cases h2 : j = 9
    · subst h2; rw [h9]; rfl
    · rw [beq_eq_false_iff_ne.mpr h1, beq_eq_false_iff_ne.mpr h2, Bool.or_self, Bool.not_false, Bool.and_true]

/-- XCH after a write of CTL: kept, or set by a 1 in bit 10 (R44). -/
theorem busy_after_write (b : Block) (v : Word) : busy (ctlWriteBlock b v) = (ctlXCH v || busy b) := by
  unfold busy ctlXCH ctlWriteBlock
  rw [ctlStored_bit]
  simp

/-- The frame of a CTL command, from the state between its halves to the state after the write and the end with engine registers
`e'`. -/
theorem rmwFrame_of_between {s c : State} {u : Upc} (h : Between s c u) {v : Word} (h8 : v.getLsbD 8 = false) (h9 : v.getLsbD 9 = false)
    (hx : ctlXCH v = ctlXCH c.e.v) (off : Nat) (r : Result) (e' : Engine) :
    RmwFrame s (finish r (State.withEngine ((ctlWrite v c).record (.access off 4 .write v)) e')) e' := by
  have hb := ctlWriteBlock_plain (b := c.blk) h8 h9
  constructor
  · simp [h.cfg]
  · simp [h.clkOn]
  · simp [h.port]
  · simp [h.txBuf]
  · simp [h.rxBuf]
  · simp only [finish_blk, withEngine_blk, record_blk, ctlWrite_blk, hb]
    rw [h.regs]
    exact ⟨rfl, rfl⟩
  · simp only [finish_blk, withEngine_blk, record_blk, ctlWrite_blk, hb]
    rw [h.regs]
    exact ⟨rfl, rfl, rfl, rfl⟩
  · rfl
  · intro hq
    obtain ⟨h1, h2, h3⟩ := h.quiet hq
    have hqx : ctlXCH v = false := by
      rw [hx, h3]; unfold ctlXCH; rw [ctlRead_bit]
      unfold Quiet busy ctlXCH at hq; rw [hq]; rfl
    refine ⟨?_, ?_, ?_, ?_⟩
    · unfold Quiet
      simp only [finish_blk, withEngine_blk, record_blk, ctlWrite_blk]
      rw [busy_after_write, hqx, h1]; exact hq
    · simp only [finish_blk, withEngine_blk, record_blk, ctlWrite_blk]; rw [hb, h1]
    · simp only [finish_blk, withEngine_blk, record_blk, ctlWrite_blk]; rw [hb, h1]
    · simp [h2]

end Sys2Proof.Machine
end

