-- ==== Sys2Proof/Laws/Trace.lean ====
section
/-! SUPPORT. Histories counted piece by piece: the counts of two pieces of a history joined, and what a run adds to it. -/

namespace Sys2Proof.Machine

/-- The counts of a piece of history: register writes, register reads, bytes out, bytes in, burst sizes, values written to CTL. -/
structure Tally where
  writes   : Nat
  reads    : Nat
  sent     : List Byte
  received : List Byte
  sizes    : List Nat
  ctl      : List Word

/-- The tally of a piece of history. -/
def tally (ev : List Event) : Tally :=
  { writes := writeCount ev, reads := readCount ev, sent := sentBytes ev, received := receivedBytes ev, sizes := burstSizes ev,
    ctl := ctlWrites ev }

/-- The tally of an earlier piece and a later one. -/
def Tally.join (a b : Tally) : Tally :=
  { writes := a.writes + b.writes, reads := a.reads + b.reads, sent := a.sent ++ b.sent, received := a.received ++ b.received,
    sizes := a.sizes ++ b.sizes, ctl := a.ctl ++ b.ctl }

/-- The newest event in front adds its own tally at the end. -/
theorem tally_cons (x : Event) (ev : List Event) : tally (x :: ev) = (tally ev).join (tally [x]) := by
  match x with
  | .access off _ .write v =>
    unfold tally Tally.join
    by_cases h : off = offCTL <;>
      simp [writeCount, readCount, sentBytes, receivedBytes, burstSizes, ctlWrites, h]
  | .access _ _ .read _ => simp [tally, Tally.join, writeCount, readCount, sentBytes, receivedBytes, burstSizes, ctlWrites]
  | .burst .. => simp [tally, Tally.join, writeCount, readCount, sentBytes, receivedBytes, burstSizes, ctlWrites]
  | .command .. => simp [tally, Tally.join, writeCount, readCount, sentBytes, receivedBytes, burstSizes, ctlWrites]

theorem Tally.join_assoc (a b c : Tally) : (a.join b).join c = a.join (b.join c) := by
  simp [Tally.join, Nat.add_assoc]

theorem tally_nil_join (a : Tally) : (tally []).join a = a := by
  simp [Tally.join, tally, writeCount, readCount, sentBytes, receivedBytes, burstSizes, ctlWrites]

theorem tally_join_nil (a : Tally) : a.join (tally []) = a := by
  simp [Tally.join, tally, writeCount, readCount, sentBytes, receivedBytes, burstSizes, ctlWrites]

/-- A later piece in front of an earlier one. -/
theorem tally_append (a b : List Event) : tally (a ++ b) = (tally b).join (tally a) := by
  induction a with
  | nil => exact (tally_join_nil _).symm
  | cons x xs ih => rw [List.cons_append, tally_cons, ih, tally_cons x xs, Tally.join_assoc]

/-- From `s` to `t` the history grew by a piece with the tally `n`. -/
def Added (s t : State) (n : Tally) : Prop := ∃ ev, t.history = ev ++ s.history ∧ tally ev = n

theorem Added.refl (s : State) : Added s s (tally []) := ⟨[], rfl, rfl⟩

theorem Added.trans {a b c : State} {m n : Tally} (h : Added a b m) (g : Added b c n) : Added a c (m.join n) := by
  obtain ⟨e, h1, h2⟩ := h
  obtain ⟨f, g1, g2⟩ := g
  exact ⟨f ++ e, by rw [g1, h1, List.append_assoc], by rw [tally_append, h2, g2]⟩

theorem Added.of {s t : State} (ev : List Event) (h : t.history = ev ++ s.history) : Added s t (tally ev) := ⟨ev, h, rfl⟩

/-- From `s` to `t` the history grew by a piece that takes the scan for polls from `x` to `y`. -/
def Scans (s t : State) (x y : PollScan) : Prop := ∃ ev, t.history = ev ++ s.history ∧ ev.foldr pollEvent x = y

theorem Scans.trans {a b c : State} {x y z : PollScan} (h : Scans a b x y) (g : Scans b c y z) : Scans a c x z := by
  obtain ⟨e, h1, h2⟩ := h
  obtain ⟨f, g1, g2⟩ := g
  exact ⟨f ++ e, by rw [g1, h1, List.append_assoc], by rw [List.foldr_append, h2, g2]⟩

theorem Scans.of {s t : State} {x y : PollScan} (ev : List Event) (h : t.history = ev ++ s.history) (e : ev.foldr pollEvent x = y) :
    Scans s t x y := ⟨ev, h, e⟩

/-- A read-modify-write of CTL that starts no burst is no poll. -/
theorem scan_rmw (v : Word) {w : Word} (h : ctlXCH w = false) (l : List Nat) :
    [Event.access offCTL 4 .write w, .access offCTL 4 .read v].foldr pollEvent { polling := false, counts := l } =
      { polling := false, counts := l } :=
  if_neg (by simp [h])

/-- One piece of history has both its tally and its scan. -/
theorem Added.withScan {s t : State} {n : Tally} {x y : PollScan} (h : Added s t n) (g : Scans s t x y) :
    ∃ ev, t.history = ev ++ s.history ∧ tally ev = n ∧ ev.foldr pollEvent x = y := by
  obtain ⟨e, h1, h2⟩ := h
  obtain ⟨f, g1, g2⟩ := g
  have : e = f := List.append_cancel_right (h1.symm.trans g1)
  exact ⟨e, h1, h2, by rw [this, g2]⟩

theorem Added.cast {s t : State} {m n : Tally} (h : Added s t m) (e : m = n) : Added s t n := e ▸ h

end Sys2Proof.Machine
end

