-- ==== Sys2Proof/Laws/Fill.lean ====
section
/-! SUPPORT. The fill of a burst (R196): the bytes it writes to TXD, and the state after it. -/

namespace Sys2Proof.Machine

/-- A tick with no burst in flight is the engine's step alone. -/
theorem tick_quiet {s : State} (h : busy s.blk = false) : tick s = engineStep s := tick_of_turn (shifterTurn_quiet h)

/-- The shifter has no step whatever its schedule (R205): no burst is in flight, or EN is 0. -/
def Still (s : State) : Prop := busy s.blk = false ∨ ctlEN s.blk.ctl = false

/-- A tick in which the shifter has no step is the engine's step alone. -/
theorem tick_still {s : State} (h : Still s) : tick s = engineStep s :=
  tick_of_turn (h.elim shifterTurn_quiet shifterTurn_disabled)

/-- The next `m` bytes a TRANSFER sends: from the transmit buffer, or 0x00 with none (R196). -/
def fillBytes (s : State) (m : Nat) : List Byte :=
  if s.e.txp then (match s.txBuf with | some b => b.slice s.e.ti m | none => []) else List.replicate m 0x00#8

/-- The writes of TXD of a fill, newest first. -/
def fillEvents (bs : List Byte) : List Event := (bs.map (fun b => Event.access offTXD 1 .write (b.setWidth 32))).reverse

/-- The state after `m` bytes of a fill. -/
def afterFill (s : State) (m : Nat) (u : Upc) : State :=
  { s with blk := { s.blk with txFifo := s.blk.txFifo ++ fillBytes s m },
           e := { s.e with ti := s.e.ti + m, k := s.e.k + m, upc := u },
           env := { s.env with now := s.env.now + m },
           history := fillEvents (fillBytes s m) ++ s.history }

theorem slice_length (b : Buffer) (i n : Nat) : (b.slice i n).length = n := by
  induction n generalizing i with
  | zero => rfl
  | succ n ih => simp [Buffer.slice, ih]

theorem fillBytes_length {s : State} (m : Nat) (h : s.e.txp = true → ∃ b, s.txBuf = some b) : (fillBytes s m).length = m := by
  unfold fillBytes
  split
  · next h' => obtain ⟨b, hb⟩ := h h'; rw [hb]; exact slice_length _ _ _
  · simp

theorem tally_fillEvents (bs : List Byte) :
    tally (fillEvents bs) = { writes := bs.length, reads := 0, sent := [], received := [], sizes := [], ctl := [] } := by
  induction bs with
  | nil => rfl
  | cons b bs ih =>
    have : fillEvents (b :: bs) = fillEvents bs ++ [Event.access offTXD 1 .write (b.setWidth 32)] := by simp [fillEvents]
    rw [this, tally_append, ih]
    simp [tally, Tally.join, writeCount, readCount, sentBytes, receivedBytes, burstSizes, ctlWrites, offTXD, offCTL]
    omega

/-- A fill is no poll. -/
theorem scan_fillEvents (bs : List Byte) (l : List Nat) :
    (fillEvents bs).foldr pollEvent { polling := false, counts := l } = { polling := false, counts := l } := by
  induction bs with
  | nil => rfl
  | cons b bs ih =>
    have : fillEvents (b :: bs) = fillEvents bs ++ [Event.access offTXD 1 .write (b.setWidth 32)] := by simp [fillEvents]
    rw [this, List.foldr_append]; exact ih

theorem step_fill {s : State} (hc : s.clkOn = true) (hd : s.blk.txFifo.length < 64)
    (htx : s.e.txp = true → ∃ b, s.txBuf = some b ∧ s.e.ti < b.len) :
    stepTFill s = .next (afterFill s 1 (if s.e.k + 1 = s.e.chunk then .tXchR else .tFill)) := by
  have hb : fillByte s = .next ((fillBytes s 1).headD 0) ∧ ∃ x, fillBytes s 1 = [x] := by
    unfold fillByte fillBytes
    split
    · next h =>
      obtain ⟨b, h1, h2⟩ := htx h
      unfold txByte; rw [h1]; simp [h2, Buffer.slice]
    · simp
  obtain ⟨hb, x, hx⟩ := hb
  unfold stepTFill
  rw [hb, andThen_next, portWrite_txd s _ hc, andThen_next, hx]
  unfold afterFill
  rw [hx]
  simp only [List.headD_cons, record_e, txPush_e]
  rw [txPush_eq, txPush_blk s x (by unfold Config.fifoDepth; omega)]
  rfl

theorem fillBytes_succ (s : State) (m : Nat) (u : Upc) (htx : s.e.txp = true → ∃ b, s.txBuf = some b) :
    fillBytes s (m + 1) = fillBytes s 1 ++ fillBytes (afterFill s 1 u) m := by
  unfold fillBytes afterFill
  split
  · next h =>
    obtain ⟨b, h1⟩ := htx h
    simp [h1, Buffer.slice]
  · simp [List.replicate_succ]

/-- A fill of `m + 1` bytes with a still shifter, room in the TX FIFO and enough bytes in the buffer. -/
theorem run_fill (m j : Nat) : ∀ s : State, s.clkOn = true → Still s → s.e.upc = .tFill → s.e.k + (m + 1) = s.e.chunk →
    s.blk.txFifo.length + (m + 1) ≤ 64 → (s.e.txp = true → ∃ b, s.txBuf = some b ∧ s.e.ti + (m + 1) ≤ b.len) →
    runWhile inFill (m + 1 + j) s = runWhile inFill j (afterFill s (m + 1) .tXchR) := by
  induction m with
  | zero =>
    intro s hc hq hu hk hd htx
    rw [show 0 + 1 + j = j + 1 by omega, runWhile_step (by rw [hu]; rfl), tick_still hq,
      show engineStep s = stepTFill s by unfold engineStep; rw [hu],
      step_fill hc (by omega) (fun h => by obtain ⟨b, h1, h2⟩ := htx h; exact ⟨b, h1, by omega⟩), andThen_next, if_pos (by omega)]
  | succ m ih =>
    intro s hc hq hu hk hd htx
    rw [show m + 1 + 1 + j = (m + 1 + j) + 1 by omega, runWhile_step (by rw [hu]; rfl), tick_still hq,
      show engineStep s = stepTFill s by unfold engineStep; rw [hu],
      step_fill hc (by omega) (fun h => by obtain ⟨b, h1, h2⟩ := htx h; exact ⟨b, h1, by omega⟩), andThen_next, if_neg (by omega)]
    have hl : (fillBytes s 1).length = 1 := fillBytes_length 1 (fun h => by obtain ⟨b, h1, _⟩ := htx h; exact ⟨b, h1⟩)
    rw [ih (afterFill s 1 .tFill) hc hq rfl (by simp [afterFill]; omega) (by simp [afterFill, hl]; omega)
      (fun h => by obtain ⟨b, h1, h2⟩ := htx h; exact ⟨b, h1, by simp [afterFill]; omega⟩)]
    congr 1
    have hs := fillBytes_succ s (m + 1) .tFill (fun h => by obtain ⟨b, h1, h2⟩ := htx h; exact ⟨b, h1⟩)
    conv_rhs => unfold afterFill
    conv_lhs => unfold afterFill
    rw [hs]
    simp only [afterFill, List.append_assoc, fillEvents, List.map_append, List.reverse_append]
    congr 2 <;> omega

end Sys2Proof.Machine
end

