-- ==== Sys2Proof/Laws/Poll.lean ====
section
/-! SUPPORT. The poll loop (R198, R213 to R215): it ends within its bound, either with the burst performed or on the timeout path. -/

namespace Sys2Proof.Machine

/-- What no part of a burst changes. -/
structure Same (s t : State) : Prop where
  cfg : t.cfg = s.cfg
  clk : t.clkOn = s.clkOn
  port : t.port = s.port
  tx : t.txBuf = s.txBuf

theorem Same.refl (s : State) : Same s s := ⟨rfl, rfl, rfl, rfl⟩

theorem Same.trans {a b c : State} (h : Same a b) (g : Same b c) : Same a c :=
  ⟨g.cfg.trans h.cfg, g.clk.trans h.clk, g.port.trans h.port, g.tx.trans h.tx⟩

/-- The tally of `p` polls. -/
def pollTally (p : Nat) : Tally := { writes := 0, reads := p, sent := [], received := [], sizes := [], ctl := [] }

/-- The scan for polls counts `p` polls of the latest burst from `s` to `t`. -/
def PollsIn (s t : State) (p : Nat) : Prop :=
  ∀ k l, Scans s t { polling := true, counts := k :: l } { polling := true, counts := (k + p) :: l }

theorem PollsIn.trans {a b c : State} {p q : Nat} (h : PollsIn a b p) (g : PollsIn b c q) : PollsIn a c (p + q) := fun k l => by
  rw [← Nat.add_assoc]; exact (h k l).trans (g (k + p) l)

/-- Still polling after `p` polls. -/
structure Polling (s t : State) (p : Nat) : Prop where
  same : Same s t
  rx : t.rxBuf = s.rxBuf
  blk : t.blk = s.blk
  e : t.e = { s.e with v := t.e.v }
  slave : t.env.slaveIn = s.env.slaveIn
  added : Added s t (pollTally p)
  scan : PollsIn s t p

/-- The poll loop ended on the timeout path (R213), after at least one poll. -/
structure PollTimeout (s t : State) : Prop where
  same : Same s t
  rx : t.rxBuf = s.rxBuf
  blk : t.blk = s.blk
  e : t.e = { s.e with v := t.e.v, upc := .tToR }
  slave : t.env.slaveIn = s.env.slaveIn
  added : ∃ p, 1 ≤ p ∧ PollsIn s t p ∧ Added s t (pollTally p)
  why : s.cfg.timeoutMode = .fair → shifterEnabled s = false

/-- The poll loop ended after the burst, performed from the block as it was at the start of the loop. -/
structure PollOk (s t : State) : Prop where
  same : Same s t
  rx : t.rxBuf = s.rxBuf
  armed : shifterArmed s = true
  ex : ∃ u, u.blk = s.blk ∧ u.env.slaveIn = s.env.slaveIn ∧ t.blk = (burst u).blk ∧ t.env.slaveIn = (burst u).env.slaveIn ∧
    ∃ p, 1 ≤ p ∧ PollsIn s t p ∧ Added s t
      { writes := 0, reads := p, sent := (byteTimes u.blk.bc.toNat u).1, received := (byteTimes u.blk.bc.toNat u).2.1,
        sizes := [(byteTimes u.blk.bc.toNat u).1.length], ctl := [] }
  e : t.e = { s.e with v := t.e.v, k := 0, upc := .tDrain }

theorem armed_congr {s t : State} (h : t.blk = s.blk) (h2 : t.clkOn = s.clkOn) : shifterArmed t = shifterArmed s := by
  unfold shifterArmed; rw [h, h2]

theorem enabled_congr {s t : State} (h : t.blk = s.blk) (h2 : t.clkOn = s.clkOn) : shifterEnabled t = shifterEnabled s := by
  unfold shifterEnabled; rw [armed_congr h h2, h]

theorem poll_busy {s : State} (hc : s.clkOn = true) (hb : busy s.blk = true) :
    stepTPoll s = .next { (State.record (.access offCTL 4 .read (ctlRead s.blk)) s) with
      e := { s.e with v := ctlRead s.blk, upc := if deadlineExpired s then .tToR else .tPoll },
      env := { s.env with now := s.env.now + 1, pollsLeft := s.env.pollsLeft - 1 } } := by
  unfold stepTPoll
  rw [regRead_ctl s hc, andThen_next]
  have : ctlXCH (ctlRead s.blk) = true := by unfold ctlXCH; rw [ctlRead_bit]; unfold busy ctlXCH at hb; rw [hb]; rfl
  dsimp only
  rw [if_pos this]
  rfl

theorem poll_free {s : State} (hc : s.clkOn = true) (hb : busy s.blk = false) :
    stepTPoll s = .next (State.withEngine (State.record (.access offCTL 4 .read (ctlRead s.blk)) s)
      { s.e with v := ctlRead s.blk, k := 0, upc := .tDrain }) := by
  unfold stepTPoll
  rw [regRead_ctl s hc, andThen_next]
  have : ctlXCH (ctlRead s.blk) = false := by unfold ctlXCH; rw [ctlRead_bit]; unfold busy ctlXCH at hb; rw [hb]; rfl
  dsimp only
  rw [this]
  rfl

/-- Polls before what follows. -/
theorem polling_then {s t u : State} {p : Nat} (h : Polling s t p) :
    (PollTimeout t u → PollTimeout s u) ∧ (PollOk t u → PollOk s u) := by
  constructor
  · intro g
    obtain ⟨q, hq, hs, ha⟩ := g.added
    exact ⟨h.same.trans g.same, g.rx.trans h.rx, g.blk.trans h.blk, by rw [g.e, h.e], g.slave.trans h.slave,
      ⟨p + q, by omega, h.scan.trans hs, (h.added.trans ha).cast (by simp [Tally.join, pollTally])⟩,
      fun hf => by have := g.why (by rw [h.same.cfg]; exact hf); rw [← this]; exact (enabled_congr h.blk h.same.clk).symm⟩
  · intro g
    obtain ⟨x, a, b, c, d, q, hq, hs, ha⟩ := g.ex
    exact ⟨h.same.trans g.same, g.rx.trans h.rx, by rw [← g.armed]; exact (armed_congr h.blk h.same.clk).symm,
      ⟨x, a.trans h.blk, b.trans h.slave, c, d, p + q, by omega, h.scan.trans hs, (h.added.trans ha).cast (by simp [Tally.join, pollTally])⟩,
      by rw [g.e, h.e]⟩

/-- The poll loop ends within its bound (R215). -/
theorem run_poll (N : Nat) : ∀ s : State, s.clkOn = true → busy s.blk = true → s.blk.bc = s.blk.tc → s.e.upc = .tPoll →
    s.env.pollsLeft + s.env.burstDelay.getD 0 + 2 ≤ N →
    ∃ t, runWhile (fun u => u == .tPoll) N s = .next t ∧ (PollOk s t ∨ PollTimeout s t) := by
  induction N with
  | zero => intro s _ _ _ _ h; omega
  | succ N ih =>
    intro s hc hb heq hu hN
    rw [runWhile_step (by rw [hu]; rfl)]
    have core : ∀ s1 : State, Polling s s1 0 → s1.env.pollsLeft = s.env.pollsLeft → shifterTurn s = .next s1 →
        (s1.env.burstDelay.getD 0 + (s.env.pollsLeft - 1) < s.env.burstDelay.getD 0 + s.env.pollsLeft ∨ (deadlineExpired s1 = true)) →
        ∃ t, andThen (tick s) (runWhile (fun u => u == .tPoll) N) = .next t ∧ (PollOk s t ∨ PollTimeout s t) := by
      intro s1 hp hpl ht hm
      have c1 : s1.clkOn = true := by rw [hp.same.clk, hc]
      have b1 : busy s1.blk = true := by rw [hp.blk, hb]
      have u1 : s1.e.upc = .tPoll := by rw [hp.e, ← hu]
      rw [show tick s = engineStep s1 by unfold tick; rw [ht]; rfl, show engineStep s1 = stepTPoll s1 by unfold engineStep; rw [u1],
        poll_busy c1 b1, andThen_next]
      by_cases hx : deadlineExpired s1 = true
      · rw [runWhile_stop (by rw [if_pos hx]; rfl)]
        refine ⟨_, rfl, .inr ((polling_then hp).1 ⟨⟨rfl, rfl, rfl, rfl⟩, rfl, rfl, by rw [if_pos hx], rfl,
          ⟨1, Nat.le_refl 1, fun _ _ => .of [.access offCTL 4 .read (ctlRead s1.blk)] rfl rfl,
            (Added.of [.access offCTL 4 .read (ctlRead s1.blk)] rfl).cast rfl⟩, ?_⟩)⟩
        intro hf
        unfold deadlineExpired at hx; rw [hf] at hx
        simp at hx; exact hx.2
      · rw [if_neg hx]
        have hm := hm.resolve_right hx
        obtain ⟨t, h1, h2⟩ := ih { (State.record (.access offCTL 4 .read (ctlRead s1.blk)) s1) with
            e := { s1.e with v := ctlRead s1.blk, upc := .tPoll },
            env := { s1.env with now := s1.env.now + 1, pollsLeft := s1.env.pollsLeft - 1 } } c1 b1
          (by show s1.blk.bc = s1.blk.tc; rw [hp.blk]; exact heq) rfl (by simp [hpl]; omega)
        refine ⟨t, h1, ?_⟩
        have hp2 : Polling s1 { (State.record (.access offCTL 4 .read (ctlRead s1.blk)) s1) with
            e := { s1.e with v := ctlRead s1.blk, upc := .tPoll },
            env := { s1.env with now := s1.env.now + 1, pollsLeft := s1.env.pollsLeft - 1 } } 1 :=
          ⟨⟨rfl, rfl, rfl, rfl⟩, rfl, rfl, by simp [u1], rfl, (Added.of [.access offCTL 4 .read (ctlRead s1.blk)] rfl).cast rfl,
            fun _ _ => .of [.access offCTL 4 .read (ctlRead s1.blk)] rfl rfl⟩
        rcases h2 with h2 | h2
        · exact .inl ((polling_then hp).2 ((polling_then hp2).2 h2))
        · exact .inr ((polling_then hp).1 ((polling_then hp2).1 h2))
    have prefl : Polling s s 0 := ⟨Same.refl s, rfl, rfl, rfl, rfl, (Added.refl s).cast rfl, fun _ _ => .of [] rfl rfl⟩
    by_cases ha : shifterArmed s = true
    · cases htl : turnsLeft s with
      | none =>
        have ht : shifterTurn s = .next s := by unfold shifterTurn; rw [if_pos ha, htl]
        refine core s prefl rfl ht ?_
        have hfree : s.cfg.timeoutMode = .free ∧ s.env.burstDelay = none := by
          unfold turnsLeft at htl
          split at htl
          · cases htl
          · next h => refine ⟨?_, htl⟩; cases hm : s.cfg.timeoutMode with | free => rfl | fair => exact absurd htl (h hm)
        rcases Nat.eq_zero_or_pos s.env.pollsLeft with h0 | h0
        · right; unfold deadlineExpired; rw [h0, hfree.1]; rfl
        · left; omega
      | some d =>
        cases d with
        | zero =>
          have ht : shifterTurn s = .next (burst s) := by unfold shifterTurn; rw [if_pos ha, htl]; simp [heq]
          rw [show tick s = engineStep (burst s) by unfold tick; rw [ht]; rfl,
            show engineStep (burst s) = stepTPoll (burst s) by unfold engineStep; rw [burst_e, hu],
            poll_free (by simp [hc]) (by unfold busy ctlXCH; rw [burst_ctl, clearXch_bit]; simp), andThen_next, runWhile_stop rfl]
          refine ⟨_, rfl, .inl ⟨⟨by simp, by simp, by simp, by simp⟩, by simp, ha,
            ⟨s, rfl, rfl, rfl, rfl, 1, Nat.le_refl 1, fun _ _ => .of [.access offCTL 4 .read (ctlRead (burst s).blk),
              .burst (byteTimes s.blk.bc.toNat s).1 (byteTimes s.blk.bc.toNat s).2.1] (by simp [burst_history]) rfl, ?_⟩, by simp⟩⟩
          refine (Added.of [.access offCTL 4 .read (ctlRead (burst s).blk),
            .burst (byteTimes s.blk.bc.toNat s).1 (byteTimes s.blk.bc.toNat s).2.1] ?_).cast rfl
          simp [burst_history]
        | succ n =>
          have ht : shifterTurn s = .next { s with env := { s.env with burstDelay := some n } } := by
            unfold shifterTurn; rw [if_pos ha, htl]
          have hd : s.env.burstDelay = some (n + 1) := by
            unfold turnsLeft at htl
            split at htl
            · cases htl
            · exact htl
          refine core { s with env := { s.env with burstDelay := some n } }
            ⟨⟨rfl, rfl, rfl, rfl⟩, rfl, rfl, rfl, rfl, (Added.of [] rfl).cast rfl, fun _ _ => .of [] rfl rfl⟩ rfl ht (.inl ?_)
          rw [hd]; simp; omega
    · have ht : shifterTurn s = .next s := by unfold shifterTurn; rw [if_neg ha]
      refine core s prefl rfl ht ?_
      rcases Nat.eq_zero_or_pos s.env.pollsLeft with h0 | h0
      · right; unfold deadlineExpired shifterEnabled; rw [h0]; simp [ha]
      · left; omega

end Sys2Proof.Machine
end

