-- ==== Sys2Proof/Laws/Drain.lean ====
section
/-! SUPPORT. The drain of a burst (R200, R201): the bytes it reads from RXD and stores, and the state after it. -/

namespace Sys2Proof.Machine

/-- A buffer after a run of bytes stored from index `i` on. -/
def writeAll (b : Buffer) (i : Nat) : List Byte → Buffer
  | [] => b
  | x :: xs => writeAll (b.write i x) (i+1) xs

/-- The reads of RXD of a drain, newest first. -/
def drainEvents (bs : List Byte) : List Event := (bs.map (fun b => Event.access offRXD 1 .read (b.setWidth 32))).reverse

/-- The state after the bytes `xs` of a drain, `rest` left in the RX FIFO. -/
def drained (s : State) (xs rest : List Byte) : State :=
  { s with blk := { s.blk with rxFifo := rest }, rxBuf := if s.e.rxp then s.rxBuf.map (fun b => writeAll b s.e.ri xs) else s.rxBuf,
           e := { s.e with ri := s.e.ri + xs.length, k := s.e.k + xs.length }, env := { s.env with now := s.env.now + xs.length },
           history := drainEvents xs ++ s.history }

theorem step_drain {s : State} {x xs} (hc : s.clkOn = true) (hf : s.blk.rxFifo = x :: xs) (hrx : s.e.rxp = true → ∃ b, s.rxBuf = some b ∧ s.e.ri < b.len) :
    stepTDrain s = .next (let s1 := drained s [x] xs; if s1.e.k = s1.e.chunk then enterLoop (s1.withEngine { s1.e with rem := s1.e.rem - s1.e.chunk, upc := .tLoop }) else s1) := by
  unfold stepTDrain
  rw [portRead_rxd s hc, andThen_next]
  have hp : rxPop s = (x, { s with blk := { s.blk with rxFifo := xs } }) := by unfold rxPop; rw [hf]
  rw [hp]
  dsimp only
  have hk : keepByte x (State.record (.access offRXD 1 .read (x.setWidth 32)) { s with blk := { s.blk with rxFifo := xs } }) =
     .next { (State.record (.access offRXD 1 .read (x.setWidth 32)) { s with blk := { s.blk with rxFifo := xs } }) with rxBuf := if s.e.rxp then s.rxBuf.map (fun b => writeAll b s.e.ri [x]) else s.rxBuf } := by
    unfold keepByte
    split
    · next h =>
      obtain ⟨b, h1, h2⟩ := hrx h
      have h : s.e.rxp = true := h
      rw [h]
      unfold rxByteStore
      simp only [record_rxBuf, record_e]
      rw [h1]; simp only [Option.map_some, if_true, writeAll]; exact (if_pos h2).trans rfl
    · next h =>
      have h : ¬ s.e.rxp = true := h
      rw [if_neg h]; rfl
  rw [hk, andThen_next]
  rfl

theorem drained_cons (s : State) (x : Byte) (xs rest : List Byte) : drained (drained s [x] (xs ++ rest)) xs rest = drained s (x :: xs) rest := by
  unfold drained
  simp only [List.length_cons, List.length_nil, drainEvents, List.map_cons, List.map_nil, List.reverse_cons, List.append_assoc, List.reverse_nil, List.nil_append, List.singleton_append]
  have h0 : ∀ a n : Nat, a + (0 + 1) + n = a + (n + 1) := by intros; omega
  rw [h0, h0, h0]
  congr 1
  split
  · cases s.rxBuf <;> rfl
  · rfl

/-- A drain of the bytes `x0 :: ins` with no burst in flight and room in the buffer. -/
theorem run_drain (ins : List Byte) (x0 : Byte) : ∀ s : State, s.clkOn = true → busy s.blk = false → s.e.upc = .tDrain → s.blk.rxFifo = x0 :: ins → s.e.k + (ins.length + 1) = s.e.chunk →
   (s.e.rxp = true → ∃ b, s.rxBuf = some b ∧ s.e.ri + (ins.length + 1) ≤ b.len) →
   runWhile (fun u => u == .tDrain) (ins.length + 1) s = runWhile (fun u => u == .tDrain) 0 (let s1 := drained s (x0 :: ins) []; enterLoop (s1.withEngine { s1.e with rem := s1.e.rem - s1.e.chunk, upc := .tLoop })) := by
  induction ins generalizing x0 with
  | nil =>
    intro s hc hq hu hf hk hrx
    rw [runWhile_step (by rw [hu]; rfl), tick_quiet hq, show engineStep s = stepTDrain s by unfold engineStep; rw [hu],
      step_drain hc hf (fun h => by obtain ⟨b, h1, h2⟩ := hrx h; exact ⟨b, h1, by omega⟩), andThen_next]
    dsimp only
    rw [if_pos (by simp [drained] at *; omega)]
    rfl
  | cons y ys ih =>
    intro s hc hq hu hf hk hrx
    simp only [List.length_cons] at hk hrx
    rw [List.length_cons, runWhile_step (by rw [hu]; rfl), tick_quiet hq, show engineStep s = stepTDrain s by unfold engineStep; rw [hu],
      step_drain hc hf (fun h => by obtain ⟨b, h1, h2⟩ := hrx h; exact ⟨b, h1, by omega⟩), andThen_next]
    dsimp only
    rw [if_neg (by simp [drained] at *; omega)]
    rw [ih y (drained s [x0] (y :: ys)) hc hq hu rfl (by simp [drained] at *; omega) (by
      intro h; obtain ⟨b, h1, h2⟩ := hrx h
      have h' : s.e.rxp = true := h
      refine ⟨b.write s.e.ri x0, by simp [drained, h', h1, writeAll], ?_⟩
      simp [drained]; omega)]
    dsimp only
    have := drained_cons s x0 (y :: ys) []
    rw [List.append_nil] at this
    rw [this]

theorem tally_drainEvents (bs : List Byte) :
    tally (drainEvents bs) = { writes := 0, reads := bs.length, sent := [], received := [], sizes := [], ctl := [] } := by
  induction bs with
  | nil => rfl
  | cons b bs ih =>
    have : drainEvents (b :: bs) = drainEvents bs ++ [Event.access offRXD 1 .read (b.setWidth 32)] := by simp [drainEvents]
    rw [this, tally_append, ih]
    simp [tally, Tally.join, writeCount, readCount, sentBytes, receivedBytes, burstSizes, ctlWrites]
    omega

/-- The drain of at least one byte ends the polls. -/
theorem scan_drainEvents (b : Byte) (bs : List Byte) (x : PollScan) : (drainEvents (b :: bs)).foldr pollEvent x = x.close := by
  have : ∀ (bs : List Byte) (x : PollScan), x.polling = false → (drainEvents bs).foldr pollEvent x = x := by
    intro bs
    induction bs with
    | nil => intros; rfl
    | cons b bs ih =>
      intro x hx
      rw [show drainEvents (b :: bs) = drainEvents bs ++ [Event.access offRXD 1 .read (b.setWidth 32)] by simp [drainEvents],
        List.foldr_append]
      have : [Event.access offRXD 1 .read (b.setWidth 32)].foldr pollEvent x = x := by
        cases x; cases hx; rfl
      rw [this]; exact ih x hx
  rw [show drainEvents (b :: bs) = drainEvents bs ++ [Event.access offRXD 1 .read (b.setWidth 32)] by simp [drainEvents],
    List.foldr_append]
  exact this bs _ rfl

theorem writeAll_len (xs : List Byte) : ∀ (b : Buffer) (i : Nat), (writeAll b i xs).len = b.len := by
  induction xs with
  | nil => intros; rfl
  | cons x xs ih => intro b i; rw [writeAll, ih]; rfl

end Sys2Proof.Machine
end

