-- ==== Sys2Proof/Laws/Burst.lean ====
section
/-! SUPPORT. One burst of a TRANSFER (R194 to R201) from the head of the loop body: the start, the poll, the drain, and what it leaves. -/

namespace Sys2Proof.Machine

/-- A state at the head of the chunk loop's body where the shifter has no step: both FIFOs empty (R217), the chunk chosen (R194), the buffers
long enough. -/
structure Head (s : State) : Prop where
  clk : s.clkOn = true
  still : Still s
  upc : s.e.upc = .tBc
  chunk : s.e.chunk = min s.e.rem 63
  pos : 1 ≤ s.e.rem
  k : s.e.k = 0
  tx : s.blk.txFifo = []
  rx : s.blk.rxFifo = []
  txr : s.e.txp = true → ∃ b, s.txBuf = some b ∧ s.e.ti + s.e.rem ≤ b.len
  rxr : s.e.rxp = true → ∃ b, s.rxBuf = some b ∧ s.e.ri + s.e.rem ≤ b.len

/-- CTL reads the same but for XCH. -/
def ctlSame (s t : State) : Prop := ∀ j, j ≠ 10 → (ctlRead t.blk).getLsbD j = (ctlRead s.blk).getLsbD j

/-- What a fill and the start of the burst have done (R195 to R197). -/
structure Started (s t : State) : Prop where
  same : Same s t
  rxb : t.rxBuf = s.rxBuf
  blk : t.blk = { s.blk with ctl := t.blk.ctl, bc := BitVec.ofNat 24 s.e.chunk, tc := BitVec.ofNat 24 s.e.chunk, txFifo := fillBytes s s.e.chunk, rxFifo := [] }
  ctl : ctlSame s t
  busy : busy t.blk = true
  e : t.e = { s.e with v := t.e.v, k := s.e.chunk, ti := s.e.ti + s.e.chunk, upc := .tPoll }
  slave : t.env.slaveIn = s.env.slaveIn
  added : Added s t
    { writes := s.e.chunk + 3, reads := 1, sent := [], received := [], sizes := [], ctl := [ctlRead s.blk ||| maskXCH] }
  scan : ∀ l, Scans s t { polling := false, counts := l } { polling := true, counts := 0 :: l }

/-- The counters, the fill and the start of the burst. -/
theorem run_start {s : State} (h : Head s) : ∃ t, runWhile inFill (s.e.chunk + 4) s = .next t ∧ Started s t := by
  have hch : 1 ≤ s.e.chunk ∧ s.e.chunk ≤ 63 ∧ s.e.chunk ≤ s.e.rem := by have := h.chunk; have := h.pos; omega
  -- T_BC
  set s1 := State.goto .tTc (State.record (.access offBC 4 .write (countWord s.e.chunk)) { s with blk := { s.blk with bc := (countWord s.e.chunk).setWidth 24 } }) with hs1
  have t1 : tick s = .next s1 := by
    rw [tick_still h.still, show engineStep s = stepTBc s by unfold engineStep; rw [h.upc]]
    unfold stepTBc writeThen; rw [regWrite_bc s _ h.clk]; rfl
  set s2 := State.goto .tFill (State.record (.access offTC 4 .write (countWord s.e.chunk)) { s1 with blk := { s1.blk with tc := (countWord s.e.chunk).setWidth 24 } }) with hs2
  have t2 : tick s1 = .next s2 := by
    rw [tick_still (s := s1) h.still, show engineStep s1 = stepTTc s1 from rfl]
    unfold stepTTc writeThen; rw [regWrite_tc s1 _ h.clk]; rfl
  rw [show s.e.chunk + 4 = ((s.e.chunk - 1) + 1 + 2) + 1 + 1 by omega, runWhile_step (by rw [h.upc]; rfl), t1, andThen_next, runWhile_step rfl, t2, andThen_next]
  have fe : ∀ m, fillBytes s2 m = fillBytes s m := fun m => rfl
  rw [run_fill (s.e.chunk - 1) 2 s2 h.clk h.still rfl (by show s.e.k + _ = s.e.chunk; rw [h.k]; omega) (by show s.blk.txFifo.length + _ ≤ 64; rw [h.tx]; simp; omega)
    (fun ht => by obtain ⟨b, h1, h2⟩ := h.txr ht; exact ⟨b, h1, by show s.e.ti + _ ≤ _; omega⟩)]
  rw [show s.e.chunk - 1 + 1 = s.e.chunk by omega]
  set s3 := afterFill s2 s.e.chunk .tXchR with hs3
  have c3 : s3.clkOn = true := h.clk
  have q3 : Still s3 := h.still
  have t3 := readInto_ctl s3 .tXchW c3
  rw [runWhile_step rfl, tick_still q3, show engineStep s3 = readInto offCTL .tXchW s3 from rfl, t3, andThen_next]
  set s4 := State.withEngine (s3.record (.access offCTL 4 .read (ctlRead s3.blk))) { s3.e with v := ctlRead s3.blk, upc := .tXchW } with hs4
  have t4 := regWrite_ctl s4 (s4.e.v ||| maskXCH) c3
  rw [runWhile_step rfl, tick_still (s := s4) q3, show engineStep s4 = stepTXchW s4 from rfl]
  unfold stepTXchW
  rw [t4, andThen_next, andThen_next, runWhile_stop rfl]
  have n8 : (s4.e.v ||| maskXCH).getLsbD 8 = false := by
    show (ctlRead s.blk ||| maskXCH).getLsbD 8 = false
    rw [BitVec.getLsbD_or, ctlRead_bit]; simp [maskXCH]
  have n9 : (s4.e.v ||| maskXCH).getLsbD 9 = false := by
    show (ctlRead s.blk ||| maskXCH).getLsbD 9 = false
    rw [BitVec.getLsbD_or, ctlRead_bit]; simp [maskXCH]
  have hl := fillBytes_length (s := s) s.e.chunk (fun ht => by obtain ⟨b, h1, _⟩ := h.txr ht; exact ⟨b, h1⟩)
  refine ⟨_, rfl, ?_⟩
  have hblk : ∀ u : Upc, (State.goto u (armDeadline ((ctlWrite (s4.e.v ||| maskXCH) s4).record (.access offCTL 4 .write (s4.e.v ||| maskXCH))))).blk = ctlWriteBlock s4.blk (s4.e.v ||| maskXCH) := by
    intro u; simp
  constructor
  · exact ⟨by simp; rfl, by simp; rfl, by simp; rfl, by simp; rfl⟩
  · simp; rfl
  · rw [hblk, ctlWriteBlock_plain n8 n9]
    show ({ s.blk with ctl := _, bc := (countWord s.e.chunk).setWidth 24, tc := (countWord s.e.chunk).setWidth 24, txFifo := s.blk.txFifo ++ fillBytes s s.e.chunk } : Block) = _
    rw [h.tx]
    have : (countWord s.e.chunk).setWidth 24 = BitVec.ofNat 24 s.e.chunk := by
      unfold countWord; apply BitVec.eq_of_toNat_eq; simp
    rw [this]
    simp only [List.nil_append]
    rw [h.rx]
  · intro j hj
    rw [hblk, ctlRead_after_write n8 n9 hj]
    show (ctlRead s.blk ||| maskXCH).getLsbD j = _
    rw [BitVec.getLsbD_or]
    have : maskXCH.getLsbD j = false := by
      unfold maskXCH
      rw [show (0x400#32) = BitVec.twoPow 32 10 by decide, BitVec.getLsbD_twoPow]; simp; omega
    rw [this, Bool.or_false]
  · rw [hblk, busy_after_write]
    have : ctlXCH (s4.e.v ||| maskXCH) = true := by
      unfold ctlXCH; rw [BitVec.getLsbD_or]; simp [maskXCH]
    rw [this]; rfl
  · simp only [goto_e, armDeadline_e, record_e, ctlWrite_e]
    show ({ s.e with v := _, ti := s.e.ti + s.e.chunk, k := s.e.k + s.e.chunk, upc := .tPoll } : Engine) = _
    rw [h.k, Nat.zero_add]
  · simp; rfl
  · refine (Added.of ([.access offCTL 4 .write (s4.e.v ||| maskXCH), .access offCTL 4 .read (ctlRead s3.blk)] ++
      (fillEvents (fillBytes s s.e.chunk) ++ [.access offTC 4 .write (countWord s.e.chunk), .access offBC 4 .write (countWord s.e.chunk)])) ?_).cast ?_
    · simp; rfl
    · rw [tally_append, tally_append, tally_fillEvents, hl]
      simp [tally, Tally.join, writeCount, readCount, sentBytes, receivedBytes, burstSizes, ctlWrites, offTC, offBC, offCTL]
      exact ⟨by omega, rfl⟩
  · intro l
    refine .of ([.access offCTL 4 .write (s4.e.v ||| maskXCH), .access offCTL 4 .read (ctlRead s3.blk)] ++
      (fillEvents (fillBytes s s.e.chunk) ++ [.access offTC 4 .write (countWord s.e.chunk), .access offBC 4 .write (countWord s.e.chunk)])) ?_ ?_
    · simp; rfl
    · have hx : ctlXCH (s4.e.v ||| maskXCH) = true := by
        unfold ctlXCH; rw [BitVec.getLsbD_or]; simp [maskXCH]
      rw [List.foldr_append, List.foldr_append,
        show [Event.access offTC 4 .write (countWord s.e.chunk), .access offBC 4 .write (countWord s.e.chunk)].foldr pollEvent
          { polling := false, counts := l } = { polling := false, counts := l } from rfl, scan_fillEvents]
      show pollEvent (.access offCTL 4 .write (s4.e.v ||| maskXCH)) { polling := false, counts := l } = _
      exact if_pos ⟨rfl, hx⟩

/-- What a burst that completes has done by the loop test (R206, R217, R200, R201), with the in bytes `ins`. -/
structure BurstOk (s m : State) (ins : List Byte) : Prop where
  same : Same s m
  rxb : m.rxBuf = if s.e.rxp then s.rxBuf.map (fun b => writeAll b s.e.ri ins) else s.rxBuf
  blk : m.blk = { s.blk with ctl := m.blk.ctl, bc := BitVec.ofNat 24 s.e.chunk, tc := BitVec.ofNat 24 s.e.chunk, txFifo := [],
                             rxFifo := [] }
  ctl : ctlSame s m
  quiet : busy m.blk = false
  e : m.e = { s.e with v := m.e.v, k := s.e.chunk, ti := s.e.ti + s.e.chunk, ri := s.e.ri + s.e.chunk, rem := s.e.rem - s.e.chunk, upc := .tLoop }
  len : ins.length = s.e.chunk
  added : ∃ p, 1 ≤ p ∧ (∀ l, Scans s m { polling := false, counts := l } { polling := false, counts := p :: l }) ∧ Added s m
    { writes := s.e.chunk + 3, reads := 1 + p + s.e.chunk, sent := fillBytes s s.e.chunk, received := ins, sizes := [s.e.chunk],
      ctl := [ctlRead s.blk ||| maskXCH] }
  slave : s.e.chunk ≤ s.env.slaveIn.length → ins = s.env.slaveIn.take s.e.chunk ∧ m.env.slaveIn = s.env.slaveIn.drop s.e.chunk
  armed : ctlEN s.blk.ctl = true ∧ ctlMASTER s.blk.ctl = true

/-- What a burst that times out has done by the timeout path (R213, R220). -/
structure BurstTo (s t : State) : Prop where
  same : Same s t
  rxb : t.rxBuf = s.rxBuf
  blk : t.blk = { s.blk with ctl := t.blk.ctl, bc := BitVec.ofNat 24 s.e.chunk, tc := BitVec.ofNat 24 s.e.chunk, txFifo := fillBytes s s.e.chunk, rxFifo := [] }
  ctl : ctlSame s t
  busy : Machine.busy t.blk = true
  e : t.e = { s.e with v := t.e.v, k := s.e.chunk, ti := s.e.ti + s.e.chunk, upc := .tToR }
  slave : t.env.slaveIn = s.env.slaveIn
  added : ∃ p, 1 ≤ p ∧ Added s t
    { writes := s.e.chunk + 3, reads := 1 + p, sent := [], received := [], sizes := [], ctl := [ctlRead s.blk ||| maskXCH] }
  why : s.cfg.timeoutMode = .fair → ¬ (ctlEN s.blk.ctl = true ∧ ctlMASTER s.blk.ctl = true)

/-- One burst of a TRANSFER, from the head of the loop body. -/
theorem run_burst {s : State} (h : Head s) : ∃ t, runBurst s = .next t ∧ ((∃ m ins, t = enterLoop m ∧ BurstOk s m ins) ∨ BurstTo s t) := by
  have hch : 1 ≤ s.e.chunk ∧ s.e.chunk ≤ 63 ∧ s.e.chunk ≤ s.e.rem := by have := h.chunk; have := h.pos; omega
  obtain ⟨p, hp, sp⟩ := run_start h
  have pc : p.clkOn = true := by rw [sp.same.clk, h.clk]
  have pe : p.blk.bc = p.blk.tc := by rw [sp.blk]
  have pu : p.e.upc = .tPoll := by rw [sp.e]
  obtain ⟨q, hq, sq⟩ := run_poll (pollBound p) p pc sp.busy pe pu (by unfold pollBound; omega)
  have hl := fillBytes_length (s := s) s.e.chunk (fun ht => by obtain ⟨b, h1, _⟩ := h.txr ht; exact ⟨b, h1⟩)
  have hr : runBurst s = runWhile (fun u => u == .tDrain) q.e.chunk q := by
    unfold runBurst; rw [hp, andThen_next, hq, andThen_next]
  have bits : ∀ j, j ≠ 10 → j ≠ 8 → j ≠ 9 → p.blk.ctl.getLsbD j = s.blk.ctl.getLsbD j := by
    intro j a b c; have := sp.ctl j a; rw [ctlRead_bit, ctlRead_bit] at this; rw [beq_eq_false_iff_ne.mpr b, beq_eq_false_iff_ne.mpr c] at this; simpa using this
  rcases sq with sq | sq
  · have qe : q.e = { s.e with v := q.e.v, k := 0, ti := s.e.ti + s.e.chunk, upc := .tDrain } := by rw [sq.e, sp.e]
    obtain ⟨u, u1, u2, u3, u4, np, hnp, ups, u5⟩ := sq.ex
    have ubc : u.blk.bc.toNat = s.e.chunk := by rw [u1, sp.blk]; simp; omega
    have utx : u.blk.txFifo = fillBytes s s.e.chunk := by rw [u1, sp.blk]
    have urx : u.blk.rxFifo = [] := by rw [u1, sp.blk]
    have bf := byteTimes_filled s.e.chunk u (by rw [utx, hl]) (by rw [urx]; simp [Config.fifoDepth]; omega)
    rw [ubc] at u5
    obtain ⟨b1, b2, b3, b4⟩ := bf
    generalize hins : (byteTimes s.e.chunk u).2.1 = ins at b2 b4 u5
    have qrx : q.blk.rxFifo = ins := by rw [u3, burst_rxFifo, ubc, b4, urx]; rfl
    have qtx : q.blk.txFifo = [] := by rw [u3, burst_txFifo, ubc, b3, utx]; exact List.drop_eq_nil_of_le (by rw [hl])
    have qctl : q.blk.ctl = p.blk.ctl &&& ~~~maskXCH := by rw [u3, burst_ctl, u1]
    have qq : Machine.busy q.blk = false := by unfold Machine.busy ctlXCH; rw [qctl, clearXch_bit]; simp
    have qc : q.clkOn = true := by rw [sq.same.clk, pc]
    have qregs : q.blk = { s.blk with ctl := q.blk.ctl, bc := BitVec.ofNat 24 s.e.chunk, tc := BitVec.ofNat 24 s.e.chunk, txFifo := [], rxFifo := ins } := by
      have : q.blk = { p.blk with ctl := q.blk.ctl, txFifo := q.blk.txFifo, rxFifo := q.blk.rxFifo } := by
        rw [u3, burst_eq, u1]
      rw [qrx, qtx, sp.blk] at this
      rw [this]
    have qcs : ctlSame s q := by
      intro j hj
      rw [← sp.ctl j hj, ctlRead_bit, ctlRead_bit, qctl, clearXch_bit, beq_eq_false_iff_ne.mpr hj]; simp
    obtain ⟨x0, xs, hx⟩ : ∃ x0 xs, ins = x0 :: xs := by
      cases ins with
      | nil => simp at b2; omega
      | cons a b => exact ⟨a, b, rfl⟩
    have hlen : xs.length + 1 = s.e.chunk := by rw [← b2, hx]; rfl
    have qch : q.e.chunk = xs.length + 1 := by rw [qe, hlen]
    have hd := run_drain xs x0 q qc qq (by rw [qe]) (by rw [qrx, hx]) (by rw [qe]; simp; omega)
      (fun hh => by
        have hh' : s.e.rxp = true := by rw [qe] at hh; exact hh
        obtain ⟨b, r1, r2⟩ := h.rxr hh'
        refine ⟨b, by rw [sq.rx, sp.rxb, r1], ?_⟩
        rw [qe]; simp; omega)
    rw [hr, qch, hd]
    refine ⟨_, rfl, .inl ⟨_, ins, rfl, ?_⟩⟩
    rw [← hx]
    constructor
    · exact (sp.same.trans sq.same).trans ⟨rfl, rfl, rfl, rfl⟩
    · show (if q.e.rxp then q.rxBuf.map (fun b => writeAll b q.e.ri ins) else q.rxBuf) = _
      rw [sq.rx, sp.rxb, qe]
    · show ({ q.blk with rxFifo := [] } : Block) = { s.blk with ctl := q.blk.ctl, bc := BitVec.ofNat 24 s.e.chunk, tc := BitVec.ofNat 24 s.e.chunk, txFifo := [], rxFifo := [] }
      rw [qregs]
    · exact qcs
    · exact qq
    · show ({ q.e with ri := q.e.ri + ins.length, k := q.e.k + ins.length, rem := q.e.rem - q.e.chunk, upc := .tLoop } : Engine) = _
      rw [b2]
      conv_lhs => rw [qe]
      simp
      rfl
    · exact b2
    · have e3 : Added q (drained q ins []) (tally (drainEvents ins)) := Added.of (drainEvents ins) rfl
      rw [tally_drainEvents] at e3
      have hk : Added s (drained q ins []) _ := (sp.added.trans u5).trans e3
      refine ⟨np, hnp, fun l => ?_, ?_⟩
      · have := (sp.scan l).trans (ups 0 l)
        rw [Nat.zero_add] at this
        exact this.trans (.of (drainEvents ins) rfl (by rw [hx]; exact scan_drainEvents _ _ _))
      obtain ⟨ev, g1, g2⟩ := hk
      refine ⟨ev, g1, g2.trans ?_⟩
      rw [b1, utx, List.take_of_length_le (by rw [hl])]
      simp [Tally.join, hl, b2]
    · intro hs
      have := byteTimes_slave s.e.chunk u (by rw [u2, sp.slave]; exact hs)
      rw [hins, u2, sp.slave] at this
      refine ⟨this.1, ?_⟩
      show q.env.slaveIn = _
      rw [u4]
      have : (burst u).env.slaveIn = (byteTimes u.blk.bc.toNat u).2.2.env.slaveIn := rfl
      rw [this, ubc]; rename_i t; exact t.2
    · have := sq.armed
      unfold shifterArmed ctlEN ctlMASTER at this
      simp only [Bool.and_eq_true] at this
      rw [bits 0 (by decide) (by decide) (by decide), bits 1 (by decide) (by decide) (by decide)] at this
      exact ⟨this.1.1.2, this.1.2⟩
  · have qe : q.e = { s.e with v := q.e.v, k := s.e.chunk, ti := s.e.ti + s.e.chunk, upc := .tToR } := by rw [sq.e, sp.e]
    rw [hr, runWhile_stop (by rw [qe]; rfl)]
    refine ⟨q, rfl, .inr ?_⟩
    constructor
    · exact sp.same.trans sq.same
    · rw [sq.rx, sp.rxb]
    · rw [sq.blk]; exact sp.blk
    · intro j hj; rw [sq.blk]; exact sp.ctl j hj
    · rw [sq.blk]; exact sp.busy
    · exact qe
    · rw [sq.slave, sp.slave]
    · obtain ⟨np, hnp, _, ha⟩ := sq.added
      exact ⟨np, hnp, (sp.added.trans ha).cast (by simp [Tally.join, pollTally])⟩
    · intro hf ⟨e1, e2⟩
      have := sq.why (by rw [sp.same.cfg]; exact hf)
      have b0 : ctlEN p.blk.ctl = true := by unfold ctlEN; rw [bits 0 (by decide) (by decide) (by decide)]; exact e1
      have b1 : ctlMASTER p.blk.ctl = true := by unfold ctlMASTER; rw [bits 1 (by decide) (by decide) (by decide)]; exact e2
      have b2 : ctlXCH p.blk.ctl = true := sp.busy
      unfold shifterEnabled shifterArmed at this
      rw [b0, b1, b2, pc, pe] at this
      simp at this

end Sys2Proof.Machine
end

