-- ==== Sys2Proof/Laws/Divisor.lean ====
section
/-! SUPPORT. The fields of the CCTL value SET_SPEED writes (R147), and the clamp of R140. -/

namespace Sys2Proof.Machine

theorem cctlCDR2_schemeA (v : Word) (d : Nat) : cctlCDR2 (cctlValue v (.a, d)) = BitVec.ofNat 8 d := by
  ext j hj; interval_cases j <;> simp [cctlCDR2, cctlValue, maskCDR2, maskDRS]

theorem cctlCDR1_schemeA (v : Word) (d : Nat) : cctlCDR1 (cctlValue v (.a, d)) = cctlCDR1 v := by
  ext j hj; interval_cases j <;> simp [cctlCDR1, cctlValue, maskCDR2, maskDRS]

theorem cctlDRS_schemeA (v : Word) (d : Nat) : cctlDRS (cctlValue v (.a, d)) = true := by
  simp [cctlDRS, cctlValue, maskCDR2, maskDRS]

theorem cctlCDR1_schemeB (v : Word) (d : Nat) : cctlCDR1 (cctlValue v (.b, d)) = BitVec.ofNat 4 d := by
  ext j hj; interval_cases j <;> simp [cctlCDR1, cctlValue, maskCDR1, maskDRS]

theorem cctlCDR2_schemeB (v : Word) (d : Nat) : cctlCDR2 (cctlValue v (.b, d)) = cctlCDR2 v := by
  ext j hj; interval_cases j <;> simp [cctlCDR2, cctlValue, maskCDR1, maskDRS]

theorem cctlDRS_schemeB (v : Word) (d : Nat) : cctlDRS (cctlValue v (.b, d)) = false := by
  simp [cctlDRS, cctlValue, maskCDR1, maskDRS]

/-- The bits no field of CCTL names are kept, whatever the scheme. -/
theorem cctlOther_kept (v : Word) (x : Scheme × Nat) : cctlValue v x &&& maskCctlOther = v &&& maskCctlOther := by
  obtain ⟨c, d⟩ := x
  cases c <;> ext j hj <;> interval_cases j <;> simp [cctlValue, maskCDR1, maskCDR2, maskDRS, maskCctlOther]

/-- A clamped rate lies between the floor and the maximum, and fits 32 bits (R13). -/
theorem clamp_range {p : Config.Params} (hv : p.valid = true) (hz : Nat) :
    1 ≤ clampHz p hz ∧ clampHz p hz ≤ p.maxHz ∧ p.minHz ≤ clampHz p hz ∧ clampHz p hz < 2 ^ 32 := by
  simp [Config.Params.valid] at hv
  unfold clampHz
  omega

theorem clamp_idem {p : Config.Params} (hv : p.valid = true) (hz : Nat) : clampHz p (clampHz p hz) = clampHz p hz := by
  simp [Config.Params.valid] at hv
  unfold clampHz
  omega

end Sys2Proof.Machine
end

