-- ==== Sys2Proof/Laws/Loop.lean ====
section
/-! SUPPORT. The bursts of a TRANSFER (R194, R216): from the head of the chunk loop to its end or to the timeout path. -/

namespace Sys2Proof.Machine

theorem slice_add (b : Buffer) (n m i : Nat) : b.slice i (n + m) = b.slice i n ++ b.slice (i + n) m := by
  induction n generalizing i with
  | zero => simp [Buffer.slice]
  | succ n ih => rw [show n + 1 + m = (n + m) + 1 by omega]; simp [Buffer.slice, ih, Nat.add_assoc, Nat.add_comm 1 n]

theorem writeAll_append (xs ys : List Byte) : ∀ (b : Buffer) (i : Nat), writeAll b i (xs ++ ys) = writeAll (writeAll b i xs) (i + xs.length) ys := by
  induction xs with
  | nil => intro b i; simp [writeAll]
  | cons x xs ih => intro b i; simp only [List.cons_append, writeAll, ih, List.length_cons]; congr 1; omega

/-- Bytes `n` to `n + m - 1` of those a TRANSFER still sends. -/
def fillFrom (s : State) (n m : Nat) : List Byte :=
  if s.e.txp then (match s.txBuf with | some b => b.slice (s.e.ti + n) m | none => []) else List.replicate m 0x00#8

theorem fill_add (s : State) (n m : Nat) : fillBytes s (n + m) = fillBytes s n ++ fillFrom s n m := by
  unfold fillBytes fillFrom
  split
  · cases s.txBuf with
    | none => rfl
    | some b => exact slice_add _ _ _ _
  · rw [List.replicate_add]

/-- `c` is CTL as it reads in `s`, with bit 10 set: the value that starts a burst (R197). -/
def StartsFrom (s : State) (c : Word) : Prop := c.getLsbD 10 = true ∧ ∀ j, j ≠ 10 → c.getLsbD j = (ctlRead s.blk).getLsbD j

/-- What the bursts of a TRANSFER have done when all of them completed, with the in bytes `ins` (R216 to R218). -/
structure LoopOk (s m : State) (ins : List Byte) : Prop where
  same : Same s m
  rxb : m.rxBuf = if s.e.rxp then s.rxBuf.map (fun b => writeAll b s.e.ri ins) else s.rxBuf
  blk : m.blk = { s.blk with ctl := m.blk.ctl, bc := BitVec.ofNat 24 ((chunkSizes s.e.rem).getLastD 0),
                             tc := BitVec.ofNat 24 ((chunkSizes s.e.rem).getLastD 0), txFifo := [], rxFifo := [] }
  ctl : ctlSame s m
  quiet : busy m.blk = false
  e : m.e = { s.e with v := m.e.v, chunk := m.e.chunk, k := m.e.k, ti := s.e.ti + s.e.rem, ri := s.e.ri + s.e.rem, rem := 0, upc := .tLoop }
  len : ins.length = s.e.rem
  slave : s.e.rem ≤ s.env.slaveIn.length → ins = s.env.slaveIn.take s.e.rem ∧ m.env.slaveIn = s.env.slaveIn.drop s.e.rem
  added : ∃ ps : List Nat, ps.length = burstCount s.e.rem ∧ (∀ p ∈ ps, 1 ≤ p) ∧
    (∀ l, Scans s m { polling := false, counts := l } { polling := false, counts := ps.reverse ++ l }) ∧
    ∃ cs : List Word, cs.length = burstCount s.e.rem ∧ (∀ c ∈ cs, StartsFrom s c) ∧ Added s m
    { writes := s.e.rem + 3 * burstCount s.e.rem, reads := burstCount s.e.rem + ps.sum + s.e.rem, sent := fillBytes s s.e.rem, received := ins, sizes := chunkSizes s.e.rem, ctl := cs }
  armed : ctlEN s.blk.ctl = true ∧ ctlMASTER s.blk.ctl = true

/-- What they have done when burst `j` timed out (R220). -/
structure LoopTo (s t : State) : Prop where
  same : Same s t
  ctl : ctlSame s t
  busy : Machine.busy t.blk = true
  ex : ∃ (j : Nat) (ins : List Byte), ins.length = 63 * j ∧ 63 * j < s.e.rem ∧
    t.rxBuf = (if s.e.rxp then s.rxBuf.map (fun b => writeAll b s.e.ri ins) else s.rxBuf) ∧
    t.blk = { s.blk with ctl := t.blk.ctl, bc := BitVec.ofNat 24 (min (s.e.rem - 63*j) 63), tc := BitVec.ofNat 24 (min (s.e.rem - 63*j) 63), txFifo := fillFrom s (63 * j) (min (s.e.rem - 63*j) 63), rxFifo := [] } ∧
    t.e = { s.e with v := t.e.v, chunk := t.e.chunk, k := t.e.k, ti := s.e.ti + 63 * j + min (s.e.rem - 63*j) 63, ri := s.e.ri + 63 * j, rem := t.e.rem, upc := .tToR } ∧
    (1 ≤ j → ctlEN s.blk.ctl = true ∧ ctlMASTER s.blk.ctl = true) ∧
    ∃ ps : List Nat, ps.length = j + 1 ∧ (∀ p ∈ ps, 1 ≤ p) ∧ ∃ cs : List Word, cs.length = j + 1 ∧ (∀ c ∈ cs, StartsFrom s c) ∧ Added s t
    { writes := 63 * j + min (s.e.rem - 63*j) 63 + 3 * (j+1), reads := (j+1) + ps.sum + 63 * j, sent := fillBytes s (63*j), received := ins, sizes := List.replicate j 63, ctl := cs }
  why : s.cfg.timeoutMode = .fair → ¬ (ctlEN s.blk.ctl = true ∧ ctlMASTER s.blk.ctl = true)

theorem startsFrom_xch (s : State) : StartsFrom s (ctlRead s.blk ||| maskXCH) := by
  refine ⟨by rw [BitVec.getLsbD_or]; simp [maskXCH], fun j hj => ?_⟩
  rw [BitVec.getLsbD_or]
  have : maskXCH.getLsbD j = false := by
    unfold maskXCH
    rw [show (0x400#32) = BitVec.twoPow 32 10 by decide, BitVec.getLsbD_twoPow]; simp; omega
  rw [this, Bool.or_false]

/-- The value starts a burst from an earlier state too, where CTL read the same. -/
theorem StartsFrom.back {s q : State} {c : Word} (h : StartsFrom q c) (g : ctlSame s q) : StartsFrom s c :=
  ⟨h.1, fun j hj => by rw [h.2 j hj, g j hj]⟩

theorem chunk_last {n : Nat} (h : 1 ≤ n) (h2 : n ≤ 63) : chunkSizes n = [n] ∧ burstCount n = 1 := by
  unfold chunkSizes burstCount
  by_cases he : n = 63
  · subst he; simp
  · rw [Nat.div_eq_of_lt (by omega), Nat.mod_eq_of_lt (by omega), if_neg (by omega)]; simp; omega

theorem chunk_more {n : Nat} (h : 63 ≤ n) : chunkSizes n = 63 :: chunkSizes (n - 63) ∧ burstCount n = 1 + burstCount (n - 63) := by
  unfold chunkSizes burstCount
  have h1 : n / 63 = (n - 63) / 63 + 1 := by omega
  have h2 : n % 63 = (n - 63) % 63 := by omega
  rw [h1, h2, List.replicate_succ]
  exact ⟨rfl, by omega⟩

theorem chunkSizes_ne {n : Nat} (h : 1 ≤ n) : chunkSizes n ≠ [] := by
  unfold chunkSizes
  by_cases h0 : n % 63 = 0
  · have : 1 ≤ n / 63 := by omega
    rw [if_pos h0, List.append_nil]; intro hc
    have := congrArg List.length hc; simp at this; omega
  · rw [if_neg h0]; simp

theorem chunkSizes_last {n : Nat} (h : 1 ≤ n) (a b : Nat) : (chunkSizes n).getLastD a = (chunkSizes n).getLastD b := by
  rw [List.getLastD_eq_getLast?, List.getLastD_eq_getLast?, List.getLast?_eq_some_getLast (chunkSizes_ne h)]; rfl

/-- The bursts of a TRANSFER, by induction over the bytes left. -/
theorem run_bursts (n : Nat) : ∀ s : State, Head s → s.e.rem ≤ n → ∃ t, runBursts n s = .next t ∧ ((∃ m ins, t = enterLoop m ∧ LoopOk s m ins) ∨ LoopTo s t) := by
  induction n with
  | zero => intro s h hn; have := h.pos; omega
  | succ n ih =>
    intro s h hn
    obtain ⟨u, hu, so⟩ := run_burst h
    have hr : runBursts (n+1) s = andThen (runBurst s) (runBursts n) := by
      conv_lhs => unfold runBursts
      rw [if_pos h.upc]
    rw [hr, hu, andThen_next]
    have hc := h.chunk
    rcases so with ⟨m, ins, rfl, ok⟩ | tmo
    · have mrem : m.e.rem = s.e.rem - s.e.chunk := by rw [ok.e]
      by_cases h0 : m.e.rem = 0
      · have hchk : s.e.chunk = s.e.rem := by omega
        have hle : s.e.rem ≤ 63 := by omega
        have stop : runBursts n (enterLoop m) = .next (enterLoop m) := by
          have : (enterLoop m).e.upc ≠ .tBc := by
            unfold enterLoop; rw [if_pos h0]; split <;> simp
          cases n with
          | zero => rfl
          | succ n => conv_lhs => unfold runBursts
                      rw [if_neg this]
        rw [stop]
        refine ⟨_, rfl, .inl ⟨m, ins, rfl, ?_⟩⟩
        obtain ⟨c1, c2⟩ := chunk_last h.pos hle
        constructor
        · exact ok.same
        · exact ok.rxb
        · rw [ok.blk, c1, hchk]; rfl
        · exact ok.ctl
        · exact ok.quiet
        · rw [ok.e]; simp [hchk]
        · rw [ok.len, hchk]
        · rw [← hchk]; exact ok.slave
        · obtain ⟨p, hp, hs, ha⟩ := ok.added
          refine ⟨[p], by rw [c2]; rfl, by simpa using hp, hs, [ctlRead s.blk ||| maskXCH], by rw [c2]; rfl,
            by intro c hc; simp at hc; subst hc; exact startsFrom_xch s, ha.cast ?_⟩
          rw [c1, c2, hchk]; simp
        · exact ok.armed
      · have hchk : s.e.chunk = 63 := by omega
        have el : enterLoop m = m.withEngine { m.e with chunk := min m.e.rem Config.chunkMax, k := 0, upc := .tBc } := by
          unfold enterLoop; rw [if_neg h0]
        rw [el]
        set q := m.withEngine { m.e with chunk := min m.e.rem Config.chunkMax, k := 0, upc := .tBc } with hq
        have qblk : q.blk = m.blk := rfl
        have hd : Head q := by
          constructor
          · exact ok.same.clk.trans h.clk
          · exact .inl ok.quiet
          · rfl
          · rfl
          · show 1 ≤ m.e.rem; omega
          · rfl
          · show m.blk.txFifo = []; rw [ok.blk]
          · show m.blk.rxFifo = []; rw [ok.blk]
          · intro ht
            have : s.e.txp = true := by rw [show q.e.txp = m.e.txp from rfl, ok.e] at ht; exact ht
            obtain ⟨b, h1, h2⟩ := h.txr this
            refine ⟨b, by show m.txBuf = _; rw [ok.same.tx, h1], ?_⟩
            show m.e.ti + m.e.rem ≤ _; rw [ok.e]; dsimp only; omega
          · intro ht
            have : s.e.rxp = true := by rw [show q.e.rxp = m.e.rxp from rfl, ok.e] at ht; exact ht
            obtain ⟨b, h1, h2⟩ := h.rxr this
            refine ⟨writeAll b s.e.ri ins, by show m.rxBuf = _; rw [ok.rxb, this, h1]; rfl, ?_⟩
            rw [writeAll_len]
            show m.e.ri + m.e.rem ≤ _; rw [ok.e]; dsimp only; omega
        obtain ⟨t, ht, hres⟩ := ih q hd (by show m.e.rem ≤ n; omega)
        refine ⟨t, ht, ?_⟩
        have qrem : q.e.rem = s.e.rem - 63 := by show m.e.rem = _; omega
        have qrxp : q.e.rxp = s.e.rxp := by show m.e.rxp = _; rw [ok.e]
        have qtxp : q.e.txp = s.e.txp := by show m.e.txp = _; rw [ok.e]
        have qti : q.e.ti = s.e.ti + 63 := by show m.e.ti = _; rw [ok.e, hchk]
        have qri : q.e.ri = s.e.ri + 63 := by show m.e.ri = _; rw [ok.e, hchk]
        have qctl : ctlSame s q := ok.ctl
        have qtx : q.txBuf = s.txBuf := ok.same.tx
        have qff : ∀ a b, fillFrom q a b = fillFrom s (63 + a) b := by
          intro a b; unfold fillFrom; rw [qtxp, qtx, qti, Nat.add_assoc]
        have qfb : ∀ b, fillBytes q b = fillFrom s 63 b := by
          intro b; exact (show fillBytes q b = fillFrom q 0 b from rfl).trans (qff 0 b)
        have qsame : Same s q := ⟨ok.same.cfg, ok.same.clk, ok.same.port, ok.same.tx⟩
        have qrx : ∀ ys, (if q.e.rxp then q.rxBuf.map (fun b => writeAll b q.e.ri ys) else q.rxBuf) = (if s.e.rxp then s.rxBuf.map (fun b => writeAll b s.e.ri (ins ++ ys)) else s.rxBuf) := by
          intro ys
          rw [qrxp, show q.rxBuf = m.rxBuf from rfl, ok.rxb, qri]
          split
          · cases s.rxBuf with
            | none => rfl
            | some b => simp only [Option.map_some]; rw [writeAll_append, ok.len, hchk]
          · rfl
        have qarm : (ctlEN q.blk.ctl = true ∧ ctlMASTER q.blk.ctl = true) := by
          have e0 := ok.ctl 0 (by decide); have e1 := ok.ctl 1 (by decide)
          rw [ctlRead_bit, ctlRead_bit] at e0 e1
          have := ok.armed
          unfold ctlEN ctlMASTER at *
          rw [qblk]; simp at e0 e1 this ⊢; rw [e0, e1]; exact this
        obtain ⟨c1, c2⟩ := chunk_more (n := s.e.rem) (by omega)
        obtain ⟨p, hp, hs, ha⟩ := ok.added
        have haq : Added s q _ := ha
        have hsq : ∀ l, Scans s q { polling := false, counts := l } { polling := false, counts := p :: l } := hs
        rcases hres with ⟨m2, ins2, rfl, ok2⟩ | to2
        · refine .inl ⟨m2, ins ++ ins2, rfl, ?_⟩
          constructor
          · exact qsame.trans ok2.same
          · rw [ok2.rxb, qrx]
          · have hl : (chunkSizes s.e.rem).getLastD 0 = (chunkSizes q.e.rem).getLastD 0 := by
              rw [c1, qrem, List.getLastD_cons]; exact chunkSizes_last (by omega) _ _
            rw [ok2.blk, qblk, ok.blk, hl]
          · intro j hj; rw [ok2.ctl j hj, qctl j hj]
          · exact ok2.quiet
          · rw [ok2.e, qti, qri, qrem]
            have : s.e.ti + 63 + (s.e.rem - 63) = s.e.ti + s.e.rem := by omega
            have h2 : s.e.ri + 63 + (s.e.rem - 63) = s.e.ri + s.e.rem := by omega
            rw [this, h2, hq, withEngine_e]; rw [ok.e]
          · rw [List.length_append, ok.len, ok2.len, qrem]; omega
          · intro hs
            obtain ⟨a1, a2⟩ := ok.slave (by omega)
            have qs : q.env.slaveIn = s.env.slaveIn.drop s.e.chunk := a2
            obtain ⟨b1, b2⟩ := ok2.slave (by rw [qs, qrem, List.length_drop, hchk]; omega)
            rw [a1, b1, b2, qs, qrem, hchk]
            refine ⟨?_, ?_⟩
            · have := List.take_add (l := s.env.slaveIn) (i := 63) (j := s.e.rem - 63)
              rw [← this]; congr 1; omega
            · rw [List.drop_drop]; congr 1; omega
          · obtain ⟨ps, g1, g2, gs, cs, g3, g4, g5⟩ := ok2.added
            refine ⟨p :: ps, by rw [c2]; simp [g1, qrem]; omega, by intro x hx; rcases List.mem_cons.mp hx with h | h; · omega
                                                                    · exact g2 x h,
              fun l => by rw [List.reverse_cons, List.append_assoc]; exact (hsq l).trans (gs (p :: l)),
              (ctlRead s.blk ||| maskXCH) :: cs, by rw [c2]; simp [g3, qrem]; omega, ?_, (haq.trans g5).cast ?_⟩
            · intro c hc
              rcases List.mem_cons.mp hc with h | h
              · rw [h]; exact startsFrom_xch s
              · exact (g4 c h).back qctl
            · simp only [Tally.join, qrem, hchk, qfb, c1, c2]
              rw [show s.e.rem = 63 + (s.e.rem - 63) by omega, fill_add]
              simp
              constructor <;> omega
          · exact ok.armed
        · refine .inr ?_
          obtain ⟨j, ins2, k1, k2, k3, k4, k5, _, ps, g1, g2, cs, g3, g4, g5⟩ := to2.ex
          constructor
          · exact qsame.trans to2.same
          · intro i hi; rw [to2.ctl i hi, qctl i hi]
          · exact to2.busy
          · have hh : s.e.rem - 63 * (j+1) = q.e.rem - 63 * j := by rw [qrem]; omega
            refine ⟨j+1, ins ++ ins2, by rw [List.length_append, ok.len, k1]; omega, by rw [qrem] at k2; omega, by rw [k3, qrx], ?_, ?_, fun _ => ok.armed, p :: ps, by simp [g1], ?_, (ctlRead s.blk ||| maskXCH) :: cs, by simp [g3], ?_, (haq.trans g5).cast ?_⟩
            · rw [hh, k4, qblk, ok.blk, qff, show 63 * (j + 1) = 63 + 63 * j by omega]
            · rw [hh, k5, qti, qri]
              have : s.e.ti + 63 + 63 * j = s.e.ti + 63 * (j+1) := by omega
              have h2 : s.e.ri + 63 + 63 * j = s.e.ri + 63 * (j+1) := by omega
              rw [this, h2, hq, withEngine_e]; rw [ok.e]
            · intro x hx; rcases List.mem_cons.mp hx with h | h
              · omega
              · exact g2 x h
            · intro c hc
              rcases List.mem_cons.mp hc with h | h
              · rw [h]; exact startsFrom_xch s
              · exact (g4 c h).back qctl
            · simp only [Tally.join, hchk, qfb, hh]
              rw [show 63 * (j + 1) = 63 + 63 * j by omega, fill_add, List.replicate_succ]
              simp
              constructor <;> omega
          · intro hf; have := to2.why (by rw [qsame.cfg]; exact hf); exact absurd qarm this
    · have stop : runBursts n u = .next u := by
        have : u.e.upc ≠ .tBc := by rw [tmo.e]; simp
        cases n with
        | zero => rfl
        | succ n => conv_lhs => unfold runBursts
                    rw [if_neg this]
      rw [stop]
      refine ⟨_, rfl, .inr ?_⟩
      constructor
      · exact tmo.same
      · exact tmo.ctl
      · exact tmo.busy
      · obtain ⟨p, hp, ha⟩ := tmo.added
        have hck : min (s.e.rem - 63 * 0) 63 = s.e.chunk := by omega
        have hff : fillFrom s (63 * 0) s.e.chunk = fillBytes s s.e.chunk := rfl
        refine ⟨0, [], rfl, by have := h.pos; omega, ?_, ?_, ?_, fun h => absurd h (by omega), [p], rfl, by simpa using hp, [ctlRead s.blk ||| maskXCH], rfl, ?_, ha.cast ?_⟩
        · rw [tmo.rxb]; split
          · cases s.rxBuf <;> rfl
          · rfl
        · rw [hck, hff]; exact tmo.blk
        · rw [hck, tmo.e]; simp
        · intro c hc; simp at hc; subst hc; exact startsFrom_xch s
        · rw [hck]
          have : fillBytes s 0 = [] := by unfold fillBytes; split; · split <;> rfl
                                          · rfl
          simp [this]
      · exact tmo.why

end Sys2Proof.Machine
end

