-- ==== Sys2Proof/Laws/Prologue.lean ====
section
/-! SUPPORT. The prologue of a TRANSFER (chip select with BEGIN, FIFO reset), and the SETCS write half of its end and of its timeout path. -/

namespace Sys2Proof.Machine

/-- CS and CS_LEVEL of the value SETCS writes. -/
theorem csState_setcs (v : Word) (c : BitVec 2) (sel : Bool) : csState (setcsValue v c sel) = (c, !sel) := by
  unfold csState ctlCS ctlCS_LEVEL
  have h : ∀ i, i < 2 → ((setcsValue v c sel).extractLsb' 12 2).getLsbD i = c.getLsbD i := by
    intro i hi
    rw [BitVec.getLsbD_extractLsb', setcsValue_bit]
    rcases (by omega : i = 0 ∨ i = 1) with h | h <;> subst h <;> simp
  refine Prod.ext (BitVec.eq_of_getLsbD_eq fun i hi => h i hi) ?_
  show (setcsValue v c sel).getLsbD 17 = _
  rw [setcsValue_bit]; simp

/-- The bits of the value SETCS writes. -/
theorem setcs_bits (v : Word) (c : BitVec 2) (sel : Bool) (j : Nat) :
    (setcsValue v c sel).getLsbD j = (csBits c sel j).getD (v.getLsbD j) := by
  rw [setcsValue_bit]; unfold csBits
  by_cases h1 : j = 12
  · subst h1; simp
  · by_cases h2 : j = 13
    · subst h2; simp
    · by_cases h3 : j = 17
      · subst h3; simp
      · simp [h1, h2, h3]

/-- What the prologue has done by the loop test. -/
structure Started0 (s m : State) (w : List Word) : Prop where
  same : Same s m
  rxb : m.rxBuf = s.rxBuf
  blk : m.blk = { s.blk with ctl := m.blk.ctl, txFifo := [], rxFifo := [] }
  ctl : ∀ j, j ≠ 10 → (ctlRead m.blk).getLsbD j = if s.e.beginF then (csBits s.e.cs true j).getD ((ctlRead s.blk).getLsbD j) else (ctlRead s.blk).getLsbD j
  busy : busy m.blk = busy s.blk
  e : m.e = { s.e with v := m.e.v, upc := .tLoop }
  slave : m.env.slaveIn = s.env.slaveIn
  added : Added s m { writes := s.e.beginF.toNat + 1, reads := s.e.beginF.toNat + 1, sent := [], received := [], sizes := [], ctl := w }
  scan : Machine.busy s.blk = false → ∀ l, Scans s m { polling := false, counts := l } { polling := false, counts := l }
  writes : ∃ w1 w2, w = (if s.e.beginF then [w1] else []) ++ [w2] ∧ csState w1 = (s.e.cs, false) ∧ w2.getLsbD 8 = true ∧ w2.getLsbD 9 = true ∧
    w2.getLsbD 10 = Machine.busy s.blk ∧ ∀ j, j ≠ 8 → j ≠ 9 → j ≠ 10 → w2.getLsbD j = (ctlRead m.blk).getLsbD j

theorem rstValue_bit (v : Word) (j : Nat) : (v ||| maskTF_RST ||| maskRF_RST).getLsbD j = (v.getLsbD j || j == 8 || j == 9) := by
  rw [BitVec.getLsbD_or, BitVec.getLsbD_or]
  unfold maskTF_RST maskRF_RST
  rw [show (0x100#32) = BitVec.twoPow 32 8 by decide, show (0x200#32) = BitVec.twoPow 32 9 by decide, BitVec.getLsbD_twoPow, BitVec.getLsbD_twoPow]
  by_cases h8 : j = 8 <;> by_cases h9 : j = 9 <;> simp [h8, h9, eq_comm, beq_eq_decide]

/-- The FIFO reset (R193): the read half and the write half. -/
theorem run_reset {s : State} (n : Nat) (hc : s.clkOn = true) (hq : Still s) (hu : s.e.upc = .tRstR) :
    ∃ m w2, runWhile inPrologue (n + 2) s = .next (enterLoop m) ∧ Same s m ∧ m.rxBuf = s.rxBuf ∧
      m.blk = { s.blk with ctl := m.blk.ctl, txFifo := [], rxFifo := [] } ∧ ctlSame s m ∧ busy m.blk = busy s.blk ∧
      m.e = { s.e with v := m.e.v, upc := .tLoop } ∧ m.env.slaveIn = s.env.slaveIn ∧
      Added s m { writes := 1, reads := 1, sent := [], received := [], sizes := [], ctl := [w2] } ∧
      (busy s.blk = false → ∀ l, Scans s m { polling := false, counts := l } { polling := false, counts := l }) ∧
      w2.getLsbD 8 = true ∧ w2.getLsbD 9 = true ∧ w2.getLsbD 10 = busy s.blk ∧ ∀ j, j ≠ 8 → j ≠ 9 → w2.getLsbD j = (ctlRead s.blk).getLsbD j := by
  set s1 := State.withEngine (s.record (.access offCTL 4 .read (ctlRead s.blk))) { s.e with v := ctlRead s.blk, upc := .tRstW } with hs1
  have t1 : tick s = .next s1 := by
    rw [tick_still hq, show engineStep s = readInto offCTL .tRstW s by unfold engineStep; rw [hu]; rfl, readInto_ctl s .tRstW hc]
  set w := ctlRead s.blk ||| maskTF_RST ||| maskRF_RST with hw
  set m := State.goto .tLoop (State.record (.access offCTL 4 .write w) (ctlWrite w s1)) with hm
  have t2 : tick s1 = .next (enterLoop m) := by
    rw [tick_still (s := s1) hq, show engineStep s1 = stepTRstW s1 from rfl]
    unfold stepTRstW; rw [regWrite_ctl s1 _ hc]; rfl
  have hstop : inPrologue (enterLoop m).e.upc = false := by
    unfold enterLoop; split
    · split <;> rfl
    · rfl
  have wx : ctlXCH w = busy s.blk := by
    unfold ctlXCH; rw [hw, rstValue_bit, ctlRead_bit]; unfold busy ctlXCH; simp
  have hb : ctlWriteBlock s.blk w = { s.blk with ctl := ctlStored s.blk.ctl w, txFifo := [], rxFifo := [] } := by
    unfold ctlWriteBlock ctlTF_RST ctlRF_RST; rw [hw, rstValue_bit, rstValue_bit]; simp
  have mb : m.blk = ctlWriteBlock s.blk w := by rw [hm]; simp; rfl
  refine ⟨m, w, ?_, ?_, ?_, ?_, ?_, ?_, ?_, ?_, ?_, ?_, ?_, ?_, wx, ?_⟩
  · rw [runWhile_step (by rw [hu]; rfl), t1, andThen_next, runWhile_step rfl, t2, andThen_next, runWhile_stop hstop]
  · exact ⟨by simp [hm]; rfl, by simp [hm]; rfl, by simp [hm]; rfl, by simp [hm]; rfl⟩
  · simp [hm]; rfl
  · rw [mb, hb]
  · intro j hj
    rw [mb, hb, ctlRead_bit, ctlStored_bit, hw, rstValue_bit, ctlRead_bit]
    by_cases h8 : j = 8
    · subst h8; simp
    · by_cases h9 : j = 9
      · subst h9; simp
      · simp [beq_eq_false_iff_ne.mpr h8, beq_eq_false_iff_ne.mpr h9, beq_eq_false_iff_ne.mpr hj]
  · rw [mb, busy_after_write, wx, Bool.or_self]
  · rw [hm]; simp only [goto_e, record_e, ctlWrite_e]; rfl
  · rw [hm]; simp; rfl
  · refine (Added.of [.access offCTL 4 .write w, .access offCTL 4 .read (ctlRead s.blk)] ?_).cast ?_
    · rw [hm]; simp only [goto_history, record_history, ctlWrite_history]; rfl
    · simp [tally, writeCount, readCount, sentBytes, receivedBytes, burstSizes, ctlWrites]
  · intro hb l
    exact .of [.access offCTL 4 .write w, .access offCTL 4 .read (ctlRead s.blk)]
      (by rw [hm]; simp only [goto_history, record_history, ctlWrite_history]; rfl) (scan_rmw _ (wx.trans hb) l)
  · rw [hw, rstValue_bit]; simp
  · rw [hw, rstValue_bit]; simp
  · intro j h8 h9; rw [hw, rstValue_bit, beq_eq_false_iff_ne.mpr h8, beq_eq_false_iff_ne.mpr h9]; simp

/-- The prologue (R191), with a still shifter. -/
theorem run_prologue {s : State} (hc : s.clkOn = true) (hq : Still s) (hu : s.e.upc = if s.e.beginF then .tBegR else .tRstR) :
    ∃ m w, runWhile inPrologue 4 s = .next (enterLoop m) ∧ Started0 s m w := by
  cases hbf : s.e.beginF with
  | false =>
    rw [hbf] at hu
    obtain ⟨m, w2, h, a1, a2, a3, a4, a5, a6, a7, a8, as, a9, a10, ax, a11⟩ := run_reset 2 hc hq hu
    refine ⟨m, [w2], h, ⟨a1, a2, a3, ?_, a5, a6, a7, a8.cast (by rw [hbf]; rfl), as, ?_⟩⟩
    · intro j hj; rw [hbf, if_neg (by decide)]; exact a4 j hj
    · exact ⟨setcsValue 0 s.e.cs true, w2, by rw [hbf]; rfl, csState_setcs _ _ _, a9, a10, ax, fun j h8 h9 h10 => by rw [a11 j h8 h9, a4 j h10]⟩
  | true =>
    rw [hbf, if_pos rfl] at hu
    set s1 := State.withEngine (s.record (.access offCTL 4 .read (ctlRead s.blk))) { s.e with v := ctlRead s.blk, upc := .tBegW } with hs1
    have t1 : tick s = .next s1 := by
      rw [tick_still hq, show engineStep s = readInto offCTL .tBegW s by unfold engineStep; rw [hu]; rfl, readInto_ctl s .tBegW hc]
    set w := setcsValue (ctlRead s.blk) s.e.cs true with hw
    set s2 := State.goto .tRstR (State.record (.access offCTL 4 .write w) (ctlWrite w s1)) with hs2
    have t2 : tick s1 = .next s2 := by
      rw [tick_still (s := s1) hq, show engineStep s1 = stepTBegW s1 from rfl]
      unfold stepTBegW writeThen; rw [regWrite_ctl s1 _ hc]; rfl
    have n8 : w.getLsbD 8 = false := by rw [hw, setcs_bits, ctlRead_bit]; simp [csBits]
    have n9 : w.getLsbD 9 = false := by rw [hw, setcs_bits, ctlRead_bit]; simp [csBits]
    have wx : ctlXCH w = busy s.blk := by
      unfold ctlXCH; rw [hw, setcs_bits, ctlRead_bit]; unfold busy ctlXCH; simp [csBits]
    have b2 : s2.blk = ctlWriteBlock s.blk w := by rw [hs2]; simp; rfl
    have e2 : s2.e = { s.e with v := ctlRead s.blk, upc := .tRstR } := by rw [hs2]; simp only [goto_e, record_e, ctlWrite_e]; rfl
    have c2 : s2.clkOn = true := by rw [hs2]; simp; exact hc
    have bz2 : busy s2.blk = busy s.blk := by rw [b2, busy_after_write, wx, Bool.or_self]
    have q2 : Still s2 := by
      rcases hq with h | h
      · exact .inl (bz2.trans h)
      · right
        have := ctlRead_after_write (b := s.blk) n8 n9 (j := 0) (by decide)
        unfold ctlEN at h ⊢
        rw [ctlRead_bit, hw, setcs_bits, ctlRead_bit, h] at this
        rw [b2, hw]; simpa [csBits] using this
    obtain ⟨m, w2, h, a1, a2, a3, a4, a5, a6, a7, a8, as, a9, a10, ax, a11⟩ := run_reset 0 c2 q2 (by rw [e2])
    refine ⟨m, [w, w2], ?_, ⟨?_, ?_, ?_, ?_, a5.trans bz2, ?_, ?_, ?_, ?_, ?_⟩⟩
    · rw [runWhile_step (by rw [hu]; rfl), t1, andThen_next, runWhile_step rfl, t2, andThen_next, h]
    · exact Same.trans ⟨by rw [hs2]; simp; rfl, by rw [hs2]; simp; rfl, by rw [hs2]; simp; rfl, by rw [hs2]; simp; rfl⟩ a1
    · rw [a2, hs2]; simp; rfl
    · rw [a3, b2, ctlWriteBlock_plain n8 n9]
    · intro j hj
      rw [a4 j hj, b2, ctlRead_after_write n8 n9 hj, hbf, if_pos rfl, hw, setcs_bits]
    · rw [a6, e2]
    · rw [a7, hs2]; simp; rfl
    · have ha : Added s s2 { writes := 1, reads := 1, sent := [], received := [], sizes := [], ctl := [w] } := by
        refine (Added.of [.access offCTL 4 .write w, .access offCTL 4 .read (ctlRead s.blk)] ?_).cast ?_
        · rw [hs2]; simp; rfl
        · simp [tally, writeCount, readCount, sentBytes, receivedBytes, burstSizes, ctlWrites]
      exact (ha.trans a8).cast (by rw [hbf]; rfl)
    · intro hb l
      exact (Scans.of [.access offCTL 4 .write w, .access offCTL 4 .read (ctlRead s.blk)] (by rw [hs2]; simp; rfl)
        (scan_rmw _ (wx.trans hb) l)).trans (as (bz2.trans hb) l)
    · exact ⟨w, w2, by rw [hbf]; rfl, csState_setcs _ _ _, a9, a10, ax.trans bz2, fun j h8 h9 h10 => by rw [a11 j h8 h9, a4 j h10]⟩

end Sys2Proof.Machine
end

