-- ==== Sys2Proof/Laws/Ends.lean ====
section
/-! SUPPORT. The acceptance of a TRANSFER, its last two steps with END, and its timeout path. -/

namespace Sys2Proof.Machine

/-- An accepted TRANSFER is its prologue, its bursts and its last two steps. -/
theorem exec_start {b e tx rx : Bool} {cs : BitVec 2} {n : Nat} {s : State} (ha : Accepts s tx rx n) (hq : Still s) :
    ∃ m w, Started0 (s.withEngine (transferEngine s.e (encode (.transfer b e tx rx cs n)) b e tx rx cs n)) m w ∧
      exec (.transfer b e tx rx cs n) s = andThen (runBursts (enterLoop m).e.rem (enterLoop m)) (runWhile running 2) := by
  set a := s.withEngine (transferEngine s.e (encode (.transfer b e tx rx cs n)) b e tx rx cs n) with had
  obtain ⟨m, w, h1, h2⟩ := run_prologue (s := a) ha.ready.clk hq (by rw [had]; rfl)
  refine ⟨m, w, h2, ?_⟩
  show execTransfer b e tx rx cs n s = _
  unfold execTransfer
  have : acceptTransfer (encode (.transfer b e tx rx cs n)) b e tx rx cs n s = .next a := by
    unfold acceptTransfer
    rw [if_neg (by rw [ha.ready.idle]; decide)]
    have : byteAligned n = true := by unfold byteAligned; simp [ha.aligned]
    rw [this]
    have h1 : bufferSuffices tx s.txBuf (transferBytes n) = true := by
      unfold bufferSuffices transferBytes
      cases tx with
      | false => rfl
      | true => obtain ⟨x, h1, h2⟩ := ha.tx rfl; rw [h1]; simpa using h2
    have h2 : bufferSuffices rx s.rxBuf (transferBytes n) = true := by
      unfold bufferSuffices transferBytes
      cases rx with
      | false => rfl
      | true => obtain ⟨x, h1, h2, _⟩ := ha.rx rfl; rw [h1]; simpa using h2
    rw [h1, h2]; rfl
  rw [this, andThen_next, h1, andThen_next]

/-- What the end of a TRANSFER does after the last burst (R202): SETCS(cs, 0) with END, then OK. -/
structure EndOk (m t : State) (ws : List Word) : Prop where
  same : Same m t
  rxb : t.rxBuf = m.rxBuf
  blk : t.blk = { m.blk with ctl := t.blk.ctl }
  ctl : ∀ j, j ≠ 10 → (ctlRead t.blk).getLsbD j = if m.e.endF then (csBits m.e.cs false j).getD ((ctlRead m.blk).getLsbD j) else (ctlRead m.blk).getLsbD j
  quiet : busy t.blk = false
  e : t.e = { m.e with v := t.e.v, upc := .idle }
  slave : t.env.slaveIn = m.env.slaveIn
  res : lastResult t.history = some .ok
  added : Added m t { writes := m.e.endF.toNat, reads := m.e.endF.toNat, sent := [], received := [], sizes := [], ctl := ws }
  scan : ∀ l, Scans m t { polling := false, counts := l } { polling := false, counts := l }
  writes : ∃ w3, ws = (if m.e.endF then [w3] else []) ∧ csState w3 = (m.e.cs, true)

theorem run_end {m : State} (hc : m.clkOn = true) (hq : busy m.blk = false) (hr : m.e.rem = 0) :
    ∃ t ws, runWhile running 2 (enterLoop m) = .next t ∧ EndOk m t ws := by
  cases hef : m.e.endF with
  | false =>
    have el : enterLoop m = finish .ok m := by unfold enterLoop; rw [if_pos hr, hef]; rfl
    rw [el, runWhile_stop rfl]
    refine ⟨_, [], rfl, ⟨⟨rfl, rfl, rfl, rfl⟩, rfl, rfl, ?_, hq, rfl, rfl, rfl, ?_, fun _ => .of [.command m.e.cmd .ok] rfl rfl, ?_⟩⟩
    · intro j hj; rw [hef]; rfl
    · refine (Added.of [.command m.e.cmd .ok] rfl).cast ?_
      rw [hef]; rfl
    · exact ⟨setcsValue 0 m.e.cs false, by rw [hef]; rfl, csState_setcs _ _ _⟩
  | true =>
    set a := m.goto .tEndR with had
    have el : enterLoop m = a := by unfold enterLoop; rw [if_pos hr, hef]; rfl
    rw [el]
    set a1 := State.withEngine (a.record (.access offCTL 4 .read (ctlRead a.blk))) { a.e with v := ctlRead a.blk, upc := .tEndW } with ha1
    have t1 : tick a = .next a1 := by
      rw [tick_quiet (s := a) hq, show engineStep a = readInto offCTL .tEndW a from rfl, readInto_ctl a .tEndW hc]
    set w := setcsValue (ctlRead m.blk) m.e.cs false with hw
    set t := finish .ok (State.record (.access offCTL 4 .write w) (ctlWrite w a1)) with ht
    have t2 : tick a1 = .next t := by
      rw [tick_quiet (s := a1) hq, show engineStep a1 = stepTEndW a1 from rfl]
      unfold stepTEndW writeFinish; rw [regWrite_ctl a1 _ hc]; rfl
    have n8 : w.getLsbD 8 = false := by rw [hw, setcs_bits, ctlRead_bit]; simp [csBits]
    have n9 : w.getLsbD 9 = false := by rw [hw, setcs_bits, ctlRead_bit]; simp [csBits]
    have wx : ctlXCH w = false := by
      unfold ctlXCH; rw [hw, setcs_bits, ctlRead_bit]; unfold busy ctlXCH at hq; rw [hq]; rfl
    have tb : t.blk = ctlWriteBlock m.blk w := by rw [ht]; simp; rfl
    refine ⟨t, [w], ?_, ⟨?_, ?_, ?_, ?_, ?_, ?_, ?_, ?_, ?_, ?_, ?_⟩⟩
    · rw [runWhile_step rfl, t1, andThen_next, runWhile_step rfl, t2, andThen_next]; rfl
    · exact ⟨by rw [ht]; simp; rfl, by rw [ht]; simp; rfl, by rw [ht]; simp; rfl, by rw [ht]; simp; rfl⟩
    · rw [ht]; simp; rfl
    · rw [tb, ctlWriteBlock_plain n8 n9]
    · intro j hj; rw [tb, ctlRead_after_write n8 n9 hj, hef, if_pos rfl, hw, setcs_bits]
    · rw [tb, busy_after_write, wx, hq]; rfl
    · rw [ht]; simp only [finish_e, record_e, ctlWrite_e]; rfl
    · rw [ht]; simp; rfl
    · rw [ht]; rfl
    · refine (Added.of [.command m.e.cmd .ok, .access offCTL 4 .write w, .access offCTL 4 .read (ctlRead m.blk)] ?_).cast ?_
      · rw [ht]; simp only [finish_history, record_history, ctlWrite_history]; simp; exact ⟨rfl, rfl⟩
      · rw [hef]; simp [tally, writeCount, readCount, sentBytes, receivedBytes, burstSizes, ctlWrites]
    · intro l
      refine .of ([.command m.e.cmd .ok] ++ [.access offCTL 4 .write w, .access offCTL 4 .read (ctlRead m.blk)]) ?_ ?_
      · rw [ht]; simp only [finish_history, record_history, ctlWrite_history]; simp; exact ⟨rfl, rfl⟩
      · rw [List.foldr_append, scan_rmw _ wx]; rfl
    · exact ⟨w, by rw [hef]; rfl, csState_setcs _ _ _⟩

/-- What the timeout path does (R199): SETCS(cs, 0), then TimeoutError.  The shifter may perform the burst in flight in it. -/
structure EndTo (m t : State) : Prop where
  same : Same m t
  rxb : t.rxBuf = m.rxBuf
  regs : t.blk = { m.blk with ctl := t.blk.ctl, txFifo := t.blk.txFifo, rxFifo := t.blk.rxFifo }
  ctl : ∀ j, j ≠ 10 → (ctlRead t.blk).getLsbD j = (csBits m.e.cs false j).getD ((ctlRead m.blk).getLsbD j)
  e : t.e = { m.e with v := t.e.v, upc := .idle }
  res : lastResult t.history = some .timeoutError
  dead : ctlEN m.blk.ctl = false → ∃ ev, t.history = ev ++ m.history ∧ burstSizes ev = [] ∧ sentBytes ev = [] ∧ receivedBytes ev = [] ∧ (busy m.blk = true → busy t.blk = true) ∧ t.blk.txFifo = m.blk.txFifo ∧ t.blk.rxFifo = m.blk.rxFifo
  hist : (∃ ev, t.history = ev ++ m.history ∧ burstSizes ev = [] ∧ sentBytes ev = [] ∧ receivedBytes ev = [] ∧ (busy m.blk = true → busy t.blk = true) ∧ t.blk.txFifo = m.blk.txFifo ∧ t.blk.rxFifo = m.blk.rxFifo) ∨
    ∃ ev, t.history = ev ++ m.history ∧ (burstSizes ev).length = 1

theorem run_timeout {m : State} (hc : m.clkOn = true) (hag : CountsAgree m) (hu : m.e.upc = .tToR) :
    ∃ t, runWhile running 2 m = .next t ∧ EndTo m t := by
  obtain ⟨b, c, h1, h2, h3, hb⟩ := between_exists (s := m) (source := .tToR) (target := .tToW) hc hag hu
    (by intro a h; unfold engineStep; rw [h]; rfl)
  have hcu : c.e.upc = .tToW := by rw [hb.e]
  have hW : engineStep c = stepTToW c := by unfold engineStep; rw [hcu]
  have hcs : c.e.cs = m.e.cs := by rw [hb.e]
  set w := setcsValue c.e.v c.e.cs false with hw
  have n8 : w.getLsbD 8 = false := by rw [hw, setcs_bits, hb.noReset.1]; simp [csBits]
  have n9 : w.getLsbD 9 = false := by rw [hw, setcs_bits, hb.noReset.2]; simp [csBits]
  set t := finish .timeoutError (State.record (.access offCTL 4 .write w) (ctlWrite w c)) with ht
  have t2 : engineStep c = .next t := by
    rw [hW]; unfold stepTToW writeFinish; rw [regWrite_ctl c _ (by rw [hb.clkOn, hc])]; rfl
  have tb : t.blk = ctlWriteBlock c.blk w := by rw [ht]; simp
  refine ⟨t, ?_, ⟨?_, ?_, ?_, ?_, ?_, ?_, ?_, ?_⟩⟩
  · rw [runWhile_step (by rw [hu]; rfl), h1, andThen_next, runWhile_step (by rw [h2]; rfl), h3, t2, andThen_next]; rfl
  · exact ⟨by rw [ht]; simp; exact hb.cfg, by rw [ht]; simp; exact hb.clkOn, by rw [ht]; simp; exact hb.port, by rw [ht]; simp; exact hb.txBuf⟩
  · rw [ht]; simp; exact hb.rxBuf
  · rw [tb, ctlWriteBlock_plain n8 n9, hb.regs]
  · intro j hj; rw [tb, ctlRead_after_write n8 n9 hj, hw, setcs_bits, hb.held j hj, hcs]
  · rw [ht]; simp only [finish_e, record_e, ctlWrite_e]; rw [hb.e]
  · rw [ht]; rfl
  · intro hen
    have th : t.history = .command c.e.cmd .timeoutError :: .access offCTL 4 .write w :: c.history := by rw [ht]; simp
    obtain ⟨g3, v, g1⟩ := hb.still hen
    refine ⟨[.command c.e.cmd .timeoutError, .access offCTL 4 .write w, .access offCTL 4 .read v], by rw [th, g1]; rfl, rfl, rfl, rfl, ?_, ?_, ?_⟩
    · intro hbz; rw [tb, busy_after_write, g3, hbz, Bool.or_true]
    · rw [tb, ctlWriteBlock_plain n8 n9, g3]
    · rw [tb, ctlWriteBlock_plain n8 n9, g3]
  · have th : t.history = .command c.e.cmd .timeoutError :: .access offCTL 4 .write w :: c.history := by rw [ht]; simp
    rcases hb.hist with ⟨v, g1, g2, g3⟩ | ⟨v, o, i, g1⟩
    · refine .inl ⟨[.command c.e.cmd .timeoutError, .access offCTL 4 .write w, .access offCTL 4 .read v], by rw [th, g1]; rfl, rfl, rfl, rfl, ?_, ?_, ?_⟩
      · intro hbz; rw [tb, busy_after_write, g3, hbz, Bool.or_true]
      · rw [tb, ctlWriteBlock_plain n8 n9, g3]
      · rw [tb, ctlWriteBlock_plain n8 n9, g3]
    · refine .inr ?_
      rcases g1 with g1 | g1
      · exact ⟨[.command c.e.cmd .timeoutError, .access offCTL 4 .write w, .access offCTL 4 .read v, .burst o i], by rw [th, g1]; rfl, by simp [burstSizes]⟩
      · exact ⟨[.command c.e.cmd .timeoutError, .access offCTL 4 .write w, .burst o i, .access offCTL 4 .read v], by rw [th, g1]; rfl, by simp [burstSizes]⟩

end Sys2Proof.Machine
end

