-- ==== Sys2Proof/Laws/Frame.lean ====
section
/-! SUPPORT. What no access and no engine step changes, once for every position of the sequencer. -/

namespace Sys2Proof.Machine

/-- What no access of the register bus changes. -/
structure BusFrame (s t : State) : Prop where
  cfg : t.cfg = s.cfg
  clk : t.clkOn = s.clkOn
  port : t.port = s.port
  op : sameOpaque s.blk t.blk
  tx : t.txBuf = s.txBuf
  rx : t.rxBuf = s.rxBuf
  e : t.e = s.e
  now : s.env.now ≤ t.env.now

theorem BusFrame.trans {a b c : State} (h : BusFrame a b) (g : BusFrame b c) : BusFrame a c :=
  ⟨g.cfg.trans h.cfg, g.clk.trans h.clk, g.port.trans h.port, ⟨h.op.1.trans g.op.1, h.op.2.1.trans g.op.2.1, h.op.2.2.1.trans g.op.2.2.1, h.op.2.2.2.trans g.op.2.2.2⟩, g.tx.trans h.tx, g.rx.trans h.rx, g.e.trans h.e, h.now.trans g.now⟩

theorem busRead_frame {off w : Nat} {s : State} {p : Word × State} (h : busRead off w s = .next p) : BusFrame s p.2 := by
  unfold busRead at h
  split at h
  · repeat' (split at h)
    all_goals first | (cases h; exact ⟨rfl, rfl, rfl, ⟨rfl, rfl, rfl, rfl⟩, rfl, rfl, rfl, Nat.le_refl _⟩) | cases h
  · split at h
    · split at h
      · cases h; exact ⟨by simp, by simp, by simp, by simp [sameOpaque], by simp, by simp, by simp, by simp⟩
      · split at h
        · cases h; exact ⟨by simp, by simp, by simp, by simp [sameOpaque], by simp, by simp, by simp, by simp⟩
        · cases h
    · cases h

theorem busWrite_frame {off w : Nat} {v : Word} {s t : State} (h : busWrite off w v s = .next t) : BusFrame s t := by
  unfold busWrite at h
  split at h
  · split at h
    · cases h; exact ⟨by simp, by simp, by simp, by simp [sameOpaque, ctlWriteBlock], by simp, by simp, by simp, by simp⟩
    · repeat' (split at h)
      all_goals first | (cases h; exact ⟨rfl, rfl, rfl, ⟨rfl, rfl, rfl, rfl⟩, rfl, rfl, rfl, Nat.le_refl _⟩) | cases h
  · split at h
    · split at h
      · cases h
        refine ⟨by simp, by simp, by simp, ?_, by simp, by simp, by simp, by simp⟩
        unfold txPush; split <;> exact ⟨rfl, rfl, rfl, rfl⟩
      · split at h
        · cases h; exact ⟨rfl, rfl, rfl, ⟨rfl, rfl, rfl, rfl⟩, rfl, rfl, rfl, Nat.le_refl _⟩
        · cases h
    · cases h

theorem memRead_frame {a w : Nat} {s : State} {p : Word × State} (h : memRead a w s = .next p) : BusFrame s p.2 := by
  unfold memRead at h
  split at h
  · cases h
  split at h
  · cases h
  obtain ⟨q, h1, h2⟩ := andThen_eq_next.mp h
  cases h2
  exact (busRead_frame h1).trans ⟨rfl, rfl, rfl, ⟨rfl, rfl, rfl, rfl⟩, rfl, rfl, rfl, Nat.le_succ _⟩

theorem memWrite_frame {a w : Nat} {v} {s t : State} (h : memWrite a w v s = .next t) : BusFrame s t := by
  unfold memWrite at h
  split at h
  · cases h
  split at h
  · cases h
  obtain ⟨q, h1, h2⟩ := andThen_eq_next.mp h
  cases h2
  exact (busWrite_frame h1).trans ⟨rfl, rfl, rfl, ⟨rfl, rfl, rfl, rfl⟩, rfl, rfl, rfl, Nat.le_succ _⟩

/-- What no engine step changes: the configuration, the clock premise, the port and the registers no rule accesses; and
no step goes back to an earlier moment. -/
structure EngFrame (s t : State) : Prop where
  cfg : t.cfg = s.cfg
  clk : t.clkOn = s.clkOn
  port : t.port = s.port
  op : sameOpaque s.blk t.blk
  now : s.env.now ≤ t.env.now

theorem EngFrame.trans {a b c : State} (h : EngFrame a b) (g : EngFrame b c) : EngFrame a c :=
  ⟨g.cfg.trans h.cfg, g.clk.trans h.clk, g.port.trans h.port, ⟨h.op.1.trans g.op.1, h.op.2.1.trans g.op.2.1, h.op.2.2.1.trans g.op.2.2.1, h.op.2.2.2.trans g.op.2.2.2⟩, h.now.trans g.now⟩

theorem BusFrame.eng {s t} (h : BusFrame s t) : EngFrame s t := ⟨h.cfg, h.clk, h.port, h.op, h.now⟩

theorem EngFrame.of {s t u: State} (h : EngFrame s t) (h1 : u.cfg = t.cfg) (h2 : u.clkOn = t.clkOn) (h3 : u.port = t.port) (h4 : u.blk = t.blk)
    (h5 : t.env.now ≤ u.env.now) : EngFrame s u :=
  ⟨h1.trans h.cfg, h2.trans h.clk, h3.trans h.port, by rw [h4]; exact h.op, h.now.trans h5⟩

theorem EngFrame.refl (s : State) : EngFrame s s := ⟨rfl, rfl, rfl, ⟨rfl, rfl, rfl, rfl⟩, by simp⟩

theorem readInto_frame {off u} {s t : State} (h : readInto off u s = .next t) : EngFrame s t := by
  unfold readInto regRead at h
  obtain ⟨p, h1, h2⟩ := andThen_eq_next.mp h
  cases h2
  exact (memRead_frame h1).eng.of rfl rfl rfl rfl (by simp)

theorem writeThen_frame {off v u} {s t : State} (h : writeThen off v u s = .next t) : EngFrame s t := by
  unfold writeThen regWrite at h
  obtain ⟨p, h1, h2⟩ := andThen_eq_next.mp h
  cases h2
  exact (memWrite_frame h1).eng.of rfl rfl rfl rfl (by simp)

theorem writeFinish_frame {off v u} {s t : State} (h : writeFinish off v u s = .next t) : EngFrame s t := by
  unfold writeFinish regWrite at h
  obtain ⟨p, h1, h2⟩ := andThen_eq_next.mp h
  cases h2
  exact (memWrite_frame h1).eng.of rfl rfl rfl rfl (by simp)

theorem enterLoop_frame (s : State) : EngFrame s (enterLoop s) := by
  unfold enterLoop; repeat' split
  all_goals exact ⟨rfl, rfl, rfl, ⟨rfl, rfl, rfl, rfl⟩, by simp⟩

/-- An engine step that answers a next state keeps what `EngFrame` names. -/
theorem engineStep_frame {s t : State} (h : engineStep s = .next t) : EngFrame s t := by
  unfold engineStep at h
  cases hu : s.e.upc <;> rw [hu] at h <;> dsimp only at h
  case idle => cases h; exact EngFrame.refl s
  case claimR => exact readInto_frame h
  case claimW => exact writeFinish_frame h
  case relR => exact readInto_frame h
  case relW => exact writeFinish_frame h
  case spdR =>
    unfold stepSpdR at h
    have := readInto_frame h
    exact ⟨this.cfg, this.clk, this.port, this.op, this.now⟩
  case spdW =>
    unfold stepSpdW regWrite at h
    obtain ⟨p, h1, h2⟩ := andThen_eq_next.mp h
    cases h2
    exact (memWrite_frame h1).eng.of rfl rfl rfl rfl (by simp)
  case modeR => exact readInto_frame h
  case modeW =>
    unfold stepModeW regWrite at h
    obtain ⟨p, h1, h2⟩ := andThen_eq_next.mp h
    cases h2
    exact (memWrite_frame h1).eng.of rfl rfl rfl rfl (by simp)
  case tBegR => exact readInto_frame h
  case tBegW => exact writeThen_frame h
  case tRstR => exact readInto_frame h
  case tRstW =>
    unfold stepTRstW regWrite at h
    obtain ⟨p, h1, h2⟩ := andThen_eq_next.mp h
    cases h2
    exact ((memWrite_frame h1).eng.of (u := p.goto .tLoop) rfl rfl rfl rfl (Nat.le_refl _)).trans (enterLoop_frame _)
  case tLoop => cases h; exact enterLoop_frame s
  case tBc => exact writeThen_frame h
  case tTc => exact writeThen_frame h
  case tFill =>
    unfold stepTFill portWrite at h
    obtain ⟨b, h0, h⟩ := andThen_eq_next.mp h
    obtain ⟨p, h1, h2⟩ := andThen_eq_next.mp h
    cases h2
    exact (memWrite_frame h1).eng.of rfl rfl rfl rfl (by simp)
  case tXchR => exact readInto_frame h
  case tXchW =>
    unfold stepTXchW regWrite at h
    obtain ⟨p, h1, h2⟩ := andThen_eq_next.mp h
    cases h2
    exact (memWrite_frame h1).eng.of (by simp) (by simp) (by simp) (by simp) (by simp)
  case tPoll =>
    unfold stepTPoll regRead at h
    obtain ⟨p, h1, h2⟩ := andThen_eq_next.mp h
    split at h2 <;> cases h2
    all_goals exact (memRead_frame h1).eng.of rfl rfl rfl rfl (by simp)
  case tToR => exact readInto_frame h
  case tToW => exact writeFinish_frame h
  case tDrain =>
    unfold stepTDrain portRead at h
    obtain ⟨p, h1, h2⟩ := andThen_eq_next.mp h
    obtain ⟨q, h3, h4⟩ := andThen_eq_next.mp h1
    cases h4
    obtain ⟨r, h5, h6⟩ := andThen_eq_next.mp h2
    cases h6
    have hk : EngFrame q.2 r := by
      unfold keepByte rxByteStore at h5
      split at h5
      · split at h5
        · split at h5
          · cases h5; exact ⟨rfl, rfl, rfl, ⟨rfl, rfl, rfl, rfl⟩, by simp⟩
          · cases h5
        · cases h5
      · cases h5; exact EngFrame.refl _
    refine ((memRead_frame h3).eng.trans hk).trans ?_
    unfold afterDrain
    dsimp only
    split
    · have := enterLoop_frame ((r.withEngine { r.e with ri := r.e.ri + 1, k := r.e.k + 1 }).withEngine { { r.e with ri := r.e.ri + 1, k := r.e.k + 1 } with rem := r.e.rem - r.e.chunk, upc := .tLoop })
      exact ⟨this.cfg, this.clk, this.port, this.op, this.now⟩
    · exact ⟨rfl, rfl, rfl, ⟨rfl, rfl, rfl, rfl⟩, by simp⟩
  case tEndR => exact readInto_frame h
  case tEndW => exact writeFinish_frame h

end Sys2Proof.Machine
end

