-- ==== Sys2Proof/Laws/Keeps.lean ====
section
/-! SUPPORT. The induction over a step, once: a property kept by the shifter's turn, by each engine step and by the acceptance of a
command is kept by every command and by every step. -/

namespace Sys2Proof.Machine

/-- `P` is kept by everything a step is made of. -/
structure Kept (P : State → Prop) : Prop where
  moment   : ∀ s, P s → P s.nextMoment
  turn     : ∀ s t, P s → shifterTurn s = .next t → P t
  engine   : ∀ s t, P s → engineStep s = .next t → P t
  accept   : ∀ s w u, P s → s.e.upc = .idle → (u = .claimR ∨ u = .relR ∨ u = .spdR ∨ u = .modeR) →
               P (s.withEngine { s.e with cmd := w, upc := u })
  transfer : ∀ s w b e tx rx cs n, P s → s.e.upc = .idle → n < 2 ^ 32 → bufferSuffices tx s.txBuf (transferBytes n) = true →
               bufferSuffices rx s.rxBuf (transferBytes n) = true → P (s.withEngine (transferEngine s.e w b e tx rx cs n))
  reject   : ∀ s w r, P s → P (rejectAtAcceptance w r s)
  take     : ∀ s c rest, P s → s.e.upc = .idle → s.port = c :: rest →
               P { s with port := rest } ∧ P { s with port := rest, txBuf := c.tx, rxBuf := c.rx }

section
variable {P : State → Prop} (h : Kept P) {s t : State}
include h

theorem Kept.tick (hp : P s) (ht : Machine.tick s = .next t) : P t := by
  unfold Machine.tick at ht
  obtain ⟨u, h1, h2⟩ := andThen_eq_next.mp ht
  exact h.engine u t (h.turn s u hp h1) h2

theorem Kept.runWhile {p : Upc → Bool} (n : Nat) (hp : P s) (ht : Machine.runWhile p n s = .next t) : P t := by
  induction n generalizing s with
  | zero => cases ht; exact hp
  | succ n ih =>
    unfold Machine.runWhile at ht
    split at ht
    · obtain ⟨u, h1, h2⟩ := andThen_eq_next.mp ht
      exact ih (h.tick hp h1) h2
    · cases ht; exact hp

theorem Kept.runBurst (hp : P s) (ht : Machine.runBurst s = .next t) : P t := by
  unfold Machine.runBurst at ht
  obtain ⟨u, h1, h2⟩ := andThen_eq_next.mp ht
  obtain ⟨v, h3, h4⟩ := andThen_eq_next.mp h2
  exact h.runWhile _ (h.runWhile _ (h.runWhile _ hp h1) h3) h4

theorem Kept.runBursts (n : Nat) (hp : P s) (ht : Machine.runBursts n s = .next t) : P t := by
  induction n generalizing s with
  | zero => cases ht; exact hp
  | succ n ih =>
    unfold Machine.runBursts at ht
    split at ht
    · obtain ⟨u, h1, h2⟩ := andThen_eq_next.mp ht
      exact ih (h.runBurst hp h1) h2
    · cases ht; exact hp

theorem Kept.simple {w : CmdWord} {u : Upc} (hu : u = .claimR ∨ u = .relR ∨ u = .spdR ∨ u = .modeR) (hp : P s)
    (ht : andThen (Machine.accept w u s) (Machine.runWhile running 2) = .next t) : P t := by
  obtain ⟨a, h1, h2⟩ := andThen_eq_next.mp ht
  unfold Machine.accept at h1
  split at h1
  · next hi => cases h1; exact h.runWhile 2 (h.accept s w u hp hi hu) h2
  · cases h1

/-- A well-formed command keeps the property. -/
theorem Kept.exec {i : Instr} (hw : i.wellFormed = true) (hp : P s) (ht : Machine.exec i s = .next t) : P t := by
  cases i with
  | claim => exact h.simple (.inl rfl) hp ht
  | release => exact h.simple (.inr (.inl rfl)) hp ht
  | setSpeed hz => exact h.simple (.inr (.inr (.inl rfl))) hp ht
  | setMode cpol cpha => exact h.simple (.inr (.inr (.inr rfl))) hp ht
  | transfer b e tx rx cs n =>
    unfold Machine.exec execTransfer at ht
    obtain ⟨a, h1, h2⟩ := andThen_eq_next.mp ht
    have ha : P a := by
      unfold acceptTransfer at h1
      split at h1
      · cases h1
      split at h1
      · cases h1; exact h.reject s _ _ hp
      split at h1
      · cases h1
      · next hi _ hb =>
        cases h1
        simp only [Bool.not_eq_true, Bool.not_eq_false', Bool.and_eq_true, Decidable.not_not] at hi hb
        exact h.transfer s _ b e tx rx cs n hp hi (by simpa [Instr.wellFormed] using hw) hb.1 hb.2
    obtain ⟨c, h3, h4⟩ := andThen_eq_next.mp h2
    obtain ⟨d, h5, h6⟩ := andThen_eq_next.mp h4
    exact h.runWhile 2 (h.runBursts _ (h.runWhile 4 ha h3) h5) h6

/-- A step answers a state with the property where its moment begins with it. -/
theorem Kept.afterMoment (hp : P s.nextMoment) (ht : Machine.step s = .next t) : P t := by
  unfold Machine.step at ht
  split at ht
  · obtain ⟨u, h1, h2⟩ := andThen_eq_next.mp ht
    have hu := h.turn _ u hp h1
    unfold engineTurn at h2
    split at h2
    · next hi =>
      split at h2
      · cases h2; exact hu
      · next c rest hport =>
        obtain ⟨k1, k2⟩ := h.take u c rest hu hi hport
        split at h2
        · next i hd =>
          have hw : i.wellFormed = true := by
            have hf := (highField c.word).isLt
            unfold decodeWord at hd
            repeat' (split at hd)
            all_goals first | (cases hd; simp [Instr.wellFormed, hf]) | cases hd
          refine h.exec hw ?_ h2
          cases i <;> first | exact k1 | exact k2
        · cases h2; exact h.reject _ _ _ k1
    · exact h.engine u t hu h2
  · cases ht

/-- A step keeps the property. -/
theorem Kept.step (hp : P s) (ht : Machine.step s = .next t) : P t := h.afterMoment (h.moment s hp) ht

end

end Sys2Proof.Machine
end

