-- ==== Sys2Proof/Laws/PerInstr.lean ====
section
/-! SUPPORT. A property of every command's encoding, one lemma per constructor: the opcode field and the fixed bits of its word are those
of its row in the opcode table (R110, R115). -/

/-- The word of `i` carries its opcode in bits 3:0 and matches its row of the opcode table. -/
def Sys2Proof.Laws.EncodeOpcode.Statement (i : Sys2Proof.Instr) : Prop :=
  Sys2Proof.opField (Sys2Proof.encode i) = Sys2Proof.opcodeOf i ∧
    Sys2Proof.encode i &&& Sys2Proof.maskOf i = Sys2Proof.matchOf i

namespace Sys2Proof.Laws.EncodeOpcode

theorem claim : Statement .claim := ⟨by decide, by decide⟩

theorem release : Statement .release := ⟨by decide, by decide⟩

theorem setSpeed (hz : Nat) : Statement (.setSpeed hz) := by
  constructor
  · unfold opField encode opcodeOf
    refine BitVec.eq_of_getLsbD_eq fun j hj => ?_
    simp only [BitVec.getLsbD_extractLsb', BitVec.getLsbD_append]
    interval_cases j <;> simp
  · unfold encode maskOf matchOf
    ext j hj
    simp only [BitVec.getElem_and, BitVec.getElem_append]
    interval_cases j <;> simp

theorem setMode (cpol cpha : Bool) : Statement (.setMode cpol cpha) := by
  cases cpol <;> cases cpha <;> exact ⟨by decide, by decide⟩

theorem transfer (beginF endF txp rxp : Bool) (cs : BitVec 2) (bitlen : Nat) :
    Statement (.transfer beginF endF txp rxp cs bitlen) := by
  constructor
  · unfold opField encode opcodeOf
    refine BitVec.eq_of_getLsbD_eq fun j hj => ?_
    simp only [BitVec.getLsbD_extractLsb', BitVec.getLsbD_append]
    interval_cases j <;> simp
  · unfold encode maskOf matchOf
    ext j hj
    simp only [BitVec.getElem_and, BitVec.getElem_append]
    interval_cases j <;> simp

end Sys2Proof.Laws.EncodeOpcode
end

