-- ==== Sys2Proof/Tests/Slice0.lean ====
section
/-! SUPPORT. The model's own tests: the checks of WellFormed, words written out from the formats of R111, one step of each command with
expected values from the spec's own examples, and for every statement with hypotheses a state that meets them. -/

namespace Sys2Proof.Tests

open Sys2Proof.Machine

/-- An outcome is a next state that meets `p`. -/
def on (r : Res) (p : State → Bool) : Bool :=
  match r with
  | .next s => p s
  | .fault _ => false
  | .refused _ => false

/-- An outcome is the refusal `r`. -/
def refusedBy (r : Refusal) (x : Res) : Bool :=
  match x with
  | .next _ => false
  | .fault _ => false
  | .refused q => q == r

/-- The reset state with another value of CTL. -/
def withCtl (v : Word) : State := { State.reset with blk := { Block.reset with ctl := v } }

/-- The reset state at a position of the sequencer, with `v` in `e.v`. -/
def atUpc (u : Upc) (ctl v : Word) : State :=
  { withCtl ctl with e := { Engine.reset with upc := u, v := v } }

/-- A state that lends a transmit buffer of the given bytes and a receive buffer of as many bytes 0x00, with the answers of the slave,
the turn the shifter takes, and the polls the deadline allows. -/
def lending (ctl : Word) (bytes slave : List Byte) (polls : Nat) : State :=
  { withCtl ctl with
    txBuf := some (Buffer.ofBytes bytes), rxBuf := some (Buffer.zeros bytes.length),
    env := { Env.reset with slaveIn := slave, delays := [some 0], deadlines := [polls] } }

/-- The state of a burst being filled: one byte of two is in the TX FIFO. -/
def filling : State :=
  { State.reset with
    blk := { Block.reset with ctl := 0x3#32, bc := 2, tc := 2, txFifo := [0x11#8] },
    e := { Engine.reset with upc := .tFill, txp := true, rxp := true, rem := 2, chunk := 2, k := 1, ti := 1 },
    txBuf := some { len := 2, cells := [(0, 0x11#8), (1, 0x22#8)] }, rxBuf := some (Buffer.zeros 2) }

/-! ### Well-formedness: the checks refuse (R11) -/

theorem test_wellFormed_setSpeed_refuses_33_bits : (Instr.setSpeed (2 ^ 32)).wellFormed = false := by decide

theorem test_wellFormed_transfer_refuses_33_bits : (Instr.transfer true true true true 0 (2 ^ 32)).wellFormed = false := by decide

theorem test_wellFormed_admits_32_bits :
    (Instr.setSpeed (2 ^ 32 - 1)).wellFormed = true ∧ (Instr.transfer false true false true 3 (2 ^ 32 - 1)).wellFormed = true := by
  decide

/-! ### Decoding: words written out from R111 (opcode in bits 3:0, HZ and BITLEN in bits 63:32, CS in bits 9:8) -/

theorem test_decode_claim : decodeWord 0x0000000000000001#64 = .ok .claim := by rfl

theorem test_decode_release : decodeWord 0x0000000000000002#64 = .ok .release := by rfl

theorem test_decode_setSpeed : decodeWord 0x00000BB800000003#64 = .ok (.setSpeed 3000) := by rfl

theorem test_decode_setMode : decodeWord 0x0000000000000034#64 = .ok (.setMode true true) := by rfl

theorem test_decode_setMode_cpha_is_bit_4 : decodeWord 0x0000000000000014#64 = .ok (.setMode false true) := by rfl

theorem test_decode_transfer_begin_is_bit_4 :
    decodeWord 0x0000001000000115#64 = .ok (.transfer true false false false 1#2 16) := by rfl

theorem test_decode_transfer_txp_is_bit_6 :
    decodeWord 0x0000000800000245#64 = .ok (.transfer false false true false 2#2 8) := by rfl

theorem test_decode_reserved_and_must_be_zero :
    decodeWord 0x0#64 = .error .reservedOpcode ∧ decodeWord 0xF#64 = .error .reservedOpcode ∧
      decodeWord 0x11#64 = .error .mustBeZero ∧ decodeWord 0x405#64 = .error .mustBeZero := ⟨rfl, rfl, rfl, rfl⟩

theorem test_encode_words_of_R120 :
    encode .claim = 0x1#64 ∧ encode .release = 0x2#64 ∧ encode (.setSpeed 1000000) = 0x000F424000000003#64 ∧
      encode (.setMode true false) = 0x24#64 ∧ encode (.transfer true true true true 2#2 800) = 0x00000320000002F5#64 := by
  decide

/-! ### One step of each command -/

/-- The example of R250: CTL 0x00020000, claim writes 0x00038013. -/
theorem test_claim_example : on (exec .claim (withCtl 0x00020000#32)) (fun t => t.blk.ctl == 0x00038013#32) = true := by decide

/-- The example of R251: CTL 0x00038013, release writes 0x00038012. -/
theorem test_release_example : on (exec .release (withCtl 0x00038013#32)) (fun t => t.blk.ctl == 0x00038012#32) = true := by decide

/-- The example of R147: 1 MHz gives CCTL bits 12:0 = 0x100B; the rate is recorded. -/
theorem test_setSpeed_example :
    on (exec (.setSpeed 1000000) State.reset) (fun t => t.blk.cctl == 0x100B#32 && t.e.curFreq == 1000000#32) = true := by decide

/-- R147 and R143: HZ = 0 clamps to 3000 Hz, where n = 4000 gives Scheme B with divider flog2(24000000) − flog2(3000) = 24 − 11. -/
theorem test_setSpeed_clamps_to_scheme_B :
    on (exec (.setSpeed 0) State.reset) (fun t => t.blk.cctl == 0xD00#32 && t.e.curFreq == 3000#32) = true := by decide

/-- The example of R240: CTL 0x00038013, cpol = 1, cpha = 1 writes 0x0003801F. -/
theorem test_setMode_example :
    on (exec (.setMode true true) (withCtl 0x00038013#32)) (fun t => t.blk.ctl == 0x0003801F#32) = true := by decide

/-- R191 with the loopback slave: one byte out and back, CS 1 asserted and deasserted again (R170). -/
theorem test_transfer_moves_a_byte :
    on (exec (.transfer true true true true 1#2 8) (lending 0x00038013#32 [0xA5#8] [0xA5#8] 3))
      (fun t => t.rxBuf == some { len := 1, cells := [(0, 0xA5#8)] } && t.blk.ctl == 0x00039013#32) = true := by decide

/-- R192: nine bits are no whole number of bytes; no register is read or written. -/
theorem test_transfer_misaligned :
    on (exec (.transfer true true false false 0#2 9) (withCtl 0x00038013#32))
      (fun t => t.blk == (withCtl 0x00038013#32).blk && t.history == [.command 0x0000000900000035#64 .alignmentError]) = true := by
  decide

/-- R221: with EN = 0 and a deadline that expires at the first poll; CS 2 is deasserted, XCH stays 1, the byte stays in the FIFO. -/
theorem test_transfer_times_out_after_release :
    on (exec (.transfer true false true true 2#2 8) (lending 0x00038012#32 [0x3C#8] [] 0))
      (fun t => lastResult t.history == some .timeoutError && t.blk.ctl == 0x0003A412#32 && t.blk.txFifo == [0x3C#8]) = true := by decide

/-! ### The step and the placing of a word -/

theorem test_withFetchWord_runs_the_word :
    on (step (State.reset.withFetchWord 64 0x0000000000000001)) (fun t => lastResult t.history == some .ok && t.port == []) = true := by
  decide

theorem test_withFetchWord_transfer_runs :
    on (step (State.reset.withFetchWord 64 0x5)) (fun t => lastResult t.history == some .ok) = true := by decide

/-- R290: a reset in the middle of a burst leaves none in flight, both FIFOs empty and the engine IDLE. -/
theorem test_hardwareReset :
    busy (hardwareReset { filling with blk := { filling.blk with ctl := 0x403#32 } }).blk = false ∧
      (hardwareReset filling).blk.txFifo = [] ∧ (hardwareReset filling).e.upc = .idle := by decide

/-- The reset input takes no byte from the lent buffers (R35: they are the host's memory; notes/assumptions/32.md). -/
theorem test_hardwareReset_keeps_lent_buffers :
    (hardwareReset { filling with rxBuf := some { len := 2, cells := [(0, 0x5A#8)] } }).rxBuf = some { len := 2, cells := [(0, 0x5A#8)] } ∧
      (hardwareReset filling).txBuf = filling.txBuf := by decide

/-- R198, R218: a burst the shifter performs at its third turn is polled three times. -/
theorem test_pollCounts :
    on (exec (.transfer true true true true 1#2 8)
      { lending 0x00038013#32 [0xA5#8] [0x5A#8] 5 with env := { Env.reset with slaveIn := [0x5A#8], delays := [some 2], deadlines := [5] } })
      (fun t => pollCounts t.history == [3]) = true := by decide

/-! ### Witnesses: each statement's hypotheses are met -/

theorem test_witness_encoding :
    (Instr.transfer true false true false 3#2 (2 ^ 32 - 1)).wellFormed = true ∧
      decodeWord 0xFFFFFFFF00000355#64 = .ok (.transfer true false true false 3#2 (2 ^ 32 - 1)) := ⟨by decide, rfl⟩

theorem test_witness_StepRunsTheDecodedCommand :
    ∃ (s s1 : State) (c : HostCommand) (rest : List HostCommand) (i : Instr),
      s.cfg.valid = true ∧ s.e.upc = .idle ∧ s.port = c :: rest ∧ decodeWord c.word = .ok i ∧ opcodeOf i = 5#4 ∧
      shifterTurn s.nextMoment = .next s1 :=
  ⟨placeCommand 0x0000000800000005#64 State.reset, _, _, _, _, by decide, rfl, rfl, rfl, rfl, rfl⟩

theorem test_witness_StepRunsTheDecodedCommand_claim :
    ∃ (s s1 : State) (c : HostCommand) (rest : List HostCommand) (i : Instr),
      s.cfg.valid = true ∧ s.e.upc = .idle ∧ s.port = c :: rest ∧ decodeWord c.word = .ok i ∧ opcodeOf i ≠ 5#4 ∧
      shifterTurn s.nextMoment = .next s1 :=
  ⟨placeCommand 0x1#64 State.reset, _, _, _, .claim, by decide, rfl, rfl, rfl, by decide, rfl⟩

theorem test_witness_ACommandInExecutionRunsOnAlone :
    filling.cfg.valid = true ∧ filling.e.upc ≠ .idle ∧ shifterTurn filling.nextMoment = .next filling.nextMoment ∧
      on (step filling) (fun t => t.e.upc == .tXchR) = true := ⟨by decide, by decide, rfl, by decide⟩

theorem test_witness_AnIllegalWordChangesNothing :
    ∃ (s s1 : State) (c : HostCommand) (rest : List HostCommand) (x : DecodeError),
      s.cfg.valid = true ∧ s.e.upc = .idle ∧ s.port = c :: rest ∧ decodeWord c.word = .error x ∧
      shifterTurn s.nextMoment = .next s1 :=
  ⟨placeCommand 0x6#64 State.reset, _, _, _, _, by decide, rfl, rfl, rfl, rfl⟩

theorem test_witness_AnInvalidConfigurationIsRefused :
    Config.Params.test.valid = true ∧ { Config.Params.test with pinListOk := false }.valid = false ∧
      { Config.Params.test with numCs := 5 }.valid = false ∧ { Config.Params.test with minHz := 512 }.valid = true ∧
      { Config.Params.test with minHz := 511 }.valid = false := by decide

theorem test_witness_AnIdleEngineWaits :
    State.reset.cfg.valid = true ∧ State.reset.e.upc = .idle ∧ State.reset.port = [] ∧
      shifterTurn State.reset.nextMoment = .next State.reset.nextMoment :=
  ⟨by decide, rfl, rfl, rfl⟩

theorem test_witness_NoAccessWhileTheClockIsOff :
    { State.reset with clkOn := false }.clkOn = false ∧ { State.reset with clkOn := false }.e.upc = .idle ∧ 8 % 8 = 0 := by decide

theorem test_witness_StepKeepsConfigurationAndUnusedRegisters : ∃ t, step filling = .next t := ⟨_, rfl⟩

theorem test_witness_StepKeepsInv : Inv filling ∧ filling.cfg.valid = true ∧ filling.clkOn = true ∧ ∃ t, step filling = .next t :=
  ⟨{ noResetBits := by decide
     txDepth := by decide
     rxDepth := by decide
     chunkRange := by decide
     kRange := by decide
     remRange := by decide
     tiRange := by decide
     riRange := by decide
     chunkIs := by decide
     kBefore := by decide
     kInside := by decide
     bcIs := by decide
     tcIs := by decide
     txRoom := fun _ _ => ⟨_, rfl, by decide⟩
     rxRoom := fun _ _ => ⟨_, rfl, by decide⟩
     txCanonical := fun b h => by cases h; rfl
     rxCanonical := fun b h => by cases h; rfl
     portCanonical := fun c h => by cases h }, by decide, by decide, _, rfl⟩

/-- `filling` of the witness above meets `Inv`; its configuration is valid and no command waits. -/
theorem test_witness_AHardwareResetLeavesNoBurstAndEmptyFifos : filling.cfg.valid = true ∧ filling.port = [] := by decide

theorem test_witness_Ready : Ready State.reset ∧ Quiet State.reset ∧ CountsAgree State.reset ∧ State.reset.cfg.valid = true :=
  ⟨⟨rfl, rfl⟩, rfl, fun _ => rfl, by decide⟩

/-- A burst of two bytes in flight with agreeing counts, EN = 0: the other case of `CountsAgree`. -/
theorem test_witness_Ready_with_a_burst_in_flight :
    ∃ s, Ready s ∧ CountsAgree s ∧ busy s.blk = true ∧ s.cfg.valid = true :=
  ⟨{ State.reset with blk := { Block.reset with ctl := 0x402#32, bc := 2, tc := 2 } }, ⟨rfl, rfl⟩, fun _ => rfl, by decide, by decide⟩

theorem test_witness_AClaimAfterReleaseRestoresTheController :
    Ready (withCtl 0x00038013#32) ∧ Quiet (withCtl 0x00038013#32) ∧ ctlEN 0x00038013#32 = true ∧ ctlMASTER 0x00038013#32 = true ∧
      ctlCSPOL_LOW 0x00038013#32 = true ∧ ctlDHB 0x00038013#32 = true ∧ ctlCS_MANUAL 0x00038013#32 = true :=
  ⟨⟨rfl, rfl⟩, rfl, by decide, by decide, by decide, by decide, by decide⟩

/-- The boundary of R142 and R143: n = 0, 1, 256 (46875 Hz) and 257 (46692 Hz). -/
theorem test_witness_divcalc_boundaries :
    divcalc Config.Params.test 24000000 = (.a, 0) ∧ divcalc Config.Params.test 12000000 = (.a, 0) ∧
      divcalc Config.Params.test 46875 = (.a, 255) ∧ divcalc Config.Params.test 46692 = (.b, 9) ∧
      linearQuotient Config.Params.test 46875 = 256 ∧ linearQuotient Config.Params.test 46692 = 257 := by decide

theorem test_witness_RequestsOutsideTheRangeAreClamped :
    Config.Params.test.valid = true ∧ 0 < Config.Params.test.minHz ∧ Config.Params.test.maxHz < 24000001 := by decide

/-- R175: with CS = 2, manual and active-low, line 2 is asserted at level 0 and line 1 is not; an index without a line asserts none. -/
theorem test_witness_TheAssertedLineInManualMode :
    ctlCS_MANUAL 0x00012010#32 = true ∧ ctlCSPOL_LOW 0x00012010#32 = true ∧ csAsserted (withCtl 0x00012010#32) 2 = true ∧
      csAsserted (withCtl 0x00012010#32) 1 = false ∧
      csAsserted { withCtl 0x00012010#32 with cfg := { Config.Params.test with numCs := 2 } } 2 = false := by decide

/-- R174, R175: active-high, CS = 2 at level 1 is asserted, line 1 is at the inactive level 0; at CS_LEVEL 0 no line is asserted. -/
theorem test_witness_TheAssertedLineInManualMode_active_high :
    ctlCS_MANUAL 0x00032000#32 = true ∧ ctlCSPOL_LOW 0x00032000#32 = false ∧ csLine (withCtl 0x00032000#32) 2 = some true ∧
      csAsserted (withCtl 0x00032000#32) 2 = true ∧ csLine (withCtl 0x00032000#32) 1 = some false ∧
      csAsserted (withCtl 0x00032000#32) 1 = false ∧ csAsserted (withCtl 0x00012000#32) 2 = false := by decide

/-- R176: a step that records nothing still ends at a later moment. -/
theorem test_witness_AutomaticLinesAreDrawnAnewAtEveryStep :
    ctlCS_MANUAL State.reset.blk.ctl = false ∧ on (step State.reset) (fun t => t.history == [] && t.env.now == 1) = true := by decide

/-- Manual, active-high chip select: RELEASE there, and CLAIM where the polarity is active-low. -/
theorem test_witness_OtherCommandsDoNotDisturbChipSelect :
    Ready (withCtl 0x00030003#32) ∧ CountsAgree (withCtl 0x00030003#32) ∧ ctlCS_MANUAL 0x00030003#32 = true ∧
      (Instr.release = .claim → ctlCSPOL_LOW 0x00030003#32 = true) ∧ opcodeOf .release ≠ 5#4 ∧
      ctlCS_MANUAL 0x00038013#32 = true ∧ (Instr.claim = .claim → ctlCSPOL_LOW 0x00038013#32 = true) :=
  ⟨⟨rfl, rfl⟩, fun _ => rfl, by decide, by decide, by decide, by decide, by decide⟩

theorem test_witness_SetcsWritesIndexAndLevelOnly :
    [Upc.tBegW, .tToW, .tEndW].all (fun u => (atUpc u 0x3#32 0x0003B413#32).clkOn && !(0x0003B413#32 : Word).getLsbD 8 &&
      !(0x0003B413#32 : Word).getLsbD 9 && on (engineStep (atUpc u 0x3#32 0x0003B413#32)) (fun t => busy t.blk)) = true := by
  decide

theorem test_witness_ManualActiveLow :
    ManualActiveLow (atUpc .modeW 0x00038013#32 0x00038013#32) ∧ (∃ t, step (atUpc .modeW 0x00038013#32 0x00038013#32) = .next t) ∧
      ManualActiveLow (withCtl 0x00038013#32) ∧ Ready (withCtl 0x00038013#32) ∧ Quiet (withCtl 0x00038013#32) ∧
      CountsAgree (withCtl 0x00038013#32) ∧ opcodeOf (.setSpeed 0) ≠ 5#4 :=
  ⟨⟨by decide, by decide⟩, ⟨_, rfl⟩, ⟨by decide, by decide⟩, ⟨rfl, rfl⟩, rfl, fun _ => rfl, by decide⟩

theorem test_witness_OtherBits :
    OtherBits 0x00004800#32 0xABCDE000#32
      { atUpc .tRstW 0x00004803#32 0x00004803#32 with blk := { Block.reset with ctl := 0x00004803#32, cctl := 0xABCDE00B#32 } } ∧
      ∃ t, step { atUpc .tRstW 0x00004803#32 0x00004803#32 with
        blk := { Block.reset with ctl := 0x00004803#32, cctl := 0xABCDE00B#32 } } = .next t :=
  ⟨⟨by decide, by decide, by decide, by decide⟩, _, rfl⟩

/-- Both FIFOs full at a status read (R48): 64 and 64. -/
theorem test_witness_CountAndStatusRegisters :
    fstaRead { Block.reset with txFifo := List.replicate 64 0#8, rxFifo := List.replicate 64 0#8 } = 0x00400040#32 := by decide

theorem test_witness_AWriteOfCtl : (withCtl 0x403#32).clkOn = true ∧ busy (withCtl 0x403#32).blk = true ∧
    (0x3#32 : Word).getLsbD 10 = false := by decide

theorem test_witness_DataPorts :
    on (portWrite offTXD 0x77#8 { State.reset with blk := { Block.reset with txFifo := List.replicate 64 0#8 } })
      (fun t => t.blk.txFifo == List.replicate 64 0#8) = true ∧
    on (portWrite offTXD 0x77#8 { State.reset with blk := { Block.reset with txFifo := List.replicate 63 0#8 } })
      (fun t => t.blk.txFifo == List.replicate 63 0#8 ++ [0x77#8]) = true := by decide

/-- One address for each case of R84, the window at 4. -/
theorem test_witness_TheBusRefusesEveryOtherAccess :
    [(3, 4), (48, 4), (12, 2), (14, 4), (4, 4), (8, 4), (12, 1)].all (fun p =>
      refusedBy .busAccess (memWrite p.1 p.2 0#32 { State.reset with cfg := { Config.Params.test with baseAddr := some 4 } })) = true := by
  decide

theorem test_witness_memory :
    Memory.wf [(3, 5#8), (9, 1#8)] = true ∧ Memory.write [(3, 5#8), (9, 1#8)] 3 0#8 = [(9, 1#8)] ∧
      Memory.write [(3, 5#8)] 9 1#8 = [(3, 5#8), (9, 1#8)] ∧ Memory.wf [(3, 0#8)] = false := by decide

/-- A burst in flight on an enabled shifter whose turn has come, with the burst count `bc` and the transmit count 0. -/
def armedNow (bc : BitVec 24) : State :=
  { withCtl 0x403#32 with blk := { Block.reset with ctl := 0x403#32, bc := bc }, env := { Env.reset with burstDelay := some 0 } }

theorem test_witness_shifter :
    busy (armedNow 0).blk = true ∧ ctlEN (armedNow 0).blk.ctl = true ∧ ctlMASTER (armedNow 0).blk.ctl = true ∧
      (armedNow 0).clkOn = true ∧ (armedNow 0).env.burstDelay = some 0 ∧ (armedNow 0).blk.bc = (armedNow 0).blk.tc ∧
      on (shifterTurn (armedNow 0)) (fun t => t.blk.ctl == 0x3#32) = true ∧
      refusedBy .burstCountMismatch (shifterTurn (armedNow 1)) = true := by decide

/-- In mode `fair` a burst whose countdown was drawn as "never" is performed all the same, and refused where its counts differ. -/
theorem test_witness_shifter_fair :
    on (shifterTurn { armedNow 0 with cfg := { Config.Params.test with timeoutMode := .fair }, env := Env.reset })
      (fun t => t.blk.ctl == 0x3#32) = true ∧
    refusedBy .burstCountMismatch
      (shifterTurn { armedNow 1 with cfg := { Config.Params.test with timeoutMode := .fair }, env := Env.reset }) = true := by decide

/-- A burst of the whole depth, and one that finds the RX FIFO full (R206, R208). -/
theorem test_witness_bursts :
    (64#24 : BitVec 24).toNat ≤ (List.replicate 64 0#8 : List Byte).length ∧ ([] : List Byte).length + (64#24 : BitVec 24).toNat ≤ 64 ∧
      (burst { State.reset with blk := { Block.reset with ctl := 0x403#32, bc := 1, tc := 1, txFifo := [1#8],
                                                          rxFifo := List.replicate 64 0#8 }
                                env := { Env.reset with slaveIn := [9#8] } }).blk.rxFifo = List.replicate 64 0#8 := by decide

theorem test_witness_polls :
    (atUpc .tPoll 0x3#32 0#32).clkOn = true ∧ busy (atUpc .tPoll 0x3#32 0#32).blk = false ∧ busy (atUpc .tPoll 0x402#32 0#32).blk = true ∧
      deadlineExpired { atUpc .tPoll 0x402#32 0#32 with cfg := { Config.Params.test with timeoutMode := .fair } } = true := by decide

theorem test_witness_AStaleReadRestartsTheBurst :
    ∃ s, s.clkOn = true ∧ Quiet s ∧ ctlXCH s.e.v = true ∧ holdsCtl s.e.upc = true :=
  ⟨atUpc .claimW 0x3#32 0x403#32, rfl, rfl, by decide, rfl⟩

theorem test_witness_NoEngineStepClearsXch : ∃ t, busy (atUpc .relW 0x403#32 0x3#32).blk = true ∧
    engineStep (atUpc .relW 0x403#32 0x3#32) = .next t := ⟨_, by decide, rfl⟩

theorem test_witness_AShortBufferIsRefused :
    refusedBy .bufferTooShort (exec (.transfer false false true false 0#2 16) (lending 0x3#32 [1#8] [] 0)) = true ∧
      refusedBy .bufferTooShort (exec (.transfer false false false true 0#2 8) State.reset) = true := by decide

/-- A buffer of exactly `L` bytes is accepted. -/
theorem test_witness_Accepts :
    Accepts (lending 0x00038013#32 [0xA5#8] [0x5A#8] 3) true true 8 ∧ Quiet (lending 0x00038013#32 [0xA5#8] [0x5A#8] 3) ∧
      Accepts State.reset false false 0 ∧ 8 ≤ 8 ∧ ctlEN (lending 0x00038012#32 [0xA5#8] [] 3).blk.ctl = false :=
  ⟨{ ready := ⟨rfl, rfl⟩, aligned := rfl, tx := fun _ => ⟨_, rfl, by decide⟩, rx := fun _ => ⟨_, rfl, by decide, rfl⟩ }, rfl,
   { ready := ⟨rfl, rfl⟩, aligned := rfl, tx := fun h => (by cases h), rx := fun h => (by cases h) }, by decide, by decide⟩

theorem test_witness_a_transfer_ends_ok :
    ∃ t, exec (.transfer true true true true 1#2 8) (lending 0x00038013#32 [0xA5#8] [0x5A#8] 3) = .next t ∧
      lastResult t.history = some .ok := ⟨_, rfl, by decide⟩

theorem test_witness_a_transfer_times_out :
    ∃ t, exec (.transfer true true true true 1#2 8) (lending 0x00038012#32 [0xA5#8] [] 0) = .next t ∧
      lastResult t.history = some .timeoutError := ⟨_, rfl, by decide⟩

theorem test_witness_AFairTransferSucceeds :
    ∃ s, Accepts s false false 8 ∧ Quiet s ∧ s.cfg.timeoutMode = .fair ∧ ctlEN s.blk.ctl = true ∧ ctlMASTER s.blk.ctl = true :=
  ⟨{ withCtl 0x3#32 with cfg := { Config.Params.test with timeoutMode := .fair } },
   { ready := ⟨rfl, rfl⟩, aligned := rfl, tx := fun h => (by cases h), rx := fun h => (by cases h) }, rfl, rfl, by decide, by decide⟩

end Sys2Proof.Tests
end

section
/-! The scope statements: what is fixed for every step (R9, R34, R51) and which configurations there are (R9, R264, R291). -/

namespace Sys2Proof.Machine

/-! ### What every step keeps -/

/-- `t` agrees with `s` in what is fixed: the configuration (R9), the clock premise (R34) and the unused registers (R51). -/
def SameFixed (s t : State) : Prop := t.cfg = s.cfg ∧ t.clkOn = s.clkOn ∧ sameOpaque s.blk t.blk

theorem SameFixed.refl (s : State) : SameFixed s s := ⟨rfl, rfl, rfl, rfl, rfl, rfl⟩

theorem SameFixed.trans {s t u : State} (h : SameFixed s t) (g : SameFixed t u) : SameFixed s u := by
  obtain ⟨hcfg, hclk, hictl, hista, hdmac, hwait⟩ := h
  obtain ⟨gcfg, gclk, gictl, gista, gdmac, gwait⟩ := g
  exact ⟨gcfg.trans hcfg, gclk.trans hclk, hictl.trans gictl, hista.trans gista, hdmac.trans gdmac, hwait.trans gwait⟩

theorem burst_sameFixed (s : State) : SameFixed s (burst s) := by
  rw [burst_eq]
  exact SameFixed.refl s

/-- A turn of the shifter keeps what is fixed, whatever the counts. -/
theorem shifterTurn_sameFixed {s t : State} (h : shifterTurn s = .next t) : SameFixed s t := by
  rcases shifterTurn_cases s with h1 | ⟨n, h1, _⟩ | ⟨h1, _⟩ | ⟨h1, _⟩ <;> rw [h1] at h <;> cases h
  · exact SameFixed.refl s
  · exact SameFixed.refl s
  · exact burst_sameFixed s

theorem engineStep_sameFixed {s t : State} (h : engineStep s = .next t) : SameFixed s t :=
  have f := engineStep_frame h
  ⟨f.cfg, f.clk, f.op⟩

/-- Agreeing with `s` in what is fixed is kept by everything a step is made of; the acceptance of a command, its rejection and its leaving the
port touch neither the configuration, the clock nor the block. -/
theorem sameFixed_kept (s : State) : Kept (SameFixed s) where
  moment _ hp := hp
  turn _ _ hp ht := hp.trans (shifterTurn_sameFixed ht)
  engine _ _ hp ht := hp.trans (engineStep_sameFixed ht)
  accept _ _ _ hp _ _ := hp
  transfer _ _ _ _ _ _ _ _ hp _ _ _ _ := hp
  reject _ _ _ hp := hp
  take _ _ _ hp _ _ := ⟨hp, hp⟩

/-- Settles O12, by the induction over what a step is made of (`Kept.step`). -/
theorem stepKeepsConfigurationAndUnusedRegisters : Obligations.StepKeepsConfigurationAndUnusedRegisters := by
  unfold Obligations.StepKeepsConfigurationAndUnusedRegisters
  intro s t h
  exact (sameFixed_kept s).step (SameFixed.refl s) h

/-! ### The configurations there are -/

/-- The constraints of R9 and the data R264 asks for, one by one. -/
theorem valid_iff (p : Config.Params) :
    p.valid = true ↔ (∃ a, p.baseAddr = some a) ∧ (∃ h, p.platMaxHz = some h) ∧ p.pinListOk = true ∧ 2 ≤ p.baseHz ∧ 1 ≤ p.minHz ∧
      p.minHz ≤ p.maxHz ∧ Config.flog2 p.baseHz - Config.flog2 p.minHz ≤ 15 ∧ 2 * p.maxHz < 2 ^ 32 ∧ 1 ≤ p.numCs ∧ p.numCs ≤ 4 := by
  simp only [Config.Params.valid, Bool.and_eq_true, decide_eq_true_eq, Option.isSome_iff_exists, and_assoc]

theorem initialise_of_invalid {p : Config.Params} (s : State) (h : p.valid = false) :
    initialise p s = .fault .configurationError := by
  simp [initialise, h]

theorem initialise_of_valid {p : Config.Params} (s : State) (h : p.valid = true) :
    initialise p s = .next { s with cfg := p, clkOn := true } := by
  simp [initialise, h]

theorem step_of_invalid {s : State} (h : s.cfg.valid = false) : step s = .fault .configurationError := by
  simp [step, h]

/-- Settles O9: the check is the constraints written out; initialisation and `step` both turn on it. -/
theorem anInvalidConfigurationIsRefused : Obligations.AnInvalidConfigurationIsRefused := by
  unfold Obligations.AnInvalidConfigurationIsRefused
  intro p s
  exact ⟨valid_iff p, initialise_of_invalid s, initialise_of_valid s, step_of_invalid⟩

end Sys2Proof.Machine
end

section
/-! What the shifter's turn and one engine step can do, each said once: a turn is a delay or a burst; an engine step is one access
of the step's position, with the registers, the FIFOs and the buffers it leaves. -/

namespace Sys2Proof.Machine

/-! ### The shifter's turn -/

/-- A turn that answers a next state lets the turn pass, which is seen in the environment alone, or performs the burst. -/
theorem shifterTurn_next {s t : State} (h : shifterTurn s = .next t) : t = { s with env := t.env } ∨ t = burst s := by
  rcases shifterTurn_cases s with h1 | ⟨n, h1, _⟩ | ⟨h1, _⟩ | ⟨h1, _⟩ <;> rw [h1] at h <;> cases h
  · exact .inl rfl
  · exact .inl rfl
  · exact .inr rfl

/-- What no turn of the shifter changes: the engine, the port and the lent buffers. -/
structure ShifterFrame (s t : State) : Prop where
  cfg   : t.cfg = s.cfg
  e     : t.e = s.e
  port  : t.port = s.port
  txBuf : t.txBuf = s.txBuf
  rxBuf : t.rxBuf = s.rxBuf

theorem shifterTurn_frame {s t : State} (h : shifterTurn s = .next t) : ShifterFrame s t := by
  rcases shifterTurn_next h with h1 | h1
  · rw [h1]; exact ⟨rfl, rfl, rfl, rfl, rfl⟩
  · rw [h1]; exact ⟨burst_cfg s, burst_e s, burst_port s, burst_txBuf s, burst_rxBuf s⟩

/-! ### The TX FIFO -/

/-- A push on the TX FIFO appends where there is room, and changes nothing else (R49). -/
theorem txPush_blk_eq (x : Byte) (s : State) : (txPush x s).blk =
    { s.blk with txFifo := if s.blk.txFifo.length < Config.fifoDepth then s.blk.txFifo ++ [x] else s.blk.txFifo } := by
  by_cases h : s.blk.txFifo.length < Config.fifoDepth
  · rw [txPush_blk s x h, if_pos h]
  · rw [txPush, if_neg h, if_neg h]

/-! ### Accesses that answer -/

section
variable {s t : State} {u : Upc} {off width : Nat} {v : Word} {r : Result}

/-- An access has a step only with the clock on (R292). -/
theorem clkOn_of_memRead {p : Word × State} (h : memRead off width s = .next p) : s.clkOn = true := by
  cases hc : s.clkOn
  · rw [memRead_clockOff s off width hc] at h; cases h
  · rfl

theorem clkOn_of_memWrite (h : memWrite off width v s = .next t) : s.clkOn = true := by
  cases hc : s.clkOn
  · rw [memWrite_clockOff s off width v hc] at h; cases h
  · rfl

theorem clkOn_of_readInto (h : readInto off u s = .next t) : s.clkOn = true := by
  obtain ⟨_, h1, _⟩ := andThen_eq_next.mp h
  exact clkOn_of_memRead h1

theorem clkOn_of_portWrite_then {b : Byte} {f : State → Res} (h : andThen (portWrite off b s) f = .next t) : s.clkOn = true := by
  obtain ⟨_, h1, _⟩ := andThen_eq_next.mp h
  exact clkOn_of_memWrite h1

theorem clkOn_of_regWrite_then {f : State → Res} (h : andThen (regWrite off v s) f = .next t) : s.clkOn = true := by
  obtain ⟨_, h1, _⟩ := andThen_eq_next.mp h
  exact clkOn_of_memWrite h1

/-! ### The registers an engine step leaves -/

/-- The engine registers after the loop test (R191, R194): the next chunk, the end path, or IDLE. -/
def loopEngine (e : Engine) : Engine :=
  if e.rem = 0 then { e with upc := if e.endF then .tEndR else .idle }
  else { e with chunk := min e.rem Config.chunkMax, k := 0, upc := .tBc }

/-- The engine registers after a drained byte (R200, R201). -/
def drainEngine (e : Engine) : Engine :=
  if e.k + 1 = e.chunk then loopEngine { e with ri := e.ri + 1, k := e.k + 1, rem := e.rem - e.chunk }
  else { e with ri := e.ri + 1, k := e.k + 1 }

/-- Where the read half of a read-modify-write of CTL goes (R85). -/
def ctlReadTarget : Upc → Option Upc
  | .claimR => some .claimW
  | .relR => some .relW
  | .modeR => some .modeW
  | .tBegR => some .tBegW
  | .tRstR => some .tRstW
  | .tXchR => some .tXchW
  | .tToR => some .tToW
  | .tEndR => some .tEndW
  | _ => none

/-- The value a position that holds a CTL value writes back. -/
def ctlWriteValue (e : Engine) : Word :=
  match e.upc with
  | .claimW => claimValue e.v
  | .relW => releaseValue e.v
  | .modeW => modeValue e.v (operandCpol e) (operandCpha e)
  | .tBegW => setcsValue e.v e.cs true
  | .tRstW => e.v ||| maskTF_RST ||| maskRF_RST
  | .tXchW => e.v ||| maskXCH
  | .tToW => setcsValue e.v e.cs false
  | .tEndW => setcsValue e.v e.cs false
  | _ => e.v

/-- The engine registers after that write. -/
def ctlWriteEngine (e : Engine) : Engine :=
  match e.upc with
  | .modeW => { e with curCpol := operandCpol e, curCpha := operandCpha e, upc := .idle }
  | .tBegW => { e with upc := .tRstR }
  | .tRstW => loopEngine e
  | .tXchW => { e with upc := .tPoll }
  | _ => { e with upc := .idle }

/-- `t` has the block `b`, the engine registers `e` and the receive buffer `rx`; its port and transmit buffer are those of `s`. -/
structure Leaves (s t : State) (b : Block) (e : Engine) (rx : Option Buffer) : Prop where
  blk   : t.blk = b
  e     : t.e = e
  rxBuf : t.rxBuf = rx
  txBuf : t.txBuf = s.txBuf
  port  : t.port = s.port

/-- What one engine step does, by the access it makes. -/
inductive EngineEffect (s t : State) : Prop where
  /-- In IDLE the engine has no step of its own. -/
  | wait (hu : s.e.upc = .idle) (h : Leaves s t s.blk s.e s.rxBuf)
  | readCtl {u : Upc} (hu : ctlReadTarget s.e.upc = some u) (h : Leaves s t s.blk { s.e with v := ctlRead s.blk, upc := u } s.rxBuf)
  | writeCtl (hu : holdsCtl s.e.upc = true)
      (h : Leaves s t (ctlWriteBlock s.blk (ctlWriteValue s.e)) (ctlWriteEngine s.e) s.rxBuf)
  | readCctl (hz : Word) (hu : s.e.upc = .spdR)
      (h : Leaves s t s.blk { s.e with v := s.blk.cctl, hz := hz, upc := .spdW } s.rxBuf)
  | writeCctl (d : Scheme × Nat) (hu : s.e.upc = .spdW)
      (h : Leaves s t { s.blk with cctl := cctlValue s.e.v d } { s.e with curFreq := s.e.hz, upc := .idle } s.rxBuf)
  | loopTest (hu : s.e.upc = .tLoop) (h : Leaves s t s.blk (loopEngine s.e) s.rxBuf)
  | writeBc (hu : s.e.upc = .tBc)
      (h : Leaves s t { s.blk with bc := (countWord s.e.chunk).setWidth 24 } { s.e with upc := .tTc } s.rxBuf)
  | writeTc (hu : s.e.upc = .tTc)
      (h : Leaves s t { s.blk with tc := (countWord s.e.chunk).setWidth 24 } { s.e with upc := .tFill } s.rxBuf)
  | fill (x : Byte) (hu : s.e.upc = .tFill)
      (h : Leaves s t (txPush x s).blk
        { s.e with ti := s.e.ti + 1, k := s.e.k + 1, upc := if s.e.k + 1 = s.e.chunk then .tXchR else .tFill } s.rxBuf)
  /-- A poll that reads XCH = 1 polls again or goes to the timeout path (R198, R213). -/
  | pollBusy {u : Upc} (hu : s.e.upc = .tPoll) (ht : u = .tPoll ∨ u = .tToR)
      (h : Leaves s t s.blk { s.e with v := ctlRead s.blk, upc := u } s.rxBuf)
  | pollDone (hu : s.e.upc = .tPoll) (h : Leaves s t s.blk { s.e with v := ctlRead s.blk, k := 0, upc := .tDrain } s.rxBuf)
  | drain (x : Byte) (rx : Option Buffer) (hu : s.e.upc = .tDrain)
      (hrx : rx = s.rxBuf ∨ ∃ b, s.rxBuf = some b ∧ rx = some (b.write s.e.ri x))
      (h : Leaves s t { s.blk with rxFifo := s.blk.rxFifo.tail } (drainEngine s.e) rx)

/-! ### The shared halves of the steps -/

theorem readInto_ctl_leaves (h : readInto offCTL u s = .next t) :
    Leaves s t s.blk { s.e with v := ctlRead s.blk, upc := u } s.rxBuf := by
  rw [readInto_ctl s u (clkOn_of_readInto h)] at h
  cases h
  exact ⟨rfl, rfl, rfl, rfl, rfl⟩

/-- A step that writes CTL is its continuation at the state after the write. -/
theorem regWrite_ctl_then {f : State → Res} (h : andThen (regWrite offCTL v s) f = .next t) :
    f ((ctlWrite v s).record (.access offCTL 4 .write v)) = .next t := by
  rw [regWrite_ctl s v (clkOn_of_regWrite_then h)] at h
  exact h

theorem writeFinish_ctl_leaves (h : writeFinish offCTL v r s = .next t) :
    Leaves s t (ctlWriteBlock s.blk v) { s.e with upc := .idle } s.rxBuf := by
  cases regWrite_ctl_then h
  exact ⟨by simp, by simp, by simp, by simp, by simp⟩

theorem enterLoop_leaves (s : State) : Leaves s (enterLoop s) s.blk (loopEngine s.e) s.rxBuf := by
  unfold enterLoop loopEngine
  split
  · split <;> exact ⟨rfl, rfl, rfl, rfl, rfl⟩
  · exact ⟨rfl, rfl, rfl, rfl, rfl⟩

theorem afterDrain_leaves (s : State) : Leaves s (afterDrain s) s.blk (drainEngine s.e) s.rxBuf := by
  by_cases hk : s.e.k + 1 = s.e.chunk
  · have hd : afterDrain s = enterLoop (s.withEngine
        { s.e with ri := s.e.ri + 1, k := s.e.k + 1, rem := s.e.rem - s.e.chunk, upc := .tLoop }) := if_pos hk
    have he : drainEngine s.e = loopEngine { s.e with ri := s.e.ri + 1, k := s.e.k + 1, rem := s.e.rem - s.e.chunk } := if_pos hk
    rw [hd, he]
    obtain ⟨hb, hl, hr, ht, hp⟩ := enterLoop_leaves (s.withEngine
      { s.e with ri := s.e.ri + 1, k := s.e.k + 1, rem := s.e.rem - s.e.chunk, upc := .tLoop })
    exact ⟨hb, hl, hr, ht, hp⟩
  · have hd : afterDrain s = s.withEngine { s.e with ri := s.e.ri + 1, k := s.e.k + 1 } := if_neg hk
    have he : drainEngine s.e = { s.e with ri := s.e.ri + 1, k := s.e.k + 1 } := if_neg hk
    rw [hd, he]
    exact ⟨rfl, rfl, rfl, rfl, rfl⟩

/-- A byte kept in the receive buffer changes that buffer alone, at `e.ri`; without RXP nothing (R200). -/
theorem keepByte_next {x : Byte} (h : keepByte x s = .next t) :
    t = { s with rxBuf := t.rxBuf } ∧ (t.rxBuf = s.rxBuf ∨ ∃ b, s.rxBuf = some b ∧ t.rxBuf = some (b.write s.e.ri x)) := by
  unfold keepByte rxByteStore at h
  split at h
  · split at h
    · next b hb =>
      split at h
      · cases h; exact ⟨rfl, .inr ⟨b, hb, rfl⟩⟩
      · cases h
    · cases h
  · cases h; exact ⟨rfl, .inl rfl⟩

/-! ### The steps one by one -/

theorem readInto_ctl_effect {w : Upc} (hw : ctlReadTarget s.e.upc = some w) (h : readInto offCTL w s = .next t) : EngineEffect s t :=
  .readCtl hw (readInto_ctl_leaves h)

/-- A write of CTL that ends the command with no change of the engine but IDLE. -/
theorem writeFinish_ctl_effect (hw : holdsCtl s.e.upc = true) (hv : ctlWriteValue s.e = v)
    (he : ctlWriteEngine s.e = { s.e with upc := .idle }) (h : writeFinish offCTL v r s = .next t) : EngineEffect s t :=
  .writeCtl hw (by rw [hv, he]; exact writeFinish_ctl_leaves h)

theorem stepModeW_effect (hu : s.e.upc = .modeW) (h : stepModeW s = .next t) : EngineEffect s t := by
  cases regWrite_ctl_then h
  refine .writeCtl (by rw [hu]; rfl) ⟨?_, ?_, ?_, ?_, ?_⟩ <;> simp [ctlWriteValue, ctlWriteEngine, hu]

theorem stepTBegW_effect (hu : s.e.upc = .tBegW) (h : stepTBegW s = .next t) : EngineEffect s t := by
  cases regWrite_ctl_then h
  refine .writeCtl (by rw [hu]; rfl) ⟨?_, ?_, ?_, ?_, ?_⟩ <;> simp [ctlWriteValue, ctlWriteEngine, hu]

theorem stepTRstW_effect (hu : s.e.upc = .tRstW) (h : stepTRstW s = .next t) : EngineEffect s t := by
  cases regWrite_ctl_then h
  obtain ⟨hb, he, hr, ht, hp⟩ := enterLoop_leaves
    (((ctlWrite (s.e.v ||| maskTF_RST ||| maskRF_RST) s).record
      (.access offCTL 4 .write (s.e.v ||| maskTF_RST ||| maskRF_RST))).goto .tLoop)
  refine .writeCtl (by rw [hu]; rfl) ⟨hb.trans ?_, he.trans ?_, hr.trans ?_, ht.trans ?_, hp.trans ?_⟩ <;>
    simp [ctlWriteValue, ctlWriteEngine, loopEngine, hu]

theorem stepTXchW_effect (hu : s.e.upc = .tXchW) (h : stepTXchW s = .next t) : EngineEffect s t := by
  cases regWrite_ctl_then h
  refine .writeCtl (by rw [hu]; rfl) ⟨?_, ?_, ?_, ?_, ?_⟩ <;> simp [ctlWriteValue, ctlWriteEngine, hu]

theorem stepSpdR_effect (hu : s.e.upc = .spdR) (h : stepSpdR s = .next t) : EngineEffect s t := by
  unfold stepSpdR at h
  have hc := clkOn_of_readInto h
  rw [readInto_cctl _ _ hc] at h
  cases h
  exact .readCctl _ hu ⟨rfl, rfl, rfl, rfl, rfl⟩

theorem stepSpdW_effect (hu : s.e.upc = .spdW) (h : stepSpdW s = .next t) : EngineEffect s t := by
  unfold stepSpdW at h
  rw [regWrite_cctl _ _ (clkOn_of_regWrite_then h)] at h
  cases h
  exact .writeCctl _ hu ⟨rfl, rfl, rfl, rfl, rfl⟩

theorem stepTBc_effect (hu : s.e.upc = .tBc) (h : stepTBc s = .next t) : EngineEffect s t := by
  unfold stepTBc writeThen at h
  rw [regWrite_bc _ _ (clkOn_of_regWrite_then h)] at h
  cases h
  exact .writeBc hu ⟨rfl, rfl, rfl, rfl, rfl⟩

theorem stepTTc_effect (hu : s.e.upc = .tTc) (h : stepTTc s = .next t) : EngineEffect s t := by
  unfold stepTTc writeThen at h
  rw [regWrite_tc _ _ (clkOn_of_regWrite_then h)] at h
  cases h
  exact .writeTc hu ⟨rfl, rfl, rfl, rfl, rfl⟩

theorem stepTFill_effect (hu : s.e.upc = .tFill) (h : stepTFill s = .next t) : EngineEffect s t := by
  obtain ⟨x, _, h⟩ := andThen_eq_next.mp h
  rw [portWrite_txd s x (clkOn_of_portWrite_then h)] at h
  cases h
  exact .fill x hu ⟨by simp, by simp, by simp, by simp, by simp⟩

theorem stepTPoll_effect (hu : s.e.upc = .tPoll) (h : stepTPoll s = .next t) : EngineEffect s t := by
  obtain ⟨p, h1, h2⟩ := andThen_eq_next.mp h
  rw [regRead_ctl s (clkOn_of_memRead h1)] at h1
  cases h1
  split at h2 <;> cases h2
  · refine .pollBusy hu ?_ ⟨rfl, rfl, rfl, rfl, rfl⟩
    split
    · exact .inr rfl
    · exact .inl rfl
  · exact .pollDone hu ⟨rfl, rfl, rfl, rfl, rfl⟩

theorem stepTDrain_effect (hu : s.e.upc = .tDrain) (h : stepTDrain s = .next t) : EngineEffect s t := by
  obtain ⟨p, h1, h2⟩ := andThen_eq_next.mp h
  obtain ⟨_, hr, _⟩ := andThen_eq_next.mp h1
  rw [portRead_rxd s (clkOn_of_memRead hr)] at h1
  cases h1
  obtain ⟨q, h3, h4⟩ := andThen_eq_next.mp h2
  cases h4
  obtain ⟨hq, hrx⟩ := keepByte_next h3
  obtain ⟨hb, he, hr, ht, hp⟩ := afterDrain_leaves q
  refine .drain (rxPop s).1 q.rxBuf hu (by simpa using hrx) ⟨hb.trans ?_, he.trans ?_, hr, ht.trans ?_, hp.trans ?_⟩
  all_goals rw [hq]; simp

/-- An engine step that answers a next state has one of these effects. -/
theorem engineStep_effect (h : engineStep s = .next t) : EngineEffect s t := by
  unfold engineStep at h
  cases hu : s.e.upc <;> rw [hu] at h <;> dsimp only at h
  case idle => cases h; exact .wait hu ⟨rfl, rfl, rfl, rfl, rfl⟩
  case claimR => exact readInto_ctl_effect (by rw [hu]; rfl) h
  case claimW => exact writeFinish_ctl_effect (by rw [hu]; rfl) (by simp [ctlWriteValue, hu]) (by simp [ctlWriteEngine, hu]) h
  case relR => exact readInto_ctl_effect (by rw [hu]; rfl) h
  case relW => exact writeFinish_ctl_effect (by rw [hu]; rfl) (by simp [ctlWriteValue, hu]) (by simp [ctlWriteEngine, hu]) h
  case spdR => exact stepSpdR_effect hu h
  case spdW => exact stepSpdW_effect hu h
  case modeR => exact readInto_ctl_effect (by rw [hu]; rfl) h
  case modeW => exact stepModeW_effect hu h
  case tBegR => exact readInto_ctl_effect (by rw [hu]; rfl) h
  case tBegW => exact stepTBegW_effect hu h
  case tRstR => exact readInto_ctl_effect (by rw [hu]; rfl) h
  case tRstW => exact stepTRstW_effect hu h
  case tLoop => cases h; exact .loopTest hu (enterLoop_leaves s)
  case tBc => exact stepTBc_effect hu h
  case tTc => exact stepTTc_effect hu h
  case tFill => exact stepTFill_effect hu h
  case tXchR => exact readInto_ctl_effect (by rw [hu]; rfl) h
  case tXchW => exact stepTXchW_effect hu h
  case tPoll => exact stepTPoll_effect hu h
  case tToR => exact readInto_ctl_effect (by rw [hu]; rfl) h
  case tToW => exact writeFinish_ctl_effect (by rw [hu]; rfl) (by simp [ctlWriteValue, hu]) (by simp [ctlWriteEngine, hu]) h
  case tDrain => exact stepTDrain_effect hu h
  case tEndR => exact readInto_ctl_effect (by rw [hu]; rfl) h
  case tEndW => exact writeFinish_ctl_effect (by rw [hu]; rfl) (by simp [ctlWriteValue, hu]) (by simp [ctlWriteEngine, hu]) h

end

end Sys2Proof.Machine
end

section
/-! O13, O14: the invariant of the machine in three parts, which an engine step keeps for three reasons: the block (R45, R52), the
counters of the chunk loop (R60, R194, R195), and how far the transfer still reaches into its buffers (R81). -/

namespace Sys2Proof.Machine

/-! ### The parts of the invariant -/

/-- What `Inv` asks of the block: no FIFO-reset bit held (R45), no FIFO over its depth (R52). -/
structure BlockOk (b : Block) : Prop where
  noResetBits : ctlTF_RST b.ctl = false ∧ ctlRF_RST b.ctl = false
  txDepth : b.txFifo.length ≤ Config.fifoDepth
  rxDepth : b.rxFifo.length ≤ Config.fifoDepth

/-- What `Inv` asks of the chunk loop at each position: its counters, and BC and TC (R60, R194, R195). -/
structure LoopFacts (b : Block) (e : Engine) : Prop where
  chunkRange : e.chunk ≤ Config.chunkMax
  kRange : e.k ≤ Config.chunkMax
  remRange : e.rem < 2 ^ 29
  chunkIs : inLoopBody e.upc = true → e.chunk = min e.rem Config.chunkMax ∧ 1 ≤ e.chunk
  kBefore : e.upc = .tBc ∨ e.upc = .tTc → e.k = 0
  kInside : e.upc = .tFill ∨ e.upc = .tDrain → e.k < e.chunk
  bcIs : e.upc = .tTc ∨ e.upc = .tFill ∨ e.upc = .tXchR ∨ e.upc = .tXchW ∨ e.upc = .tPoll → b.bc.toNat = e.chunk
  tcIs : e.upc = .tFill ∨ e.upc = .tXchR ∨ e.upc = .tXchW ∨ e.upc = .tPoll → b.tc = b.bc

/-- What `Inv` asks of the way still to go in the lent buffers (R60, R81). -/
structure Reach (e : Engine) (tx rx : Option Buffer) : Prop where
  tiRange : e.ti + sendLeft e < 2 ^ 29
  riRange : e.ri + recvLeft e < 2 ^ 29
  txRoom : inTransfer e.upc = true → e.txp = true → ∃ b, tx = some b ∧ e.ti + sendLeft e ≤ b.len
  rxRoom : inTransfer e.upc = true → e.rxp = true → ∃ b, rx = some b ∧ e.ri + recvLeft e ≤ b.len

/-- What `Inv` asks of memory: the lent buffers and those at the port in canonical form. -/
structure Canonical (s : State) : Prop where
  tx : ∀ b, s.txBuf = some b → b.wf = true
  rx : ∀ b, s.rxBuf = some b → b.wf = true
  port : ∀ c ∈ s.port, (∀ b, c.tx = some b → b.wf = true) ∧ (∀ b, c.rx = some b → b.wf = true)

theorem inv_iff_parts (s : State) :
    Inv s ↔ BlockOk s.blk ∧ LoopFacts s.blk s.e ∧ Reach s.e s.txBuf s.rxBuf ∧ Canonical s := by
  constructor
  · rintro ⟨h1, h2, h3, h4, h5, h6, h7, h8, h9, h10, h11, h12, h13, h14, h15, h16, h17, h18⟩
    exact ⟨⟨h1, h2, h3⟩, ⟨h4, h5, h6, h9, h10, h11, h12, h13⟩, ⟨h7, h8, h14, h15⟩, ⟨h16, h17, h18⟩⟩
  · rintro ⟨⟨h1, h2, h3⟩, ⟨h4, h5, h6, h9, h10, h11, h12, h13⟩, ⟨h7, h8, h14, h15⟩, ⟨h16, h17, h18⟩⟩
    exact ⟨h1, h2, h3, h4, h5, h6, h7, h8, h9, h10, h11, h12, h13, h14, h15, h16, h17, h18⟩

/-! ### The block -/

section
variable {s t : State} {b b' : Block} {e e' : Engine}

theorem blockOk_ctlWrite (h : BlockOk b) (v : Word) : BlockOk (ctlWriteBlock b v) where
  noResetBits := ⟨(ctlStored_bit b.ctl v 8).trans (by simp), (ctlStored_bit b.ctl v 9).trans (by simp)⟩
  txDepth := by
    show (if ctlTF_RST v then [] else b.txFifo).length ≤ _
    split
    · exact Nat.zero_le _
    · exact h.txDepth
  rxDepth := by
    show (if ctlRF_RST v then [] else b.rxFifo).length ≤ _
    split
    · exact Nat.zero_le _
    · exact h.rxDepth

theorem blockOk_txPush (x : Byte) (h : BlockOk s.blk) : BlockOk (txPush x s).blk := by
  rw [txPush_blk_eq]
  refine ⟨h.noResetBits, ?_, h.rxDepth⟩
  show (if s.blk.txFifo.length < Config.fifoDepth then s.blk.txFifo ++ [x] else s.blk.txFifo).length ≤ _
  split
  · next hroom => simpa using hroom
  · exact h.txDepth

theorem blockOk_burst (h : BlockOk s.blk) : BlockOk (burst s).blk := by
  obtain ⟨htx, hrx⟩ := byteTimes_depth s.blk.bc.toNat s h.rxDepth
  refine ⟨?_, ?_, ?_⟩
  · unfold ctlTF_RST ctlRF_RST
    rw [burst_ctl, clearXch_bit, clearXch_bit]
    simpa [ctlTF_RST, ctlRF_RST] using h.noResetBits
  · rw [burst_txFifo]; exact htx.trans h.txDepth
  · rw [burst_rxFifo]; exact hrx

theorem EngineEffect.blockOk (h : EngineEffect s t) (hb : BlockOk s.blk) : BlockOk t.blk := by
  cases h with
  | wait _ h => rw [h.blk]; exact hb
  | readCtl _ h => rw [h.blk]; exact hb
  | writeCtl _ h => rw [h.blk]; exact blockOk_ctlWrite hb _
  | readCctl _ _ h => rw [h.blk]; exact hb
  | writeCctl _ _ h => rw [h.blk]; exact ⟨hb.noResetBits, hb.txDepth, hb.rxDepth⟩
  | loopTest _ h => rw [h.blk]; exact hb
  | writeBc _ h => rw [h.blk]; exact ⟨hb.noResetBits, hb.txDepth, hb.rxDepth⟩
  | writeTc _ h => rw [h.blk]; exact ⟨hb.noResetBits, hb.txDepth, hb.rxDepth⟩
  | fill x _ h => rw [h.blk]; exact blockOk_txPush x hb
  | pollBusy _ _ h => rw [h.blk]; exact hb
  | pollDone _ h => rw [h.blk]; exact hb
  | drain _ _ _ _ h => rw [h.blk]; exact ⟨hb.noResetBits, hb.txDepth, by simpa using Nat.le_succ_of_le hb.rxDepth⟩

/-! ### The chunk loop -/

/-- The counters and flags of a transfer are as they were. -/
structure SameCounters (e e' : Engine) : Prop where
  txp : e'.txp = e.txp
  rxp : e'.rxp = e.rxp
  rem : e'.rem = e.rem
  chunk : e'.chunk = e.chunk
  k : e'.k = e.k
  ti : e'.ti = e.ti
  ri : e'.ri = e.ri

/-- The positions from the fill's end to the poll: a burst's bytes are pushed and none is drained. -/
def inExchange (u : Upc) : Bool := u == .tXchR || u == .tXchW || u == .tPoll

/-- The positions an engine step can go between with no change of a counter: out of the transfer, or within the prologue, or within
the exchange. -/
inductive Moves (u u' : Upc) : Prop where
  | outside (h : inTransfer u' = false)
  | prologue (h : inPrologue u = true) (h' : inPrologue u' = true)
  | exchange (h : inExchange u = true) (h' : inExchange u' = true)

/-- From `e` to `e'` the transfer's ends in its buffers do not move outward, and no transfer begins. -/
structure Advances (e e' : Engine) : Prop where
  inside : inTransfer e'.upc = true → inTransfer e.upc = true
  txp : e'.txp = e.txp
  rxp : e'.rxp = e.rxp
  sendEnd : e'.ti + sendLeft e' ≤ e.ti + sendLeft e
  recvEnd : e'.ri + recvLeft e' ≤ e.ri + recvLeft e

theorem left_outside (h : inTransfer e.upc = false) : sendLeft e = 0 ∧ recvLeft e = 0 := by
  cases hu : e.upc <;> simp [hu, inTransfer, sendLeft, recvLeft] at h ⊢

theorem left_prologue (h : inPrologue e.upc = true) : inTransfer e.upc = true ∧ sendLeft e = e.rem ∧ recvLeft e = e.rem := by
  cases hu : e.upc <;> simp [hu, inPrologue, inTransfer, sendLeft, recvLeft] at h ⊢

theorem left_exchange (h : inExchange e.upc = true) :
    inTransfer e.upc = true ∧ sendLeft e = e.rem - e.chunk ∧ recvLeft e = e.rem := by
  cases hu : e.upc <;> simp [hu, inExchange, inTransfer, sendLeft, recvLeft] at h ⊢

theorem advances_of_moves (hm : Moves e.upc e'.upc) (hs : SameCounters e e') : Advances e e' := by
  obtain ⟨htxp, hrxp, hrem, hchunk, -, hti, hri⟩ := hs
  cases hm with
  | outside h =>
    obtain ⟨h1, h2⟩ := left_outside h
    exact ⟨by simp [h], htxp, hrxp, by omega, by omega⟩
  | prologue h h' =>
    obtain ⟨hin, h1, h2⟩ := left_prologue h
    obtain ⟨-, h3, h4⟩ := left_prologue h'
    exact ⟨fun _ => hin, htxp, hrxp, by omega, by omega⟩
  | exchange h h' =>
    obtain ⟨hin, h1, h2⟩ := left_exchange h
    obtain ⟨-, h3, h4⟩ := left_exchange h'
    exact ⟨fun _ => hin, htxp, hrxp, by omega, by omega⟩

/-- Out of the loop body only the ranges are asked. -/
theorem loopFacts_outside (h : inLoopBody e.upc = false) (hc : e.chunk ≤ Config.chunkMax) (hk : e.k ≤ Config.chunkMax)
    (hr : e.rem < 2 ^ 29) : LoopFacts b e := by
  cases hu : e.upc <;> simp [hu, inLoopBody] at h
  all_goals exact ⟨hc, hk, hr, by simp [hu, inLoopBody], by simp [hu], by simp [hu], by simp [hu], by simp [hu]⟩

theorem loopFacts_exchange (h : inExchange e.upc = true) (hc : e.chunk ≤ Config.chunkMax) (hk : e.k ≤ Config.chunkMax)
    (hr : e.rem < 2 ^ 29) (hm : e.chunk = min e.rem Config.chunkMax ∧ 1 ≤ e.chunk) (hb : b.bc.toNat = e.chunk) (ht : b.tc = b.bc) :
    LoopFacts b e := by
  refine ⟨hc, hk, hr, fun _ => hm, ?_, ?_, fun _ => hb, fun _ => ht⟩ <;>
    rintro (hu | hu) <;> simp [hu, inExchange] at h

theorem loopFacts_of_moves (hl : LoopFacts b e) (hm : Moves e.upc e'.upc) (hs : SameCounters e e') (hbc : b'.bc = b.bc)
    (htc : b'.tc = b.tc) : LoopFacts b' e' := by
  obtain ⟨hc, hk, hr, hci, -, -, hbi, hti⟩ := hl
  obtain ⟨-, -, hrem, hchunk, hk', -, -⟩ := hs
  rw [← hrem] at hr
  rw [← hchunk] at hc
  rw [← hk'] at hk
  cases hm with
  | outside h => exact loopFacts_outside (by revert h; cases e'.upc <;> simp [inTransfer, inLoopBody]) hc hk hr
  | prologue _ h => exact loopFacts_outside (by revert h; cases e'.upc <;> simp [inPrologue, inLoopBody]) hc hk hr
  | exchange h h' =>
    have hu : e.upc = .tXchR ∨ e.upc = .tXchW ∨ e.upc = .tPoll := by simpa [inExchange, or_assoc] using h
    refine loopFacts_exchange h' hc hk hr ?_ ?_ ?_
    · rw [hchunk, hrem]
      exact hci (by rcases hu with h | h | h <;> rw [h] <;> rfl)
    · rw [hbc, hchunk]
      exact hbi (.inr (.inr hu))
    · rw [hbc, htc]
      exact hti (.inr hu)

/-- A chunk that fits is what BC and TC hold after its write (R195). -/
theorem countWord_toNat {n : Nat} (h : n ≤ Config.chunkMax) : ((countWord n).setWidth 24).toNat = n := by
  unfold Config.chunkMax Config.fifoDepth at h
  simp only [countWord, BitVec.toNat_setWidth, BitVec.toNat_ofNat]
  omega

theorem loopFacts_loopEngine (hc : e.chunk ≤ Config.chunkMax) (hk : e.k ≤ Config.chunkMax) (hr : e.rem < 2 ^ 29) :
    LoopFacts b (loopEngine e) := by
  unfold loopEngine
  split
  · exact loopFacts_outside (by cases e.endF <;> rfl) hc hk hr
  · exact ⟨Nat.min_le_right _ _, Nat.zero_le _, hr, fun _ => ⟨rfl, by simp [Config.chunkMax, Config.fifoDepth]; omega⟩,
      fun _ => rfl, by simp, by simp, by simp⟩

/-- The loop test leaves the ends where the bytes that remain put them. -/
theorem advances_loopEngine (hin : inTransfer e.upc = true) (htxp : e'.txp = e.txp) (hrxp : e'.rxp = e.rxp)
    (hs : e'.ti + e'.rem ≤ e.ti + sendLeft e) (hr : e'.ri + e'.rem ≤ e.ri + recvLeft e) : Advances e (loopEngine e') := by
  unfold loopEngine
  split
  · next h0 =>
    obtain ⟨h1, h2⟩ := left_outside (e := { e' with upc := if e'.endF then .tEndR else .idle }) (by cases e'.endF <;> rfl)
    exact ⟨fun _ => hin, htxp, hrxp, by rw [h1]; show e'.ti + 0 ≤ _; omega, by rw [h2]; show e'.ri + 0 ≤ _; omega⟩
  · exact ⟨fun _ => hin, htxp, hrxp, by simpa [sendLeft, inTransfer] using hs, by simpa [recvLeft, inTransfer] using hr⟩

/-- What an engine step keeps of the loop, from `b` and `e` to `b'` and `e'`. -/
structure LoopKept (e : Engine) (b' : Block) (e' : Engine) : Prop where
  facts : LoopFacts b' e'
  advances : Advances e e'

theorem loopKept_of_moves (hl : LoopFacts b e) (hm : Moves e.upc e'.upc) (hbc : b'.bc = b.bc) (htc : b'.tc = b.tc)
    (hs : SameCounters e e' := by constructor <;> rfl) : LoopKept e b' e' :=
  ⟨loopFacts_of_moves hl hm hs hbc htc, advances_of_moves hm hs⟩

theorem moves_of_ctlReadTarget {u w : Upc} (h : ctlReadTarget u = some w) : Moves u w := by
  cases u <;> cases h
  case claimR => exact .outside rfl
  case relR => exact .outside rfl
  case modeR => exact .outside rfl
  case tBegR => exact .prologue rfl rfl
  case tRstR => exact .prologue rfl rfl
  case tXchR => exact .exchange rfl rfl
  case tToR => exact .outside rfl
  case tEndR => exact .outside rfl

theorem loopKept_tLoop (hl : LoopFacts b e) (hu : e.upc = .tLoop ∨ e.upc = .tRstW) : LoopKept e b' (loopEngine e) := by
  refine ⟨loopFacts_loopEngine hl.chunkRange hl.kRange hl.remRange, advances_loopEngine ?_ rfl rfl ?_ ?_⟩ <;>
    rcases hu with hu | hu <;> simp [hu, inTransfer, sendLeft, recvLeft]

theorem loopKept_ctlWrite (hl : LoopFacts b e) (hbc : b'.bc = b.bc) (htc : b'.tc = b.tc) :
    LoopKept e b' (ctlWriteEngine e) := by
  unfold ctlWriteEngine
  split
  · exact loopKept_of_moves hl (.outside rfl) hbc htc
  · next hu => exact loopKept_of_moves hl (.prologue (by rw [hu]; rfl) rfl) hbc htc
  · next hu => exact loopKept_tLoop hl (.inr hu)
  · next hu => exact loopKept_of_moves hl (.exchange (by rw [hu]; rfl) rfl) hbc htc
  · exact loopKept_of_moves hl (.outside rfl) hbc htc

theorem loopKept_writeBc (hl : LoopFacts b e) (hu : e.upc = .tBc) :
    LoopKept e { b with bc := (countWord e.chunk).setWidth 24 } { e with upc := .tTc } where
  facts := ⟨hl.chunkRange, hl.kRange, hl.remRange, fun _ => hl.chunkIs (by rw [hu]; rfl), fun _ => hl.kBefore (.inl hu), by simp,
    fun _ => countWord_toNat hl.chunkRange, by simp⟩
  advances := ⟨fun _ => by rw [hu]; rfl, rfl, rfl, by simp [sendLeft, inTransfer, hu], by simp [recvLeft, inTransfer, hu]⟩

theorem loopKept_writeTc (hl : LoopFacts b e) (hu : e.upc = .tTc) :
    LoopKept e { b with tc := (countWord e.chunk).setWidth 24 } { e with upc := .tFill } where
  facts := by
    have hci := hl.chunkIs (by rw [hu]; rfl)
    have hk := hl.kBefore (.inr hu)
    have hbc := hl.bcIs (.inl hu)
    exact ⟨hl.chunkRange, hl.kRange, hl.remRange, fun _ => hci, by simp, fun _ => by show e.k < e.chunk; omega, fun _ => hbc,
      fun _ => BitVec.eq_of_toNat_eq ((countWord_toNat hl.chunkRange).trans hbc.symm)⟩
  advances := ⟨fun _ => by rw [hu]; rfl, rfl, rfl, by simp [sendLeft, inTransfer, hu], by simp [recvLeft, inTransfer, hu]⟩

theorem loopKept_fill (hl : LoopFacts b e) (hu : e.upc = .tFill) (hbc : b'.bc = b.bc) (htc : b'.tc = b.tc) :
    LoopKept e b' { e with ti := e.ti + 1, k := e.k + 1, upc := if e.k + 1 = e.chunk then .tXchR else .tFill } := by
  have hci := hl.chunkIs (by rw [hu]; rfl)
  have hk := hl.kInside (.inl hu)
  have hb := hl.bcIs (.inr (.inl hu))
  have ht := hl.tcIs (.inl hu)
  have hc := hl.chunkRange
  rw [← hbc] at hb ht
  rw [← htc] at ht
  split
  · next hlast =>
    refine ⟨loopFacts_exchange rfl hc ?_ hl.remRange hci hb ht, ⟨fun _ => by rw [hu]; rfl, rfl, rfl, ?_, ?_⟩⟩
    · show e.k + 1 ≤ _; omega
    · simp [sendLeft, hu]; omega
    · simp [recvLeft, hu, inTransfer]
  · next hmore =>
    refine ⟨⟨hc, ?_, hl.remRange, fun _ => hci, by simp, fun _ => ?_, fun _ => hb, fun _ => ht⟩,
      ⟨fun _ => by rw [hu]; rfl, rfl, rfl, ?_, ?_⟩⟩
    · show e.k + 1 ≤ _; omega
    · show e.k + 1 < e.chunk; omega
    · simp [sendLeft, hu]; omega
    · simp [recvLeft, hu, inTransfer]

theorem loopKept_pollDone (hl : LoopFacts b e) (hu : e.upc = .tPoll) (v : Word) :
    LoopKept e b { e with v := v, k := 0, upc := .tDrain } := by
  have hci := hl.chunkIs (by rw [hu]; rfl)
  refine ⟨⟨hl.chunkRange, Nat.zero_le _, hl.remRange, fun _ => hci, by simp, fun _ => hci.2, by simp, by simp⟩,
    ⟨fun _ => by rw [hu]; rfl, rfl, rfl, ?_, ?_⟩⟩
  · simp [sendLeft, hu]
  · simp [recvLeft, hu, inTransfer]

theorem loopKept_drain (hl : LoopFacts b e) (hu : e.upc = .tDrain) : LoopKept e b' (drainEngine e) := by
  have hci := hl.chunkIs (by rw [hu]; rfl)
  have hk := hl.kInside (.inr hu)
  have hc := hl.chunkRange
  have hr := hl.remRange
  have hs : sendLeft e = e.rem - e.chunk := by simp [sendLeft, hu]
  have hrl : recvLeft e = e.rem - e.k := by simp [recvLeft, hu]
  have hin : inTransfer e.upc = true := by rw [hu]; rfl
  unfold drainEngine
  split
  · next hlast =>
    refine ⟨loopFacts_loopEngine hc ?_ ?_, advances_loopEngine hin rfl rfl ?_ ?_⟩ <;> dsimp only <;> omega
  · next hmore =>
    refine ⟨⟨hc, ?_, hr, fun _ => hci, by simp [hu], fun _ => ?_, by simp [hu], by simp [hu]⟩, ⟨fun _ => hin, rfl, rfl, ?_, ?_⟩⟩
    · show e.k + 1 ≤ _; omega
    · show e.k + 1 < e.chunk; omega
    · simp [sendLeft, hu]
    · simp [recvLeft, hu]; omega

/-- Every engine step keeps the facts of the loop and moves no end of the transfer outward. -/
theorem EngineEffect.loopKept (h : EngineEffect s t) (hl : LoopFacts s.blk s.e) : LoopKept s.e t.blk t.e := by
  cases h with
  | wait hu h => rw [h.blk, h.e]; exact loopKept_of_moves hl (.outside (by rw [hu]; rfl)) rfl rfl
  | readCtl hu h => rw [h.blk, h.e]; exact loopKept_of_moves hl (moves_of_ctlReadTarget hu) rfl rfl
  | writeCtl _ h => rw [h.blk, h.e]; exact loopKept_ctlWrite hl rfl rfl
  | readCctl _ _ h => rw [h.blk, h.e]; exact loopKept_of_moves hl (.outside rfl) rfl rfl
  | writeCctl _ _ h => rw [h.blk, h.e]; exact loopKept_of_moves hl (.outside rfl) rfl rfl
  | loopTest hu h => rw [h.blk, h.e]; exact loopKept_tLoop hl (.inl hu)
  | writeBc hu h => rw [h.blk, h.e]; exact loopKept_writeBc hl hu
  | writeTc hu h => rw [h.blk, h.e]; exact loopKept_writeTc hl hu
  | fill x hu h => rw [h.blk, h.e]; exact loopKept_fill hl hu (by rw [txPush_blk_eq]) (by rw [txPush_blk_eq])
  | pollBusy hu ht h =>
    rw [h.blk, h.e]
    refine loopKept_of_moves hl ?_ rfl rfl
    rcases ht with rfl | rfl
    · exact .exchange (by rw [hu]; rfl) rfl
    · exact .outside rfl
  | pollDone hu h => rw [h.blk, h.e]; exact loopKept_pollDone hl hu _
  | drain _ _ hu _ h => rw [h.blk, h.e]; exact loopKept_drain hl hu

/-! ### The lent buffers -/

/-- What is still to be moved fits the buffers after an advance, the receive buffer being as long as it was. -/
theorem reach_of_advances {tx rx rx' : Option Buffer} (h : Reach e tx rx) (ha : Advances e e')
    (hrx : ∀ b, rx = some b → ∃ b', rx' = some b' ∧ b'.len = b.len) : Reach e' tx rx' := by
  obtain ⟨hti, hri, htx, hrr⟩ := h
  obtain ⟨hin, htxp, hrxp, hs, hr⟩ := ha
  refine ⟨hs.trans_lt hti, hr.trans_lt hri, fun hu hp => ?_, fun hu hp => ?_⟩
  · obtain ⟨b, hb, hl⟩ := htx (hin hu) (htxp ▸ hp)
    exact ⟨b, hb, hs.trans hl⟩
  · obtain ⟨b, hb, hl⟩ := hrr (hin hu) (hrxp ▸ hp)
    obtain ⟨b', hb', hlen⟩ := hrx b hb
    exact ⟨b', hb', hlen ▸ hr.trans hl⟩

/-- Of the lent buffers an engine step changes at most the receive buffer, by one store. -/
theorem EngineEffect.buffers (h : EngineEffect s t) : t.txBuf = s.txBuf ∧ t.port = s.port ∧
    (t.rxBuf = s.rxBuf ∨ ∃ b i x, s.rxBuf = some b ∧ t.rxBuf = some (b.write i x)) := by
  cases h
  case drain x rx _ hrx h => exact ⟨h.txBuf, h.port, h.rxBuf ▸ hrx.imp id fun ⟨b, hb, hw⟩ => ⟨b, _, x, hb, hw⟩⟩
  all_goals exact ⟨Leaves.txBuf ‹_›, Leaves.port ‹_›, .inl (Leaves.rxBuf ‹_›)⟩

theorem EngineEffect.reach (h : EngineEffect s t) (hl : LoopFacts s.blk s.e) (hr : Reach s.e s.txBuf s.rxBuf) :
    Reach t.e t.txBuf t.rxBuf := by
  obtain ⟨htx, -, hrx⟩ := h.buffers
  rw [htx]
  refine reach_of_advances hr (h.loopKept hl).advances fun b hb => ?_
  rcases hrx with hrx | ⟨b', i, x, hb', hrx⟩
  · exact ⟨b, hrx.trans hb, rfl⟩
  · cases hb.symm.trans hb'
    exact ⟨_, hrx, bufferWrite_len b i x⟩

theorem EngineEffect.canonical (h : EngineEffect s t) (hc : Canonical s) : Canonical t := by
  obtain ⟨htx, hport, hrx⟩ := h.buffers
  refine ⟨by rw [htx]; exact hc.tx, fun b hb => ?_, by rw [hport]; exact hc.port⟩
  rcases hrx with hrx | ⟨b', i, x, hb', hrx⟩
  · exact hc.rx b (hrx.symm.trans hb)
  · cases hrx.symm.trans hb
    exact bufferWrite_keeps_wf i x (hc.rx b' hb')

/-! ### The invariant -/

theorem inv_engineStep (hi : Inv s) (h : engineStep s = .next t) : Inv t := by
  obtain ⟨hb, hl, hr, hc⟩ := (inv_iff_parts s).mp hi
  have he := engineStep_effect h
  exact (inv_iff_parts t).mpr ⟨he.blockOk hb, (he.loopKept hl).facts, he.reach hl hr, he.canonical hc⟩

theorem inv_burst (hi : Inv s) : Inv (burst s) := by
  obtain ⟨hb, hl, hr, hc⟩ := (inv_iff_parts s).mp hi
  have hl' : LoopFacts (burst s).blk s.e :=
    ⟨hl.chunkRange, hl.kRange, hl.remRange, hl.chunkIs, hl.kBefore, hl.kInside, by simpa using hl.bcIs, by simpa using hl.tcIs⟩
  refine (inv_iff_parts _).mpr ⟨blockOk_burst hb, ?_, ?_, ?_⟩
  · simpa using hl'
  · simpa using hr
  · exact ⟨by simpa using hc.tx, by simpa using hc.rx, by simpa using hc.port⟩

/-- The invariant reads the block, the engine, the lent buffers and the port, nothing else. -/
theorem inv_congr (hi : Inv s) (hb : t.blk = s.blk) (he : t.e = s.e) (htx : t.txBuf = s.txBuf) (hrx : t.rxBuf = s.rxBuf)
    (hp : t.port = s.port) : Inv t := by
  obtain ⟨h1, h2, h3, ⟨c1, c2, c3⟩⟩ := (inv_iff_parts s).mp hi
  rw [inv_iff_parts, hb, he, htx, hrx]
  exact ⟨h1, h2, h3, ⟨by rwa [htx], by rwa [hrx], by rwa [hp]⟩⟩

theorem inv_shifterTurn (hi : Inv s) (h : shifterTurn s = .next t) : Inv t := by
  rcases shifterTurn_next h with h1 | h1
  · rw [h1]; exact inv_congr hi rfl rfl rfl rfl rfl
  · rw [h1]; exact inv_burst hi

/-- The acceptance of a command other than TRANSFER: its first position is no position of a transfer. -/
theorem inv_accept (hi : Inv s) (w : CmdWord) {u : Upc} (hu : inTransfer u = false) :
    Inv (s.withEngine { s.e with cmd := w, upc := u }) := by
  obtain ⟨hb, hl, hr, hc⟩ := (inv_iff_parts s).mp hi
  have hk : LoopKept s.e s.blk { s.e with cmd := w, upc := u } :=
    loopKept_of_moves hl (.outside hu) rfl rfl
  exact (inv_iff_parts _).mpr ⟨hb, hk.facts, reach_of_advances hr hk.advances fun b hb => ⟨b, hb, rfl⟩, ⟨hc.tx, hc.rx, hc.port⟩⟩

theorem buffer_of_suffices {p : Bool} {buf : Option Buffer} {n : Nat} (h : bufferSuffices p buf n = true) (hp : p = true) :
    ∃ b, buf = some b ∧ n ≤ b.len := by
  cases buf with
  | none => simp [bufferSuffices, hp] at h
  | some b => exact ⟨b, rfl, by simpa [bufferSuffices, hp] using h⟩

/-- The acceptance of a TRANSFER: the port has checked the lent buffers (R81), and `L` is below 2^29 (R190). -/
theorem inv_transfer (hi : Inv s) (w : CmdWord) (b e tx rx : Bool) (cs : BitVec 2) {n : Nat} (hn : n < 2 ^ 32)
    (htx : bufferSuffices tx s.txBuf (transferBytes n) = true) (hrx : bufferSuffices rx s.rxBuf (transferBytes n) = true) :
    Inv (s.withEngine (transferEngine s.e w b e tx rx cs n)) := by
  obtain ⟨hb, hl, -, hc⟩ := (inv_iff_parts s).mp hi
  have hlen : transferBytes n < 2 ^ 29 := by unfold transferBytes; omega
  have hpro : inPrologue (transferEngine s.e w b e tx rx cs n).upc = true := by cases b <;> rfl
  obtain ⟨-, hs, hr⟩ := left_prologue hpro
  refine (inv_iff_parts _).mpr ⟨hb, loopFacts_outside ?_ hl.chunkRange hl.kRange hlen, ⟨?_, ?_, ?_, ?_⟩, ⟨hc.tx, hc.rx, hc.port⟩⟩
  · cases b <;> rfl
  · rw [withEngine_e, hs]; simpa [transferEngine] using hlen
  · rw [withEngine_e, hr]; simpa [transferEngine] using hlen
  · intro _ hp
    rw [withEngine_e, hs]; simpa [transferEngine] using buffer_of_suffices htx hp
  · intro _ hp
    rw [withEngine_e, hr]; simpa [transferEngine] using buffer_of_suffices hrx hp

/-- A command that leaves the port takes its buffers with it, which are in canonical form. -/
theorem inv_take (hi : Inv s) {c : HostCommand} {rest : List HostCommand} (hidle : s.e.upc = .idle) (hport : s.port = c :: rest) :
    Inv { s with port := rest } ∧ Inv { s with port := rest, txBuf := c.tx, rxBuf := c.rx } := by
  obtain ⟨hb, hl, hr, hc⟩ := (inv_iff_parts s).mp hi
  have hport' := hc.port
  rw [hport] at hport'
  obtain ⟨⟨hctx, hcrx⟩, hrest⟩ := List.forall_mem_cons.mp hport'
  have hout : inTransfer s.e.upc = false := by rw [hidle]; rfl
  exact ⟨(inv_iff_parts _).mpr ⟨hb, hl, hr, ⟨hc.tx, hc.rx, hrest⟩⟩,
    (inv_iff_parts _).mpr ⟨hb, hl, ⟨hr.tiRange, hr.riRange, by simp [hout], by simp [hout]⟩, ⟨hctx, hcrx, hrest⟩⟩⟩

/-- The invariant is kept by everything a step is made of. -/
theorem inv_kept : Kept Inv where
  moment _ hi := inv_congr hi rfl rfl rfl rfl rfl
  turn _ _ := inv_shifterTurn
  engine _ _ := inv_engineStep
  accept _ w _ hi _ hu := inv_accept hi w (by rcases hu with rfl | rfl | rfl | rfl <;> rfl)
  transfer _ w b e tx rx cs _ hi _ hn htx hrx := inv_transfer hi w b e tx rx cs hn htx hrx
  reject _ _ _ hi := inv_congr hi rfl rfl rfl rfl rfl
  take _ _ _ hi hidle hport := inv_take hi hidle hport

end

/-- Settles O13: the invariant is kept by everything a step is made of, so by a step. -/
theorem stepKeepsInv : Obligations.StepKeepsInv := by
  unfold Obligations.StepKeepsInv
  exact fun _ _ hi h => inv_kept.step hi h

end Sys2Proof.Machine
end

section
/-! O37, O49: what becomes of the bits of CTL and CCTL no field names (R41), and of XCH (R44, R211). -/

namespace Sys2Proof.Machine

/-! ### The bits no field names, in the values the core writes (R41) -/

/-- Two CTL values that agree bit by bit outside the fields agree under the mask. -/
theorem ctlOther_ext {v w : Word} (h : ∀ j, maskCtlOther.getLsbD j = true → v.getLsbD j = w.getLsbD j) :
    v &&& maskCtlOther = w &&& maskCtlOther := by
  refine BitVec.eq_of_getLsbD_eq fun j _ => ?_
  rw [BitVec.getLsbD_and, BitVec.getLsbD_and]
  cases hm : maskCtlOther.getLsbD j
  · rw [Bool.and_false, Bool.and_false]
  · rw [h j hm]

/-- A field of CTL is no bit under the mask. -/
theorem ne_of_ctlOther {j i : Nat} (h : maskCtlOther.getLsbD j = true) (hi : maskCtlOther.getLsbD i = false) : j ≠ i := by
  rintro rfl
  rw [h] at hi
  cases hi

theorem beq_of_ctlOther {j i : Nat} (h : maskCtlOther.getLsbD j = true) (hi : maskCtlOther.getLsbD i = false) : (j == i) = false :=
  beq_eq_false_iff_ne.mpr (ne_of_ctlOther h hi)

theorem ctlRead_other (b : Block) : ctlRead b &&& maskCtlOther = b.ctl &&& maskCtlOther := by
  refine ctlOther_ext fun j h => ?_
  simp [ctlRead_bit, beq_of_ctlOther h (i := 8) rfl, beq_of_ctlOther h (i := 9) rfl]

theorem ctlStored_other (old v : Word) : ctlStored old v &&& maskCtlOther = v &&& maskCtlOther := by
  refine ctlOther_ext fun j h => ?_
  simp [ctlStored_bit, beq_of_ctlOther h (i := 8) rfl, beq_of_ctlOther h (i := 9) rfl, beq_of_ctlOther h (i := 10) rfl]

theorem clearXch_other (v : Word) : (v &&& ~~~maskXCH) &&& maskCtlOther = v &&& maskCtlOther := by
  refine ctlOther_ext fun j h => ?_
  rw [clearXch_bit]
  simp [beq_of_ctlOther h (i := 10) rfl]

theorem modeValue_other (v : Word) (cpol cpha : Bool) : modeValue v cpol cpha &&& maskCtlOther = v &&& maskCtlOther := by
  refine ctlOther_ext fun j h => ?_
  rw [modeValue_bit, if_neg (ne_of_ctlOther h rfl), if_neg (ne_of_ctlOther h rfl)]

theorem setcsValue_other (v : Word) (c : BitVec 2) (sel : Bool) : setcsValue v c sel &&& maskCtlOther = v &&& maskCtlOther := by
  refine ctlOther_ext fun j h => ?_
  rw [setcsValue_bit, if_neg (ne_of_ctlOther h rfl), if_neg (ne_of_ctlOther h rfl), if_neg (ne_of_ctlOther h rfl)]

/-- Or-ing in fields changes no other bit. -/
theorem or_other (v : Word) {m : Word} (hm : m &&& maskCtlOther = 0#32) : (v ||| m) &&& maskCtlOther = v &&& maskCtlOther := by
  refine ctlOther_ext fun j h => ?_
  have hj : (m &&& maskCtlOther).getLsbD j = false := by rw [hm, BitVec.getLsbD_zero]
  rw [BitVec.getLsbD_and, h, Bool.and_true] at hj
  rw [BitVec.getLsbD_or, hj, Bool.or_false]

theorem claimValue_other (v : Word) : claimValue v &&& maskCtlOther = v &&& maskCtlOther := by
  unfold claimValue
  rw [or_other _ (by decide), or_other _ (by decide), or_other _ (by decide), or_other _ (by decide), or_other _ (by decide)]

theorem releaseValue_other (v : Word) : releaseValue v &&& maskCtlOther = v &&& maskCtlOther := by
  refine ctlOther_ext fun j h => ?_
  simp [releaseValue_bit, beq_of_ctlOther h (i := 0) rfl]

/-- Whatever position writes CTL back, the other bits are those of the value it read. -/
theorem ctlWriteValue_other (e : Engine) : ctlWriteValue e &&& maskCtlOther = e.v &&& maskCtlOther := by
  unfold ctlWriteValue
  split
  · exact claimValue_other _
  · exact releaseValue_other _
  · exact modeValue_other _ _ _
  · exact setcsValue_other _ _ _
  · rw [or_other _ (by decide), or_other _ (by decide)]
  · exact or_other _ (by decide)
  · exact setcsValue_other _ _ _
  · exact setcsValue_other _ _ _
  · rfl

/-! ### The bits no field names, in a step -/

section
variable {x y : Word} {s t : State}

/-- A position that holds no register value: `e.v` is written back to neither CTL nor CCTL from it. -/
def holdsNothing (u : Upc) : Bool := !holdsCtl u && u != .spdW

/-- At a position that holds no register value the two held clauses say nothing. -/
theorem otherBits_of_holdsNothing (hctl : s.blk.ctl &&& maskCtlOther = x) (hcctl : s.blk.cctl &&& maskCctlOther = y)
    (hu : holdsNothing s.e.upc = true) : OtherBits x y s := by
  simp only [holdsNothing, Bool.and_eq_true, Bool.not_eq_true', bne_iff_ne] at hu
  obtain ⟨hheld, hspd⟩ := hu
  exact ⟨hctl, hcctl, fun h => absurd h (by simp [hheld]), fun h => absurd h hspd⟩

theorem holdsNothing_loopEngine (e : Engine) : holdsNothing (loopEngine e).upc = true := by
  unfold loopEngine
  split
  · cases e.endF <;> rfl
  · rfl

theorem holdsNothing_ctlWriteEngine (e : Engine) : holdsNothing (ctlWriteEngine e).upc = true := by
  unfold ctlWriteEngine
  split
  · rfl
  · rfl
  · exact holdsNothing_loopEngine e
  · rfl
  · rfl

theorem holdsNothing_drainEngine {e : Engine} (hu : e.upc = .tDrain) : holdsNothing (drainEngine e).upc = true := by
  unfold drainEngine
  split
  · exact holdsNothing_loopEngine _
  · show holdsNothing e.upc = true
    rw [hu]; rfl

theorem EngineEffect.otherBits (he : EngineEffect s t) (h : OtherBits x y s) : OtherBits x y t := by
  obtain ⟨hctl, hcctl, hheld, hcheld⟩ := h
  cases he with
  | wait hu h => exact otherBits_of_holdsNothing (by rwa [h.blk]) (by rwa [h.blk]) (by rw [h.e, hu]; rfl)
  | readCtl hu h =>
    refine ⟨by rwa [h.blk], by rwa [h.blk], fun _ => by rw [h.e]; exact (ctlRead_other s.blk).trans hctl, fun ht => ?_⟩
    rw [h.e] at ht
    cases ht
    revert hu
    cases s.e.upc <;> simp [ctlReadTarget]
  | writeCtl hu h =>
    refine otherBits_of_holdsNothing ?_ (by rw [h.blk]; exact hcctl) (by rw [h.e]; exact holdsNothing_ctlWriteEngine _)
    rw [h.blk]
    exact (ctlStored_other _ _).trans ((ctlWriteValue_other s.e).trans (hheld hu))
  | readCctl _ _ h => exact ⟨by rwa [h.blk], by rwa [h.blk], by simp [h.e, holdsCtl], fun _ => by rw [h.e]; exact hcctl⟩
  | writeCctl d hu h =>
    refine otherBits_of_holdsNothing (by rw [h.blk]; exact hctl) ?_ (by rw [h.e]; rfl)
    rw [h.blk]
    exact (cctlOther_kept s.e.v d).trans (hcheld hu)
  | loopTest _ h => exact otherBits_of_holdsNothing (by rwa [h.blk]) (by rwa [h.blk]) (by rw [h.e]; exact holdsNothing_loopEngine _)
  | writeBc _ h => exact otherBits_of_holdsNothing (by rw [h.blk]; exact hctl) (by rw [h.blk]; exact hcctl) (by rw [h.e]; rfl)
  | writeTc _ h => exact otherBits_of_holdsNothing (by rw [h.blk]; exact hctl) (by rw [h.blk]; exact hcctl) (by rw [h.e]; rfl)
  | fill b _ h =>
    refine otherBits_of_holdsNothing (by rwa [h.blk, txPush_blk_eq]) (by rwa [h.blk, txPush_blk_eq]) ?_
    rw [h.e]
    show holdsNothing (if s.e.k + 1 = s.e.chunk then .tXchR else .tFill) = true
    split <;> rfl
  | pollBusy _ ht h =>
    refine otherBits_of_holdsNothing (by rwa [h.blk]) (by rwa [h.blk]) ?_
    rcases ht with rfl | rfl <;> rw [h.e] <;> rfl
  | pollDone _ h => exact otherBits_of_holdsNothing (by rwa [h.blk]) (by rwa [h.blk]) (by rw [h.e]; rfl)
  | drain _ _ hu _ h =>
    exact otherBits_of_holdsNothing (by rw [h.blk]; exact hctl) (by rw [h.blk]; exact hcctl)
      (by rw [h.e]; exact holdsNothing_drainEngine hu)

/-- The shifter changes XCH alone of CTL (R209). -/
theorem otherBits_shifterTurn (h : OtherBits x y s) (ht : shifterTurn s = .next t) : OtherBits x y t := by
  obtain ⟨hctl, hcctl, hheld, hcheld⟩ := h
  rcases shifterTurn_next ht with h1 | h1
  · rw [h1]; exact ⟨hctl, hcctl, hheld, hcheld⟩
  · rw [h1]
    exact ⟨by rw [burst_ctl, clearXch_other, hctl], by rw [burst_cctl, hcctl], by simpa using hheld, by simpa using hcheld⟩

/-- The other bits are kept by everything a step is made of; a command is accepted at a position that holds no register value. -/
theorem otherBits_kept (x y : Word) : Kept (OtherBits x y) where
  moment _ h := ⟨h.ctl, h.cctl, h.ctlHeld, h.cctlHeld⟩
  turn _ _ := otherBits_shifterTurn
  engine _ _ h ht := (engineStep_effect ht).otherBits h
  accept _ _ _ h _ hu := otherBits_of_holdsNothing h.ctl h.cctl (by rcases hu with rfl | rfl | rfl | rfl <;> rfl)
  transfer _ _ b _ _ _ _ _ h _ _ _ _ := otherBits_of_holdsNothing h.ctl h.cctl (by cases b <;> rfl)
  reject _ _ _ h := ⟨h.ctl, h.cctl, h.ctlHeld, h.cctlHeld⟩
  take _ _ _ h _ _ := ⟨⟨h.ctl, h.cctl, h.ctlHeld, h.cctlHeld⟩, ⟨h.ctl, h.cctl, h.ctlHeld, h.cctlHeld⟩⟩

/-! ### XCH -/

/-- An engine step changes CTL by a write of it or not at all. -/
theorem EngineEffect.ctl (h : EngineEffect s t) : t.blk.ctl = s.blk.ctl ∨ ∃ v, t.blk = ctlWriteBlock s.blk v := by
  cases h
  case writeCtl _ h => exact .inr ⟨_, h.blk⟩
  case fill h => exact .inl (by rw [h.blk, txPush_blk_eq])
  all_goals exact .inl (by rw [Leaves.blk ‹_›])

end

/-- Settles O37: the bits no field names are kept by everything a step is made of, so by a step. -/
theorem stepKeepsTheOtherBits : Obligations.StepKeepsTheOtherBits := by
  unfold Obligations.StepKeepsTheOtherBits
  exact fun x y _ _ h ht => (otherBits_kept x y).step h ht

/-- Settles O49: an engine step changes CTL by a write of it or not at all, and no write of CTL clears XCH (R44). -/
theorem noEngineStepClearsXch : Obligations.NoEngineStepClearsXch := by
  unfold Obligations.NoEngineStepClearsXch
  intro s t hb h
  rcases (engineStep_effect h).ctl with hc | ⟨v, hw⟩
  · unfold busy
    rw [hc]
    exact hb
  · rw [hw, busy_after_write, hb, Bool.or_true]

end Sys2Proof.Machine
end

section
/-! O38, O39, O40: what the accesses of the register bus do to the block (R43 to R45, R47 to R50). -/

namespace Sys2Proof.Machine

/-! ### CTL -/

section
variable (s : State) (b : Block) (v : Word)

theorem ctlRead_write_storage {j : Nat} (h8 : j ≠ 8) (h9 : j ≠ 9) (h10 : j ≠ 10) :
    (ctlRead (ctlWriteBlock b v)).getLsbD j = v.getLsbD j := by
  rw [ctlRead_bit, show (ctlWriteBlock b v).ctl = ctlStored b.ctl v from rfl, ctlStored_bit]
  simp [beq_eq_false_iff_ne.mpr h8, beq_eq_false_iff_ne.mpr h9, beq_eq_false_iff_ne.mpr h10]

/-- The FIFO-reset bits read 0 (R45). -/
theorem ctlRead_reset : (ctlRead b).getLsbD 8 = false ∧ (ctlRead b).getLsbD 9 = false := by
  rw [ctlRead_bit, ctlRead_bit]
  simp

/-- CTL reads XCH as the burst in flight (R44). -/
theorem ctlRead_xch : (ctlRead b).getLsbD 10 = busy b := by
  rw [ctlRead_bit]
  exact Bool.and_true _

/-- A write of CTL that starts no burst draws nothing. -/
theorem ctlWrite_env (h : v.getLsbD 10 = false ∨ busy s.blk = true) : (ctlWrite v s).env = s.env := by
  have hb : ¬(ctlXCH v && !busy s.blk) = true := by
    unfold ctlXCH
    rcases h with h | h
    · rw [h, Bool.false_and]; decide
    · rw [h, Bool.not_true, Bool.and_false]; decide
  unfold ctlWrite
  rw [if_neg hb]

end

/-- Settles O38: the write is `ctlWrite`, recorded. -/
theorem aWriteOfCtl : Obligations.AWriteOfCtl := by
  unfold Obligations.AWriteOfCtl
  intro s v hc
  refine ⟨_, regWrite_ctl s v hc, ?_⟩
  simp only [record_blk, record_env, ctlWrite_blk]
  refine ⟨fun j _ h8 h9 h10 => ctlRead_write_storage s.blk v h8 h9 h10, (ctlRead_reset _).1, (ctlRead_reset _).2,
    (ctlRead_xch _).trans (busy_after_write s.blk v), rfl, ?_, fun h => by rw [ctlWrite_env s v h]⟩
  rw [ctlWrite_eq]
  rfl

/-! ### BC, TC and FSTA -/

section
variable (s : State) (v : Word)

theorem regRead_bc {c : Word} (hc : s.clkOn = true) (h : s.blk.bc.setWidth 32 = c) :
    regRead offBC s = .next (c, s.record (.access offBC 4 .read c)) := by
  subst h; unfold regRead; rw [memRead_offset s 4 hc (by decide)]; rfl

theorem regRead_tc {c : Word} (hc : s.clkOn = true) (h : s.blk.tc.setWidth 32 = c) :
    regRead offTC s = .next (c, s.record (.access offTC 4 .read c)) := by
  subst h; unfold regRead; rw [memRead_offset s 4 hc (by decide)]; rfl

theorem regRead_fsta (hc : s.clkOn = true) :
    regRead offFSTA s = .next (fstaRead s.blk, s.record (.access offFSTA 4 .read (fstaRead s.blk))) := by
  unfold regRead; rw [memRead_offset s 4 hc (by decide)]; rfl

/-- A write of FSTA is recorded and otherwise ignored (R48). -/
theorem regWrite_fsta (hc : s.clkOn = true) :
    regWrite offFSTA v s = .next (s.record (.access offFSTA 4 .write v)) := by
  unfold regWrite; rw [memWrite_offset s 4 v hc (by decide)]; rfl

/-- What is kept of a written count reads back with bits 31:24 at 0 (R47). -/
theorem count_readback : ((v.setWidth 24).setWidth 32 : Word) = v &&& 0x00FFFFFF#32 := by
  refine BitVec.eq_of_toNat_eq ?_
  rw [BitVec.toNat_and, show (0x00FFFFFF#32 : Word).toNat = 2 ^ 24 - 1 from rfl, Nat.and_two_pow_sub_one_eq_mod,
    BitVec.toNat_setWidth, BitVec.toNat_setWidth]
  omega

/-- FSTA as a number: the RX count at bit 0, the TX count at bit 16 (R48). -/
theorem fstaRead_toNat {b : Block} (htx : b.txFifo.length ≤ 64) (hrx : b.rxFifo.length ≤ 64) :
    (fstaRead b).toNat = b.rxFifo.length + 65536 * b.txFifo.length := by
  have hr : ((BitVec.ofNat 7 b.rxFifo.length).setWidth 32 : Word).toNat = b.rxFifo.length := by
    simp only [BitVec.toNat_setWidth, BitVec.toNat_ofNat]; omega
  have ht : ((BitVec.ofNat 7 b.txFifo.length).setWidth 32 <<< 16 : Word).toNat = b.txFifo.length <<< 16 := by
    simp only [BitVec.toNat_shiftLeft, BitVec.toNat_setWidth, BitVec.toNat_ofNat, Nat.shiftLeft_eq]; omega
  rw [fstaRead, BitVec.toNat_or, hr, ht, Nat.or_comm, ← Nat.shiftLeft_add_eq_or_of_lt (by omega), Nat.shiftLeft_eq]
  omega

end

/-- Settles O39: each register by its access. -/
theorem countAndStatusRegisters : Obligations.CountAndStatusRegisters := by
  unfold Obligations.CountAndStatusRegisters
  intro s v hc htx hrx
  exact ⟨⟨_, _, regWrite_bc s v hc, rfl, regRead_bc _ hc (count_readback v), rfl⟩,
    ⟨_, _, regWrite_tc s v hc, rfl, regRead_tc _ hc (count_readback v), rfl⟩,
    ⟨_, _, regRead_fsta s hc, rfl, fstaRead_toNat htx hrx⟩, ⟨_, regWrite_fsta s v hc, rfl⟩⟩

/-! ### The data ports -/

section
variable (s : State)

/-- A read of TXD is a drawn byte, with no side effect on the block (R49). -/
theorem portRead_txd (hc : s.clkOn = true) :
    portRead offTXD s =
      .next ((drawByte s).1, (drawByte s).2.record (.access offTXD 1 .read ((drawByte s).1.setWidth 32))) := by
  unfold portRead
  rw [memRead_offset s 1 hc (by decide), show busRead offTXD 1 s = .next ((drawByte s).1.setWidth 32, (drawByte s).2) from rfl]
  simp

/-- A write of RXD is recorded and otherwise ignored (R50). -/
theorem portWrite_rxd (b : Byte) (hc : s.clkOn = true) :
    portWrite offRXD b s = .next (s.record (.access offRXD 1 .write (b.setWidth 32))) := by
  unfold portWrite
  rw [memWrite_offset s 1 _ hc (by decide)]
  rfl

theorem rxPop_head {x : Byte} {xs : List Byte} (h : s.blk.rxFifo = x :: xs) : (rxPop s).1 = x := by
  unfold rxPop
  rw [h]

end

/-- Settles O40: each port by its access; a push is `txPush_blk_eq`, a pop `rxPop_blk`. -/
theorem dataPorts : Obligations.DataPorts := by
  unfold Obligations.DataPorts
  intro s b hc
  refine ⟨⟨_, portWrite_txd s b hc, txPush_blk_eq b s⟩, fun x xs h => ?_, fun h => ⟨_, _, portRead_rxd s hc, ?_⟩,
    ⟨_, _, portRead_txd s hc, rfl⟩, ⟨_, portWrite_rxd s b hc, rfl⟩⟩
  · have hr := portRead_rxd s hc
    rw [rxPop_head s h] at hr
    exact ⟨_, hr, by rw [record_blk, rxPop_blk, h]; rfl⟩
  · rw [record_blk, rxPop_blk, h]
    exact congrArg (fun l => { s.blk with rxFifo := l }) h.symm

end Sys2Proof.Machine
end

section
/-! O6, O7, O14, O18, O19: the cases of a step (R31, R62) and what reset leaves (R70, R290). -/

namespace Sys2Proof.Machine

/-! ### The cases of a step -/

section
variable {s s1 t : State}

/-- A step in a valid configuration is the shifter's turn, then the engine's (R85). -/
theorem step_of_turn (hv : s.cfg.valid = true) (h : shifterTurn s.nextMoment = .next s1) : step s = engineTurn s1 := by
  rw [step, if_pos hv, h]
  rfl

theorem engineTurn_busy (hu : s.e.upc ≠ .idle) : engineTurn s = engineStep s := if_neg hu

/-- In IDLE with no command presented the engine waits (R295). -/
theorem engineTurn_waits (hu : s.e.upc = .idle) (hp : s.port = []) : engineTurn s = .next s := by
  rw [engineTurn, if_pos hu, hp]

/-- In IDLE a command that decodes is executed (R62, R116). -/
theorem engineTurn_decoded {c : HostCommand} {rest : List HostCommand} {i : Instr} (hu : s.e.upc = .idle) (hp : s.port = c :: rest)
    (hd : decodeWord c.word = .ok i) : engineTurn s = exec i (takeCommand c rest i s) := by
  rw [engineTurn, if_pos hu, hp]
  dsimp only
  rw [hd]

/-- A command leaves the port, and a TRANSFER alone brings its buffers (R81, R114). -/
theorem takeCommand_frame (c : HostCommand) (rest : List HostCommand) (i : Instr) (s : State) :
    takeCommand c rest i s =
        { s with port := rest, txBuf := (takeCommand c rest i s).txBuf, rxBuf := (takeCommand c rest i s).rxBuf } ∧
      (if opcodeOf i = 5#4 then (takeCommand c rest i s).txBuf = c.tx ∧ (takeCommand c rest i s).rxBuf = c.rx
       else (takeCommand c rest i s).txBuf = s.txBuf ∧ (takeCommand c rest i s).rxBuf = s.rxBuf) := by
  cases i <;> exact ⟨rfl, rfl, rfl⟩

/-- No command is accepted while one is in execution (R31). -/
theorem exec_busy (i : Instr) (hu : s.e.upc ≠ .idle) : exec i s = .fault .engineBusy := by
  cases i with
  | claim => exact andThen_eq_fault.mpr (.inl (accept_busy s _ _ hu))
  | release => exact andThen_eq_fault.mpr (.inl (accept_busy s _ _ hu))
  | setSpeed hz => exact andThen_eq_fault.mpr (.inl (accept_busy s _ _ hu))
  | setMode cpol cpha => exact andThen_eq_fault.mpr (.inl (accept_busy s _ _ hu))
  | transfer b e tx rx cs n => exact andThen_eq_fault.mpr (.inl (if_pos hu))

end

/-- Settles O6: the shifter's turn leaves the engine and the port, so the command found after it is the one presented. -/
theorem stepRunsTheDecodedCommand : Obligations.StepRunsTheDecodedCommand := by
  unfold Obligations.StepRunsTheDecodedCommand
  intro s s1 c rest i hv hu hp hd h
  obtain ⟨-, he, hport, htx, hrx⟩ := shifterTurn_frame h
  obtain ⟨hframe, hbufs⟩ := takeCommand_frame c rest i s1
  rw [htx, hrx] at hbufs
  exact ⟨(step_of_turn hv h).trans (engineTurn_decoded (by rw [he]; exact hu) (by rw [hport]; exact hp) hd), hframe, hbufs⟩

/-- Settles O7: the engine's turn is then one engine step, which leaves the port as the shifter's turn did. -/
theorem aCommandInExecutionRunsOnAlone : Obligations.ACommandInExecutionRunsOnAlone := by
  unfold Obligations.ACommandInExecutionRunsOnAlone
  intro s s1 hv hu h
  obtain ⟨-, he, hport, -, -⟩ := shifterTurn_frame h
  have hstep : step s = engineStep s1 := (step_of_turn hv h).trans (engineTurn_busy (by rw [he]; exact hu))
  exact ⟨hstep, fun t ht => (engineStep_frame (hstep ▸ ht)).port.trans hport, fun i => exec_busy i hu⟩

/-! ### Reset -/

section
variable {s : State}

/-- With the engine and the block at reset only memory's form is left to ask of the invariant. -/
theorem inv_of_reset (hb : s.blk = Block.reset) (he : s.e = Engine.reset) (hc : Canonical s) : Inv s := by
  rw [inv_iff_parts, hb, he]
  exact ⟨⟨by decide, by decide, by decide⟩, loopFacts_outside rfl (by decide) (by decide) (by decide),
    ⟨by decide, by decide, fun h => absurd h (by decide), fun h => absurd h (by decide)⟩, hc⟩

/-- With no burst in flight, the engine IDLE and no command presented, a step lets its moment pass and does nothing else (R295). -/
theorem step_waits (hv : s.cfg.valid = true) (hq : busy s.blk = false) (hu : s.e.upc = .idle) (hp : s.port = []) :
    step s = .next s.nextMoment :=
  (step_of_turn hv (shifterTurn_quiet hq)).trans (engineTurn_waits hu hp)

/-- A count register holding 0 reads 0 in every bit. -/
theorem zero_count_bit (j : Nat) : ((0#24 : BitVec 24).setWidth 32 : Word).getLsbD j = false := by
  simp

end

/-- Settles O14: the reset state lends no buffer and has no command at its port. -/
theorem resetMeetsInv : Obligations.ResetMeetsInv := by
  unfold Obligations.ResetMeetsInv
  exact inv_of_reset rfl rfl ⟨by simp [State.reset], by simp [State.reset], by simp [State.reset]⟩

/-- Settles O18: the fields by evaluation, the step as one of a waiting machine. -/
theorem resetLeavesNoBurstAndEmptyFifos : Obligations.ResetLeavesNoBurstAndEmptyFifos := by
  unfold Obligations.ResetLeavesNoBurstAndEmptyFifos
  exact ⟨by decide, by decide, by decide, rfl, rfl, by decide, rfl, fun j _ => ⟨zero_count_bit j, zero_count_bit j⟩,
    step_waits (by decide) (by decide) rfl rfl⟩

/-- Settles O19: the block and the engine are those of reset, and all else stands. -/
theorem aHardwareResetLeavesNoBurstAndEmptyFifos : Obligations.AHardwareResetLeavesNoBurstAndEmptyFifos := by
  unfold Obligations.AHardwareResetLeavesNoBurstAndEmptyFifos
  intro s
  have hb : (hardwareReset s).blk = Block.reset := rfl
  rw [hb]
  exact ⟨by decide, by decide, by decide, rfl, rfl, by decide, rfl, fun j _ => ⟨zero_count_bit j, zero_count_bit j⟩,
    rfl, rfl, rfl, rfl, rfl, rfl, fun hi => inv_of_reset rfl rfl ⟨hi.txCanonical, hi.rxCanonical, hi.portCanonical⟩,
    fun hv hp => step_waits hv (by rw [hb]; decide) rfl hp⟩

end Sys2Proof.Machine
end

section
/-! O42, O43: a byte memory as a function from addresses (R81): what a store does to it, and the canonical form as its one
representation (notes/assumptions/15.md). -/

namespace Sys2Proof.Machine

/-- An entry at the head of the form: at or above the bound, no unlisted byte, and the rest above it. -/
theorem wfAbove_cons {lo a : Nat} {b : Byte} {rest : Memory} :
    Memory.wfAbove lo ((a, b) :: rest) = true ↔ lo ≤ a ∧ b ≠ Memory.unlisted ∧ Memory.wfAbove (a + 1) rest = true := by
  simp [Memory.wfAbove, and_assoc]

theorem read_nil (a : Nat) : Memory.read [] a = Memory.unlisted := rfl

theorem read_cons (a' : Nat) (b : Byte) (rest : Memory) (a : Nat) :
    Memory.read ((a', b) :: rest) a = if a' = a then b else Memory.read rest a := rfl

/-- A store is read back at its address and leaves every other address as it was.  The form matters where 0x00 is stored: the
entry is dropped, and no later entry has its address. -/
theorem read_write {lo : Nat} {m : Memory} (a : Nat) (b : Byte) (hm : Memory.wfAbove lo m = true) (x : Nat) :
    (Memory.write m a b).read x = if a = x then b else m.read x := by
  induction m generalizing lo with
  | nil =>
    unfold Memory.write
    split
    · next hb => rw [read_nil, hb, ite_self]
    · rw [read_cons]
  | cons p rest ih =>
    obtain ⟨a', b'⟩ := p
    have hbelow : ∀ y, y < a' → Memory.read ((a', b') :: rest) y = Memory.unlisted := fun y hy =>
      read_below (wfAbove_cons.mpr ⟨Nat.le_refl a', (wfAbove_cons.mp hm).2⟩) hy
    obtain ⟨-, -, hrest⟩ := wfAbove_cons.mp hm
    unfold Memory.write
    split
    · next hlt =>
      split
      · next hb =>
        split
        · next hx => rw [← hx, hbelow a hlt, hb]
        · rfl
      · rw [read_cons]
    · split
      · next heq =>
        subst heq
        split
        · next hb =>
          rw [read_cons]
          split
          · next hx => rw [← hx, read_below hrest (Nat.lt_succ_self a), hb]
          · rfl
        · rw [read_cons, read_cons]
          split <;> rfl
      · next hne =>
        rw [read_cons, read_cons, ih hrest]
        split
        · next hx => rw [if_neg (by rw [← hx]; exact hne)]
        · rfl

/-- A head is a listed byte, so a memory that reads alike lists one at its address or below. -/
theorem not_wfAbove_of_reads {lo a : Nat} {b : Byte} {rest m : Memory} (h : Memory.wfAbove lo ((a, b) :: rest) = true)
    (hread : ∀ x, Memory.read ((a, b) :: rest) x = m.read x) : ¬ Memory.wfAbove (a + 1) m = true := by
  intro hm
  have hb : b = Memory.unlisted := by
    rw [← read_below hm (Nat.lt_succ_self a), ← hread, read_cons, if_pos rfl]
  exact (wfAbove_cons.mp h).2.1 hb

/-- The form is the one list of the bytes it reads as: by induction, the heads being the lowest listed addresses. -/
theorem eq_of_reads {lo lo' : Nat} {m m' : Memory} (hm : Memory.wfAbove lo m = true) (hm' : Memory.wfAbove lo' m' = true)
    (hread : ∀ a, m.read a = m'.read a) : m = m' := by
  induction m generalizing lo lo' m' with
  | nil =>
    cases m' with
    | nil => rfl
    | cons p' rest' => exact absurd rfl (not_wfAbove_of_reads hm' fun x => (hread x).symm)
  | cons p rest ih =>
    obtain ⟨a, b⟩ := p
    cases m' with
    | nil => exact absurd rfl (not_wfAbove_of_reads hm hread)
    | cons p' rest' =>
      obtain ⟨a', b'⟩ := p'
      obtain ⟨-, hb, hrest⟩ := wfAbove_cons.mp hm
      obtain ⟨-, hb', hrest'⟩ := wfAbove_cons.mp hm'
      have hle : a' ≤ a := Nat.le_of_not_lt fun hlt =>
        not_wfAbove_of_reads hm hread (wfAbove_cons.mpr ⟨hlt, hb', hrest'⟩)
      have hge : a ≤ a' := Nat.le_of_not_lt fun hlt =>
        not_wfAbove_of_reads hm' (fun x => (hread x).symm) (wfAbove_cons.mpr ⟨hlt, hb, hrest⟩)
      obtain rfl : a = a' := Nat.le_antisymm hge hle
      have hbb : b = b' := by simpa [read_cons] using hread a
      have htail : ∀ x, Memory.read rest x = Memory.read rest' x := fun x => by
        by_cases hx : a = x
        · subst hx
          rw [read_below hrest (Nat.lt_succ_self a), read_below hrest' (Nat.lt_succ_self a)]
        · simpa only [read_cons, if_neg hx] using hread x
      rw [hbb, ih hrest hrest' htail]

/-- Settles O42: the read is `read_write`, the form `write_keeps_wf`. -/
theorem aStoreChangesOneByte : Obligations.AStoreChangesOneByte := by
  unfold Obligations.AStoreChangesOneByte
  intro m a b hm
  exact ⟨by rw [read_write a b hm, if_pos rfl], fun x hx => by rw [read_write a b hm, if_neg hx.symm], write_keeps_wf a b hm⟩

/-- Settles O43, by `eq_of_reads`. -/
theorem canonicalMemoriesThatReadAlikeAreEqual : Obligations.CanonicalMemoriesThatReadAlikeAreEqual := by
  unfold Obligations.CanonicalMemoriesThatReadAlikeAreEqual
  exact fun _ _ hm hm' hread => eq_of_reads hm hm' hread

end Sys2Proof.Machine
end

section
/-! O41: the accesses the register bus lists (R83), and the refusal of every other (R84). -/

namespace Sys2Proof.Machine

/-- The accesses R83 lists: 4 bytes at a register from CTL on, 1 byte at a data port. -/
def Listed (off width : Nat) : Prop := (width = 4 ∧ off % 4 = 0 ∧ 0x08 ≤ off) ∨ (width = 1 ∧ (off = 0x00 ∨ off = 0x04))

section
variable {s : State} {off addr width : Nat} {v : Word}

/-- A register is at none of the offsets a 4-byte access may not have. -/
theorem ne_register (h : ¬ Listed off 4) {r : Nat} (hr : r % 4 = 0 ∧ 0x08 ≤ r) : off ≠ r := by
  rintro rfl
  exact h (.inl ⟨rfl, hr⟩)

theorem ne_port (h : ¬ Listed off 1) {r : Nat} (hr : r = 0x00 ∨ r = 0x04) : off ≠ r := by
  rintro rfl
  exact h (.inr ⟨rfl, hr⟩)

theorem busRead_unlisted (h : ¬ Listed off width) : busRead off width s = .refused .busAccess := by
  unfold busRead
  split
  · next hw =>
    subst hw
    iterate 9 rw [if_neg (ne_register h (by decide))]
  · split
    · next hw =>
      subst hw
      iterate 2 rw [if_neg (ne_port h (by decide))]
    · rfl

theorem busWrite_unlisted (h : ¬ Listed off width) : busWrite off width v s = .refused .busAccess := by
  unfold busWrite
  split
  · next hw =>
    subst hw
    iterate 5 rw [if_neg (ne_register h (by decide))]
  · split
    · next hw =>
      subst hw
      iterate 2 rw [if_neg (ne_port h (by decide))]
    · rfl

/-- An access outside the window, or at an offset and of a width not listed, is refused. -/
theorem memRead_refused (hc : s.clkOn = true) (h : inWindow s addr = false ∨ ¬ Listed (addr - s.cfg.base) width) :
    memRead addr width s = .refused .busAccess := by
  unfold memRead
  rcases h with h | h
  · simp [hc, h]
  · simp [hc, busRead_unlisted h]

theorem memWrite_refused (hc : s.clkOn = true) (h : inWindow s addr = false ∨ ¬ Listed (addr - s.cfg.base) width) :
    memWrite addr width v s = .refused .busAccess := by
  unfold memWrite
  rcases h with h | h
  · simp [hc, h]
  · simp [hc, busWrite_unlisted h]

theorem inWindow_iff : inWindow s addr = true ↔ s.cfg.base ≤ addr ∧ addr < s.cfg.base + 0x2C := by
  rw [inWindow, Bool.and_eq_true, decide_eq_true_eq, decide_eq_true_eq]
  rfl

end

/-- Settles O41: the access is outside the window, or in it and not listed. -/
theorem theBusRefusesEveryOtherAccess : Obligations.TheBusRefusesEveryOtherAccess := by
  unfold Obligations.TheBusRefusesEveryOtherAccess
  intro s addr width v hc h
  have hbad : inWindow s addr = false ∨ ¬ Listed (addr - s.cfg.base) width := by
    cases hw : inWindow s addr
    · exact .inl rfl
    · obtain ⟨hlo, hhi⟩ := inWindow_iff.mp hw
      refine .inr fun hl => ?_
      rcases hl with ⟨rfl, hmod, hge⟩ | ⟨rfl, hport⟩ <;> omega
  exact ⟨memRead_refused hc hbad, memWrite_refused hc hbad⟩

end Sys2Proof.Machine
end

section
/-! O51: the acceptance of a TRANSFER in its three cases (R81, R192, R294). -/

namespace Sys2Proof.Machine

section
variable {w : CmdWord} {b e tx rx : Bool} {cs : BitVec 2} {n : Nat} {s : State}

theorem acceptTransfer_misaligned (hu : s.e.upc = .idle) (hn : byteAligned n = false) :
    acceptTransfer w b e tx rx cs n s = .next (rejectAtAcceptance w .alignmentError s) := by
  simp [acceptTransfer, hu, hn]

theorem acceptTransfer_short (hu : s.e.upc = .idle) (hn : byteAligned n = true)
    (h : bufferSuffices tx s.txBuf (transferBytes n) = false ∨ bufferSuffices rx s.rxBuf (transferBytes n) = false) :
    acceptTransfer w b e tx rx cs n s = .refused .bufferTooShort := by
  rcases h with h | h <;> simp [acceptTransfer, hu, hn, h]

theorem acceptTransfer_accepted (hu : s.e.upc = .idle) (hn : byteAligned n = true)
    (htx : bufferSuffices tx s.txBuf (transferBytes n) = true) (hrx : bufferSuffices rx s.rxBuf (transferBytes n) = true) :
    acceptTransfer w b e tx rx cs n s = .next (s.withEngine (transferEngine s.e w b e tx rx cs n)) := by
  simp [acceptTransfer, hu, hn, htx, hrx]

/-- A buffer that is asked for and absent or shorter than the length does not suffice. -/
theorem bufferSuffices_short {p : Bool} {buf : Option Buffer} (hp : p = true) (h : ∀ x, buf = some x → x.len < n) :
    bufferSuffices p buf n = false := by
  by_contra hs
  obtain ⟨x, hx, hlen⟩ := buffer_of_suffices (eq_true_of_ne_false hs) hp
  exact absurd (h x hx) (Nat.not_lt.mpr hlen)

end

/-- Settles O51: the refused acceptance ends the command. -/
theorem aShortBufferIsRefused : Obligations.AShortBufferIsRefused := by
  unfold Obligations.AShortBufferIsRefused
  intro b e tx rx cs n s hu hn h
  have halign : byteAligned n = true := by simp [byteAligned, hn]
  exact andThen_eq_refused.mpr (.inl (acceptTransfer_short hu halign
    (h.imp (fun ⟨hp, hs⟩ => bufferSuffices_short hp hs) (fun ⟨hp, hs⟩ => bufferSuffices_short hp hs))))

end Sys2Proof.Machine
end

section
/-! O15: from a state that meets the invariant, with the clock on, a step goes on or is one of two refusals (R81, R84, R205, R277). -/

namespace Sys2Proof.Machine

/-- What progress asks of a state: the invariant, and the clock on (R292). -/
structure Live (s : State) : Prop where
  inv : Inv s
  clk : s.clkOn = true

/-- The outcomes progress allows: a next state that is live again, or a refusal for a short buffer or for counts that differ. -/
inductive GoesOn : Res → Prop
  | next {t : State} (h : Live t) : GoesOn (.next t)
  | bufferTooShort : GoesOn (.refused .bufferTooShort)
  | burstCountMismatch : GoesOn (.refused .burstCountMismatch)

theorem GoesOn.bind {x : Res} {f : State → Res} (hx : GoesOn x) (hf : ∀ t, Live t → GoesOn (f t)) : GoesOn (andThen x f) := by
  cases hx with
  | next h => exact hf _ h
  | bufferTooShort => exact .bufferTooShort
  | burstCountMismatch => exact .burstCountMismatch

section
variable {s : State} {p : Upc → Bool}

/-! ### The engine step -/

/-- A step that makes one access and then only computes answers where the access does. -/
theorem answers_of_access {α : Type} {x : Out α} {a : α} {f : α → State} (h : x = .next a) :
    ∃ t, andThen x (fun a => .next (f a)) = .next t :=
  ⟨f a, by rw [h, andThen_next]⟩

/-- The next byte to send is inside the transmit buffer (R81). -/
theorem ti_inside (hi : Inv s) (hu : s.e.upc = .tFill) (hp : s.e.txp = true) : ∃ b, s.txBuf = some b ∧ s.e.ti < b.len := by
  obtain ⟨b, hb, hroom⟩ := hi.txRoom (by rw [hu]; rfl) hp
  have hchunk := (hi.chunkIs (by rw [hu]; rfl)).1
  have hk := hi.kInside (.inl hu)
  have hleft : sendLeft s.e = s.e.rem - s.e.k := by simp [sendLeft, hu]
  exact ⟨b, hb, by omega⟩

/-- The place of the next byte received is inside the receive buffer (R81). -/
theorem ri_inside (hi : Inv s) (hu : s.e.upc = .tDrain) (hp : s.e.rxp = true) : ∃ b, s.rxBuf = some b ∧ s.e.ri < b.len := by
  obtain ⟨b, hb, hroom⟩ := hi.rxRoom (by rw [hu]; rfl) hp
  have hchunk := (hi.chunkIs (by rw [hu]; rfl)).1
  have hk := hi.kInside (.inr hu)
  have hleft : recvLeft s.e = s.e.rem - s.e.k := by simp [recvLeft, hu]
  exact ⟨b, hb, by omega⟩

theorem fillByte_answers (h : s.e.txp = true → ∃ b, s.txBuf = some b ∧ s.e.ti < b.len) : ∃ x, fillByte s = .next x := by
  unfold fillByte
  split
  · next hp =>
    obtain ⟨b, hb, hlt⟩ := h hp
    exact ⟨b.read s.e.ti, by simp [txByte, hb, hlt]⟩
  · exact ⟨_, rfl⟩

theorem keepByte_answers (x : Byte) (h : s.e.rxp = true → ∃ b, s.rxBuf = some b ∧ s.e.ri < b.len) :
    ∃ t, keepByte x s = .next t := by
  unfold keepByte
  split
  · next hp =>
    obtain ⟨b, hb, hlt⟩ := h hp
    exact ⟨{ s with rxBuf := some (b.write s.e.ri x) }, by simp [rxByteStore, hb, hlt]⟩
  · exact ⟨_, rfl⟩

theorem stepTFill_answers (hl : Live s) (hu : s.e.upc = .tFill) : ∃ t, stepTFill s = .next t := by
  obtain ⟨x, hx⟩ := fillByte_answers (ti_inside hl.inv hu)
  unfold stepTFill
  rw [hx, andThen_next]
  exact answers_of_access (portWrite_txd s x hl.clk)

theorem stepTDrain_answers (hl : Live s) (hu : s.e.upc = .tDrain) : ∃ t, stepTDrain s = .next t := by
  unfold stepTDrain
  rw [portRead_rxd s hl.clk, andThen_next]
  obtain ⟨t, ht⟩ := keepByte_answers (s := (rxPop s).2.record (.access offRXD 1 .read ((rxPop s).1.setWidth 32))) (rxPop s).1
    (by simpa using ri_inside hl.inv hu)
  exact answers_of_access ht

theorem stepTPoll_answers (hc : s.clkOn = true) : ∃ t, stepTPoll s = .next t := by
  cases hb : busy s.blk
  · exact ⟨_, poll_free hc hb⟩
  · exact ⟨_, poll_busy hc hb⟩

/-- Every position's access is one the bus lists, and inside the lent buffers. -/
theorem engineStep_answers (hl : Live s) : ∃ t, engineStep s = .next t := by
  have hc := hl.clk
  unfold engineStep
  cases hu : s.e.upc <;> dsimp only
  case idle => exact ⟨_, rfl⟩
  case claimR | relR | modeR | tBegR | tRstR | tXchR | tToR | tEndR => exact ⟨_, readInto_ctl s _ hc⟩
  case claimW | relW | modeW | tBegW | tRstW | tXchW | tToW | tEndW => exact answers_of_access (regWrite_ctl s _ hc)
  case spdR => exact ⟨_, readInto_cctl _ _ hc⟩
  case spdW => exact answers_of_access (regWrite_cctl s _ hc)
  case tLoop => exact ⟨_, rfl⟩
  case tBc => exact answers_of_access (regWrite_bc s _ hc)
  case tTc => exact answers_of_access (regWrite_tc s _ hc)
  case tFill => exact stepTFill_answers hl hu
  case tPoll => exact stepTPoll_answers hc
  case tDrain => exact stepTDrain_answers hl hu

theorem engineStep_goesOn (hl : Live s) : GoesOn (engineStep s) := by
  obtain ⟨t, ht⟩ := engineStep_answers hl
  rw [ht]
  exact .next ⟨inv_engineStep hl.inv ht, (engineStep_frame ht).clk.trans hl.clk⟩

/-! ### The shifter's turn and the runs -/

theorem live_shifterTurn {t : State} (hl : Live s) (h : shifterTurn s = .next t) : Live t :=
  ⟨inv_shifterTurn hl.inv h, (shifterTurn_sameFixed h).2.1.trans hl.clk⟩

theorem shifterTurn_goesOn (hl : Live s) : GoesOn (shifterTurn s) := by
  rcases shifterTurn_cases s with h | ⟨_, h, _⟩ | ⟨h, _⟩ | ⟨h, _⟩ <;> rw [h]
  · exact .next (live_shifterTurn hl h)
  · exact .next (live_shifterTurn hl h)
  · exact .next (live_shifterTurn hl h)
  · exact .burstCountMismatch

theorem tick_goesOn (hl : Live s) : GoesOn (tick s) := (shifterTurn_goesOn hl).bind fun _ => engineStep_goesOn

theorem runWhile_goesOn (n : Nat) (hl : Live s) : GoesOn (runWhile p n s) := by
  induction n generalizing s with
  | zero => exact .next hl
  | succ n ih =>
    unfold runWhile
    split
    · exact (tick_goesOn hl).bind fun _ => ih
    · exact .next hl

theorem runBurst_goesOn (hl : Live s) : GoesOn (runBurst s) :=
  (runWhile_goesOn _ hl).bind fun _ h1 => (runWhile_goesOn _ h1).bind fun _ h2 => runWhile_goesOn _ h2

theorem runBursts_goesOn (n : Nat) (hl : Live s) : GoesOn (runBursts n s) := by
  induction n generalizing s with
  | zero => exact .next hl
  | succ n ih =>
    unfold runBursts
    split
    · exact (runBurst_goesOn hl).bind fun _ => ih
    · exact .next hl

/-! ### A whole command -/

/-- A command of two steps, from its acceptance outside a transfer. -/
theorem simple_goesOn (hl : Live s) (hu : s.e.upc = .idle) (w : CmdWord) {u : Upc} (hout : inTransfer u = false) :
    GoesOn (andThen (accept w u s) (runWhile running 2)) := by
  rw [accept_idle s w u hu, andThen_next]
  exact runWhile_goesOn 2 ⟨inv_accept hl.inv w hout, hl.clk⟩

/-- The acceptance of a TRANSFER: ended at once, refused for a buffer, or begun within its buffers. -/
theorem acceptTransfer_goesOn (hl : Live s) (hu : s.e.upc = .idle) (w : CmdWord) (b e tx rx : Bool) (cs : BitVec 2) {n : Nat}
    (hn : n < 2 ^ 32) : GoesOn (acceptTransfer w b e tx rx cs n s) := by
  cases ha : byteAligned n
  · rw [acceptTransfer_misaligned hu ha]
    exact .next ⟨inv_kept.reject s w _ hl.inv, hl.clk⟩
  cases htx : bufferSuffices tx s.txBuf (transferBytes n)
  · rw [acceptTransfer_short hu ha (.inl htx)]
    exact .bufferTooShort
  cases hrx : bufferSuffices rx s.rxBuf (transferBytes n)
  · rw [acceptTransfer_short hu ha (.inr hrx)]
    exact .bufferTooShort
  rw [acceptTransfer_accepted hu ha htx hrx]
  exact .next ⟨inv_transfer hl.inv w b e tx rx cs hn htx hrx, hl.clk⟩

theorem exec_goesOn {i : Instr} (hw : i.wellFormed = true) (hl : Live s) (hu : s.e.upc = .idle) : GoesOn (exec i s) := by
  cases i with
  | claim => exact simple_goesOn hl hu _ rfl
  | release => exact simple_goesOn hl hu _ rfl
  | setSpeed hz => exact simple_goesOn hl hu _ rfl
  | setMode cpol cpha => exact simple_goesOn hl hu _ rfl
  | transfer b e tx rx cs n =>
    exact (acceptTransfer_goesOn hl hu _ b e tx rx cs (of_decide_eq_true hw)).bind fun _ h1 =>
      (runWhile_goesOn 4 h1).bind fun _ h2 => (runBursts_goesOn _ h2).bind fun _ => runWhile_goesOn 2

/-! ### The engine's turn -/

/-- Every operand the decoder reads is a field of the word, so it fits it (R11, R112). -/
theorem wellFormed_of_decodeWord {w : CmdWord} {i : Instr} (h : decodeWord w = .ok i) : i.wellFormed = true := by
  have hfield : (highField w).toNat < 2 ^ 32 := (highField w).isLt
  unfold decodeWord at h
  repeat' split at h
  all_goals cases h
  · rfl
  · rfl
  · exact decide_eq_true hfield
  · rfl
  · exact decide_eq_true hfield

theorem live_takeCommand (hl : Live s) (hu : s.e.upc = .idle) {c : HostCommand} {rest : List HostCommand} (hp : s.port = c :: rest)
    (i : Instr) : Live (takeCommand c rest i s) := by
  obtain ⟨hplain, hlent⟩ := inv_take hl.inv hu hp
  cases i with
  | transfer b e tx rx cs n => exact ⟨hlent, hl.clk⟩
  | claim => exact ⟨hplain, hl.clk⟩
  | release => exact ⟨hplain, hl.clk⟩
  | setSpeed hz => exact ⟨hplain, hl.clk⟩
  | setMode cpol cpha => exact ⟨hplain, hl.clk⟩

/-- In IDLE a word that does not decode ends with IllegalCommand (R117). -/
theorem engineTurn_illegal {c : HostCommand} {rest : List HostCommand} {x : DecodeError} (hu : s.e.upc = .idle)
    (hp : s.port = c :: rest) (hd : decodeWord c.word = .error x) :
    engineTurn s = .next (rejectAtAcceptance c.word .illegalCommand { s with port := rest }) := by
  rw [engineTurn, if_pos hu, hp]
  dsimp only
  rw [hd]

theorem engineTurn_goesOn (hl : Live s) : GoesOn (engineTurn s) := by
  by_cases hu : s.e.upc = .idle
  · cases hp : s.port with
    | nil =>
      rw [engineTurn_waits hu hp]
      exact .next hl
    | cons c rest =>
      cases hd : decodeWord c.word with
      | ok i =>
        rw [engineTurn_decoded hu hp hd]
        exact exec_goesOn (wellFormed_of_decodeWord hd) (live_takeCommand hl hu hp i) (by cases i <;> exact hu)
      | error x =>
        rw [engineTurn_illegal hu hp hd]
        exact .next ⟨inv_kept.reject _ _ _ (inv_take hl.inv hu hp).1, hl.clk⟩
  · rw [engineTurn_busy hu]
    exact engineStep_goesOn hl

end

/-- Settles O15: the shifter's turn goes on, and from what it leaves the engine's does. -/
theorem noStepLeavesTheBuffersOrTheBus : Obligations.NoStepLeavesTheBuffersOrTheBus := by
  unfold Obligations.NoStepLeavesTheBuffersOrTheBus
  intro s hi hv hc
  have hmoment : Live s.nextMoment := ⟨inv_kept.moment s hi, hc⟩
  have hstep : GoesOn (step s) := by
    rw [step, if_pos hv]
    exact (shifterTurn_goesOn hmoment).bind fun _ => engineTurn_goesOn
  cases h : step s with
  | next t => exact .inl ⟨t, rfl⟩
  | fault r => rw [h] at hstep; cases hstep
  | refused r =>
    rw [h] at hstep
    cases hstep
    · exact .inr (.inl rfl)
    · exact .inr (.inr rfl)

end Sys2Proof.Machine
end

section
/-! O1, O2, O3, O4, O5: the decoder (R116) said once as a relation with one constructor per outcome, the fields of the words of
R120, and a word as the concatenation of its fields (R111). -/

namespace Sys2Proof

/-! ### What a word decodes to -/

/-- The outcomes of R116: each command with the fields of its format, and the two reasons of R117 for ILLEGAL. -/
inductive DecodesTo (w : CmdWord) : Except DecodeError Instr → Prop
  | claim : opField w = 1#4 → zFieldN w = 0#60 → DecodesTo w (.ok .claim)
  | release : opField w = 2#4 → zFieldN w = 0#60 → DecodesTo w (.ok .release)
  | setSpeed : opField w = 3#4 → zFieldS w = 0#28 → DecodesTo w (.ok (.setSpeed (highField w).toNat))
  | setMode : opField w = 4#4 → zFieldM w = 0#58 → DecodesTo w (.ok (.setMode (bitField w 5) (bitField w 4)))
  | transfer : opField w = 5#4 → zFieldT w = 0#22 → DecodesTo w (.ok (.transfer (bitField w 4) (bitField w 5) (bitField w 6)
      (bitField w 7) (csField w) (highField w).toNat))
  | mustBeZeroN : opField w = 1#4 ∨ opField w = 2#4 → zFieldN w ≠ 0#60 → DecodesTo w (.error .mustBeZero)
  | mustBeZeroS : opField w = 3#4 → zFieldS w ≠ 0#28 → DecodesTo w (.error .mustBeZero)
  | mustBeZeroM : opField w = 4#4 → zFieldM w ≠ 0#58 → DecodesTo w (.error .mustBeZero)
  | mustBeZeroT : opField w = 5#4 → zFieldT w ≠ 0#22 → DecodesTo w (.error .mustBeZero)
  | reserved : opField w = 0#4 ∨ 6 ≤ (opField w).toNat → DecodesTo w (.error .reservedOpcode)

/-- An opcode of no command is one of the two reserved ranges (R115). -/
theorem reserved_iff (op : BitVec 4) :
    (op = 0#4 ∨ 6 ≤ op.toNat) ↔ op ≠ 1#4 ∧ op ≠ 2#4 ∧ op ≠ 3#4 ∧ op ≠ 4#4 ∧ op ≠ 5#4 := by
  bv_omega

theorem decodesTo_decodeWord (w : CmdWord) : DecodesTo w (decodeWord w) := by
  unfold decodeWord
  split_ifs with h1 hz h2 hz h3 hz h4 hz h5 hz
  · exact .claim h1 hz
  · exact .mustBeZeroN (.inl h1) hz
  · exact .release h2 hz
  · exact .mustBeZeroN (.inr h2) hz
  · exact .setSpeed h3 hz
  · exact .mustBeZeroS h3 hz
  · exact .setMode h4 hz
  · exact .mustBeZeroM h4 hz
  · exact .transfer h5 hz
  · exact .mustBeZeroT h5 hz
  · exact .reserved ((reserved_iff _).mpr ⟨h1, h2, h3, h4, h5⟩)

/-- The decoder answers exactly by the relation. -/
theorem decodeWord_eq_iff {w : CmdWord} {x : Except DecodeError Instr} : decodeWord w = x ↔ DecodesTo w x := by
  constructor
  · rintro rfl
    exact decodesTo_decodeWord w
  · intro h
    cases h with
    | claim hop hz => simp [decodeWord, hop, hz]
    | release hop hz => simp [decodeWord, hop, hz]
    | setSpeed hop hz => simp [decodeWord, hop, hz]
    | setMode hop hz => simp [decodeWord, hop, hz]
    | transfer hop hz => simp [decodeWord, hop, hz]
    | mustBeZeroN hop hz => rcases hop with hop | hop <;> simp [decodeWord, hop, hz]
    | mustBeZeroS hop hz => simp [decodeWord, hop, hz]
    | mustBeZeroM hop hz => simp [decodeWord, hop, hz]
    | mustBeZeroT hop hz => simp [decodeWord, hop, hz]
    | reserved hop =>
      obtain ⟨h1, h2, h3, h4, h5⟩ := (reserved_iff _).mp hop
      simp [decodeWord, h1, h2, h3, h4, h5]

/-! ### Fields and masks -/

/-- A mask that covers a field fixes it: the field of a word that matches is that of the match value. -/
theorem field_of_masked {w m v : CmdWord} {start len : Nat} {x : BitVec len} (h : w &&& m = v)
    (hm : m.extractLsb' start len = BitVec.allOnes len) (hv : v.extractLsb' start len = x) : w.extractLsb' start len = x := by
  rw [← hv, ← h, BitVec.extractLsb'_and, hm, BitVec.and_allOnes]

/-- A field is not 0 exactly when a bit of its range is 1. -/
theorem field_ne_zero_iff {w : CmdWord} {start len stop : Nat} (hs : start + len = stop) :
    w.extractLsb' start len ≠ 0#len ↔ ∃ j, start ≤ j ∧ j < stop ∧ w.getLsbD j = true := by
  subst hs
  constructor
  · intro hne
    by_contra! hno
    refine hne (BitVec.eq_of_getLsbD_eq fun i hi => ?_)
    simpa [hi] using hno (start + i) (by omega) (by omega)
  · rintro ⟨j, hlo, hhi, hj⟩ h0
    have hbit : (w.extractLsb' start len).getLsbD (j - start) = true := by
      rw [BitVec.getLsbD_extractLsb', Nat.add_sub_cancel' hlo, hj, decide_eq_true (by omega), Bool.and_self]
    simp [h0] at hbit

/-! ### The rows of the opcode table: a match fixes the opcode and the must-be-zero field (R115) -/

theorem decodesTo_claim {w : CmdWord} (h : w &&& 0xFFFFFFFFFFFFFFFF#64 = 0x0000000000000001#64) : DecodesTo w (.ok .claim) :=
  .claim (field_of_masked h rfl rfl) (field_of_masked h rfl rfl)

theorem decodesTo_release {w : CmdWord} (h : w &&& 0xFFFFFFFFFFFFFFFF#64 = 0x0000000000000002#64) : DecodesTo w (.ok .release) :=
  .release (field_of_masked h rfl rfl) (field_of_masked h rfl rfl)

theorem decodesTo_setSpeed {w : CmdWord} (h : w &&& 0x00000000FFFFFFFF#64 = 0x0000000000000003#64) :
    DecodesTo w (.ok (.setSpeed (highField w).toNat)) :=
  .setSpeed (field_of_masked h rfl rfl) (field_of_masked h rfl rfl)

theorem decodesTo_setMode {w : CmdWord} (h : w &&& 0xFFFFFFFFFFFFFFCF#64 = 0x0000000000000004#64) :
    DecodesTo w (.ok (.setMode (bitField w 5) (bitField w 4))) :=
  .setMode (field_of_masked h rfl rfl) (field_of_masked h rfl rfl)

theorem decodesTo_transfer {w : CmdWord} (h : w &&& 0x00000000FFFFFC0F#64 = 0x0000000000000005#64) :
    DecodesTo w (.ok (.transfer (bitField w 4) (bitField w 5) (bitField w 6) (bitField w 7) (csField w) (highField w).toNat)) :=
  .transfer (field_of_masked h rfl rfl) (field_of_masked h rfl rfl)

/-- Every command's word matches its row of the opcode table. -/
theorem encode_matches : ∀ i : Instr, encode i &&& maskOf i = matchOf i
  | .claim => Laws.EncodeOpcode.claim.2
  | .release => Laws.EncodeOpcode.release.2
  | .setSpeed hz => (Laws.EncodeOpcode.setSpeed hz).2
  | .setMode cpol cpha => (Laws.EncodeOpcode.setMode cpol cpha).2
  | .transfer b e tx rx cs n => (Laws.EncodeOpcode.transfer b e tx rx cs n).2

/-! ### The operands of the words of R120 -/

/-- A number of 32 bits in the high part of a word is read back (R112). -/
theorem highField_append_toNat {n : Nat} (hn : n < 2 ^ 32) (low : BitVec 32) :
    (highField (BitVec.ofNat 32 n ++ low)).toNat = n := by
  rw [highField, BitVec.extractLsb'_append_eq_left, BitVec.toNat_ofNat, Nat.mod_eq_of_lt hn]

theorem bitField_encode_setMode (cpol cpha : Bool) :
    bitField (encode (.setMode cpol cpha)) 5 = cpol ∧ bitField (encode (.setMode cpol cpha)) 4 = cpha := by
  simp only [bitField, encode, BitVec.getLsbD_append]
  simp

theorem bitField_encode_transfer (b e tx rx : Bool) (cs : BitVec 2) (n : Nat) :
    bitField (encode (.transfer b e tx rx cs n)) 4 = b ∧ bitField (encode (.transfer b e tx rx cs n)) 5 = e ∧
      bitField (encode (.transfer b e tx rx cs n)) 6 = tx ∧ bitField (encode (.transfer b e tx rx cs n)) 7 = rx := by
  simp only [bitField, encode, BitVec.getLsbD_append]
  simp

theorem csField_encode_transfer (b e tx rx : Bool) (cs : BitVec 2) (n : Nat) :
    csField (encode (.transfer b e tx rx cs n)) = cs := by
  unfold csField encode
  rw [BitVec.extractLsb'_append_eq_of_add_le (by decide), BitVec.extractLsb'_append_eq_of_add_le (by decide)]
  exact BitVec.extractLsb'_append_eq_left

/-! ### A word as the concatenation of its fields (R111) -/

theorem ofBool_bitField (w : CmdWord) (i : Nat) : BitVec.ofBool (bitField w i) = w.extractLsb' i 1 := by
  refine BitVec.eq_of_getLsbD_eq fun j hj => ?_
  obtain rfl : j = 0 := by omega
  simp [bitField]

/-- A field joined to all that stands below it. -/
theorem extract_append_low (w : CmdWord) (start len : Nat) :
    w.extractLsb' start len ++ w.extractLsb' 0 start = w.extractLsb' 0 (len + start) :=
  BitVec.extractLsb'_append_extractLsb'_eq_extractLsb' (Nat.zero_add start).symm

theorem join_fieldsN (w : CmdWord) : zFieldN w ++ opField w = w :=
  BitVec.extractLsb'_append_extractLsb'

theorem join_fieldsS (w : CmdWord) : highField w ++ (zFieldS w ++ opField w) = w := by
  rw [zFieldS, opField, extract_append_low]
  exact BitVec.extractLsb'_append_extractLsb'

theorem join_fieldsM (w : CmdWord) :
    zFieldM w ++ (BitVec.ofBool (bitField w 5) ++ (BitVec.ofBool (bitField w 4) ++ opField w)) = w := by
  rw [ofBool_bitField, ofBool_bitField, opField, extract_append_low, extract_append_low w 5 1]
  exact BitVec.extractLsb'_append_extractLsb'

theorem join_fieldsT (w : CmdWord) :
    highField w ++ (zFieldT w ++ (csField w ++ (BitVec.ofBool (bitField w 7) ++ (BitVec.ofBool (bitField w 6) ++
      (BitVec.ofBool (bitField w 5) ++ (BitVec.ofBool (bitField w 4) ++ opField w)))))) = w := by
  simp only [ofBool_bitField]
  rw [zFieldT, csField, opField, extract_append_low w 4 1, extract_append_low w 5 1, extract_append_low w 6 1,
    extract_append_low w 7 1, extract_append_low w 8 2, extract_append_low w 10 22]
  exact BitVec.extractLsb'_append_extractLsb'

/-- The word of the command that is read from a word is that word: the decoder takes every field the encoder writes. -/
theorem encode_of_decodesTo {w : CmdWord} {i : Instr} (h : DecodesTo w (.ok i)) : encode i = w := by
  cases h with
  | claim hop hz => rw [encode, ← hop, ← hz, join_fieldsN]
  | release hop hz => rw [encode, ← hop, ← hz, join_fieldsN]
  | setSpeed hop hz => rw [encode, BitVec.ofNat_toNat, BitVec.setWidth_eq, ← hop, ← hz, join_fieldsS]
  | setMode hop hz => rw [encode, ← hop, ← hz, join_fieldsM]
  | transfer hop hz => rw [encode, BitVec.ofNat_toNat, BitVec.setWidth_eq, ← hop, ← hz, join_fieldsT]

/-- A word that decodes to a command matches the command's row of the opcode table (R115). -/
theorem matches_of_decodeWord {w : CmdWord} {i : Instr} (h : decodeWord w = .ok i) : w &&& maskOf i = matchOf i := by
  rw [← encode_of_decodesTo (decodeWord_eq_iff.mp h)]
  exact encode_matches i

/-! ### The statements -/

/-- Settles O1: the word matches its row, so it decodes to a command of that row, and each operand is read where it was written. -/
theorem decodeEncodeRoundTrip : Obligations.DecodeEncodeRoundTrip := by
  unfold Obligations.DecodeEncodeRoundTrip
  intro i hw
  rw [decodeWord_eq_iff]
  have hrow := encode_matches i
  cases i with
  | claim => exact decodesTo_claim hrow
  | release => exact decodesTo_release hrow
  | setSpeed hz =>
    have hhigh : (highField (encode (.setSpeed hz))).toNat = hz := highField_append_toNat (of_decide_eq_true hw) _
    simpa only [hhigh] using decodesTo_setSpeed hrow
  | setMode cpol cpha =>
    obtain ⟨hcpol, hcpha⟩ := bitField_encode_setMode cpol cpha
    simpa only [hcpol, hcpha] using decodesTo_setMode hrow
  | transfer b e tx rx cs n =>
    obtain ⟨hb, he, htx, hrx⟩ := bitField_encode_transfer b e tx rx cs n
    have hhigh : (highField (encode (.transfer b e tx rx cs n))).toNat = n := highField_append_toNat (of_decide_eq_true hw) _
    simpa only [hb, he, htx, hrx, csField_encode_transfer, hhigh] using decodesTo_transfer hrow

/-- Settles O2: the fields the decoder read, joined again, are the word. -/
theorem encodeDecodeRoundTrip : Obligations.EncodeDecodeRoundTrip := by
  unfold Obligations.EncodeDecodeRoundTrip
  intro w i h
  exact ⟨Machine.wellFormed_of_decodeWord h, encode_of_decodesTo (decodeWord_eq_iff.mp h)⟩

/-- Settles O3: a word that decodes is the command's word, which matches its row; a word that matches decodes by its fields. -/
theorem wordsDecodeByTheirMatchAndMask : Obligations.WordsDecodeByTheirMatchAndMask := by
  unfold Obligations.WordsDecodeByTheirMatchAndMask
  intro w
  refine ⟨⟨matches_of_decodeWord, fun h => ?claim⟩, ⟨matches_of_decodeWord, fun h => ?release⟩,
    ⟨fun ⟨_, h⟩ => matches_of_decodeWord h, fun h => ?setSpeed⟩, ⟨fun ⟨_, _, h⟩ => matches_of_decodeWord h, fun h => ?setMode⟩,
    ⟨fun ⟨_, _, _, _, _, _, h⟩ => matches_of_decodeWord h, fun h => ?transfer⟩, ?reserved⟩
  case claim => exact decodeWord_eq_iff.mpr (decodesTo_claim h)
  case release => exact decodeWord_eq_iff.mpr (decodesTo_release h)
  case setSpeed => exact ⟨_, decodeWord_eq_iff.mpr (decodesTo_setSpeed h)⟩
  case setMode => exact ⟨_, _, decodeWord_eq_iff.mpr (decodesTo_setMode h)⟩
  case transfer => exact ⟨_, _, _, _, _, _, decodeWord_eq_iff.mpr (decodesTo_transfer h)⟩
  case reserved =>
    rw [decodeWord_eq_iff]
    exact ⟨fun | .reserved hop => hop, .reserved⟩

/-- Settles O4: within a format the must-be-zero field is all that is compared, and it is not 0 exactly when one of its bits is 1. -/
theorem aMustBeZeroBitMakesAWordIllegal : Obligations.AMustBeZeroBitMakesAWordIllegal := by
  unfold Obligations.AMustBeZeroBitMakesAWordIllegal
  intro w
  rw [decodeWord_eq_iff]
  constructor
  · intro h
    cases h with
    | mustBeZeroN hop hz => exact .inl ⟨hop, (field_ne_zero_iff rfl).mp hz⟩
    | mustBeZeroS hop hz => exact .inr (.inl ⟨hop, (field_ne_zero_iff rfl).mp hz⟩)
    | mustBeZeroM hop hz => exact .inr (.inr (.inl ⟨hop, (field_ne_zero_iff rfl).mp hz⟩))
    | mustBeZeroT hop hz => exact .inr (.inr (.inr ⟨hop, (field_ne_zero_iff rfl).mp hz⟩))
  · rintro (⟨hop, hj⟩ | ⟨hop, hj⟩ | ⟨hop, hj⟩ | ⟨hop, hj⟩)
    · exact .mustBeZeroN hop ((field_ne_zero_iff rfl).mpr hj)
    · exact .mustBeZeroS hop ((field_ne_zero_iff rfl).mpr hj)
    · exact .mustBeZeroM hop ((field_ne_zero_iff rfl).mpr hj)
    · exact .mustBeZeroT hop ((field_ne_zero_iff rfl).mpr hj)

/-- Settles O5, by evaluating the decoder on each word. -/
theorem wordsWrittenOutDecode : Obligations.WordsWrittenOutDecode := by
  unfold Obligations.WordsWrittenOutDecode
  exact ⟨rfl, rfl, rfl, rfl, rfl, rfl, rfl, rfl⟩

end Sys2Proof
end

section
/-! O8: a step that takes an illegal word (R117, R263). -/

namespace Sys2Proof.Machine

/-- Settles O8: the shifter's turn leaves the engine and the port, and the engine's turn then only records the word. -/
theorem anIllegalWordChangesNothing : Obligations.AnIllegalWordChangesNothing := by
  unfold Obligations.AnIllegalWordChangesNothing
  intro s s1 c rest x hv hu hp hd h
  obtain ⟨-, he, hport, -, -⟩ := shifterTurn_frame h
  exact (step_of_turn hv h).trans (engineTurn_illegal (by rw [he]; exact hu) (by rw [hport]; exact hp) hd)

end Sys2Proof.Machine
end

section
/-! O27, O28, O29: the divisor calculator by cases (R140 to R144), the rate a divider programs (R56), and its bounds (R145). -/

namespace Sys2Proof.Machine

section
variable {p : Config.Params} {hz : Nat}

/-! ### The clamp (R140) -/

theorem clampHz_of_lt_minHz (h : hz < p.minHz) : clampHz p hz = clampHz p p.minHz := by
  rw [clampHz, clampHz, Nat.max_eq_right h.le, Nat.max_self]

theorem clampHz_of_maxHz_lt (h : p.maxHz < hz) : clampHz p hz = clampHz p p.maxHz := by
  rw [clampHz, clampHz, Nat.min_eq_right (le_max_of_le_left h.le), Nat.min_eq_right (Nat.le_max_left _ _)]

/-! ### The scheme and its divider -/

/-- Scheme A, up to a quotient of 256 (R142). -/
theorem divcalc_schemeA (h : linearQuotient p (clampHz p hz) ≤ 256) :
    divcalc p hz = (.a, linearQuotient p (clampHz p hz) - 1) := by
  rw [divcalc, if_pos h, Nat.max_zero]

/-- Scheme B, above it (R143). -/
theorem divcalc_schemeB (h : 256 < linearQuotient p (clampHz p hz)) :
    divcalc p hz = (.b, Config.flog2 p.baseHz - Config.flog2 (clampHz p hz)) := by
  rw [divcalc, if_neg (Nat.not_le_of_lt h)]

/-- DIVCALC reads its request through the clamp alone (R140, R141). -/
theorem divcalc_eq_of_clampHz_eq {hz' : Nat} (h : clampHz p hz = clampHz p hz') : divcalc p hz = divcalc p hz' := by
  unfold divcalc
  rw [h]

theorem linearQuotient_eq_zero_iff {fc : Nat} (hfc : 1 ≤ fc) : linearQuotient p fc = 0 ↔ p.baseHz < 2 * fc :=
  Nat.div_eq_zero_iff_lt (by omega)

/-- The quotient between its two bounds (R141). -/
theorem linearQuotient_bounds {fc : Nat} (hfc : 1 ≤ fc) :
    2 * linearQuotient p fc * fc ≤ p.baseHz ∧ p.baseHz < 2 * (linearQuotient p fc + 1) * fc := by
  have hle : 2 * fc * linearQuotient p fc ≤ p.baseHz := Nat.mul_div_le _ _
  have hlt : p.baseHz < 2 * fc * (linearQuotient p fc + 1) := Nat.lt_mul_div_succ _ (by omega)
  exact ⟨by rwa [Nat.mul_right_comm], by rwa [Nat.mul_right_comm]⟩

/-- A logarithm less by `k` where the quotient is at least `2 ^ k` (R143). -/
theorem flog2_add_le {k m n : Nat} (hm : m ≠ 0) (h : 2 ^ k * m ≤ n) : Config.flog2 m + k ≤ Config.flog2 n := by
  have hn : n ≠ 0 := by
    have := Nat.mul_pos (Nat.two_pow_pos k) (Nat.pos_of_ne_zero hm)
    omega
  refine (Nat.le_log2 hn).mpr ?_
  calc 2 ^ (Config.flog2 m + k) = 2 ^ k * 2 ^ Config.flog2 m := by rw [Nat.pow_add, Nat.mul_comm]
    _ ≤ 2 ^ k * m := Nat.mul_le_mul_left _ (Nat.log2_self_le hm)
    _ ≤ n := h

/-- The divider of Scheme B fits the four bits of CDR1 (R143): the quotient puts the rate nine binary orders below the divider
input, and no rate is below the floor of R9. -/
theorem schemeB_divider_fits (hv : p.valid = true) (h : 256 < linearQuotient p (clampHz p hz)) :
    9 ≤ Config.flog2 p.baseHz - Config.flog2 (clampHz p hz) ∧ Config.flog2 p.baseHz - Config.flog2 (clampHz p hz) ≤ 15 := by
  obtain ⟨hpos, -, hmin, -⟩ := clamp_range hv hz
  obtain ⟨-, -, -, -, hmin1, -, hlog, -, -, -⟩ := (valid_iff p).mp hv
  have hlow : Config.flog2 (clampHz p hz) + 9 ≤ Config.flog2 p.baseHz := by
    refine flog2_add_le (by omega) ((linearQuotient_bounds hpos).1.trans' (Nat.mul_le_mul_right _ ?_))
    omega
  have hfloor : Config.flog2 p.minHz + 0 ≤ Config.flog2 (clampHz p hz) := flog2_add_le (by omega) (by omega)
  omega

/-! ### The rate -/

/-- The rate of a divider of Scheme A, whatever CCTL held (R56). -/
theorem clockRate_schemeA (v : Word) {d : Nat} (hd : d ≤ 255) :
    clockRate p (cctlValue v (.a, d)) = (p.baseHz : Rat) / (2 * ((d + 1 : Nat) : Rat)) := by
  rw [clockRate, cctlDRS_schemeA, if_pos rfl, cctlCDR2_schemeA, BitVec.toNat_ofNat, Nat.mod_eq_of_lt (by omega), Nat.cast_succ]

/-- The rate of a divider of Scheme B, whatever CCTL held (R56). -/
theorem clockRate_schemeB (v : Word) {d : Nat} (hd : d ≤ 15) :
    clockRate p (cctlValue v (.b, d)) = (p.baseHz : Rat) / ((2 ^ (d + 1) : Nat) : Rat) := by
  rw [clockRate, cctlDRS_schemeB, if_neg Bool.false_ne_true, cctlCDR1_schemeB, BitVec.toNat_ofNat, Nat.mod_eq_of_lt (by omega),
    Nat.cast_pow, Nat.cast_ofNat]

/-- Between two powers of two: the divider of Scheme B against the clamped rate (R143, R145). -/
theorem schemeB_divisor_bounds {b f : Nat} (hb : b ≠ 0) (hf : f ≠ 0) (h : Config.flog2 f ≤ Config.flog2 b) :
    b < 2 ^ (Config.flog2 b - Config.flog2 f + 1) * f ∧ 2 ^ (Config.flog2 b - Config.flog2 f + 1) * f < 4 * b := by
  have hb1 : 2 ^ Config.flog2 b ≤ b := Nat.log2_self_le hb
  have hb2 : b < 2 ^ (Config.flog2 b + 1) := Nat.lt_log2_self
  have hf1 : 2 ^ Config.flog2 f ≤ f := Nat.log2_self_le hf
  have hf2 : f < 2 ^ (Config.flog2 f + 1) := Nat.lt_log2_self
  have hpow : 2 ^ (Config.flog2 b - Config.flog2 f + 1) * 2 ^ Config.flog2 f = 2 ^ (Config.flog2 b + 1) := by
    rw [← Nat.pow_add]
    congr 1
    omega
  constructor
  · calc b < 2 ^ (Config.flog2 b - Config.flog2 f + 1) * 2 ^ Config.flog2 f := by rwa [hpow]
      _ ≤ _ := Nat.mul_le_mul_left _ hf1
  · calc 2 ^ (Config.flog2 b - Config.flog2 f + 1) * f
        < 2 ^ (Config.flog2 b - Config.flog2 f + 1) * 2 ^ (Config.flog2 f + 1) :=
          Nat.mul_lt_mul_of_pos_left hf2 (Nat.two_pow_pos _)
      _ = 4 * 2 ^ Config.flog2 b := by rw [Nat.pow_succ 2 (Config.flog2 f), ← Nat.mul_assoc, hpow]; ring
      _ ≤ 4 * b := Nat.mul_le_mul_left _ hb1

/-! ### The bounds of R145 as facts of fractions -/

theorem linear_rate_bounds {b n f : Nat} (hn : 1 ≤ n) (hle : 2 * n * f ≤ b) (hlt : b < 2 * (n + 1) * f) :
    (f : Rat) ≤ (b : Rat) / (2 * n) ∧ (b : Rat) / (2 * n) < 2 * f ∧ ((b : Rat) / (2 * n) = f ↔ 2 * n * f = b) := by
  have hpos : (0 : Rat) < 2 * n := by positivity
  refine ⟨?_, ?_, ?_⟩
  · rw [le_div_iff₀ hpos]
    exact_mod_cast (Nat.mul_comm f (2 * n)).trans_le hle
  · rw [div_lt_iff₀ hpos]
    have : b < 2 * f * (2 * n) := hlt.trans_le (by nlinarith)
    exact_mod_cast this
  · rw [div_eq_iff hpos.ne', eq_comm, mul_comm (f : Rat)]
    exact_mod_cast Iff.rfl

theorem power_rate_bounds {b d f : Nat} (hd : 0 < d) (hlt : b < d * f) (hgt : d * f < 4 * b) :
    (f : Rat) / 4 < (b : Rat) / d ∧ (b : Rat) / d < f := by
  have hpos : (0 : Rat) < d := by exact_mod_cast hd
  constructor
  · rw [div_lt_div_iff₀ (by norm_num) hpos]
    exact_mod_cast (by linarith : f * d < b * 4)
  · rw [div_lt_iff₀ hpos]
    exact_mod_cast (by linarith : b < f * d)

/-! ### The rate a request programs (R145) -/

/-- Scheme A with a quotient of at least 1. -/
theorem programmedRate_linear (hv : p.valid = true) (v : Word) (h1 : 1 ≤ linearQuotient p (clampHz p hz))
    (h : linearQuotient p (clampHz p hz) ≤ 256) :
    clockRate p (cctlValue v (divcalc p hz)) = (p.baseHz : Rat) / (2 * linearQuotient p (clampHz p hz)) ∧
      (clampHz p hz : Rat) ≤ clockRate p (cctlValue v (divcalc p hz)) ∧
      clockRate p (cctlValue v (divcalc p hz)) < 2 * clampHz p hz ∧
      (clockRate p (cctlValue v (divcalc p hz)) = clampHz p hz ↔
        2 * linearQuotient p (clampHz p hz) * clampHz p hz = p.baseHz) := by
  obtain ⟨hle, hlt⟩ := linearQuotient_bounds (p := p) (clamp_range hv hz).1
  rw [divcalc_schemeA h, clockRate_schemeA v (by omega), Nat.sub_add_cancel h1]
  exact ⟨rfl, linear_rate_bounds h1 hle hlt⟩

/-- Scheme A with quotient 0: half the divider input, below the clamped rate. -/
theorem programmedRate_quotientZero (hv : p.valid = true) (v : Word) (h0 : linearQuotient p (clampHz p hz) = 0) :
    clockRate p (cctlValue v (divcalc p hz)) = (p.baseHz : Rat) / 2 ∧
      clockRate p (cctlValue v (divcalc p hz)) < clampHz p hz ∧
      (p.maxHz ≤ p.baseHz → (clampHz p hz : Rat) / 2 ≤ clockRate p (cctlValue v (divcalc p hz))) := by
  obtain ⟨hpos, hmax, -, -⟩ := clamp_range hv hz
  have hlt : (p.baseHz : Rat) < 2 * clampHz p hz := by exact_mod_cast (linearQuotient_eq_zero_iff hpos).mp h0
  have hr : clockRate p (cctlValue v (divcalc p hz)) = (p.baseHz : Rat) / 2 := by
    rw [divcalc_schemeA (by omega), h0, clockRate_schemeA v (Nat.zero_le _), Nat.cast_one, mul_one]
  rw [hr]
  refine ⟨rfl, by linarith, fun hm => ?_⟩
  have hle : (clampHz p hz : Rat) ≤ p.baseHz := by exact_mod_cast hmax.trans hm
  linarith

/-- Scheme B: below the clamped rate, by less than a factor of 4. -/
theorem programmedRate_power (hv : p.valid = true) (v : Word) (h : 256 < linearQuotient p (clampHz p hz)) :
    (clampHz p hz : Rat) / 4 < clockRate p (cctlValue v (divcalc p hz)) ∧
      clockRate p (cctlValue v (divcalc p hz)) < clampHz p hz := by
  obtain ⟨hpos, -, -, -⟩ := clamp_range hv hz
  obtain ⟨h9, h15⟩ := schemeB_divider_fits hv h
  obtain ⟨-, -, -, hbase, -⟩ := (valid_iff p).mp hv
  obtain ⟨hlt, hgt⟩ := schemeB_divisor_bounds (b := p.baseHz) (f := clampHz p hz) (by omega) (by omega) (by omega)
  rw [divcalc_schemeB h, clockRate_schemeB v h15]
  exact power_rate_bounds (Nat.two_pow_pos _) hlt hgt

end

/-! ### The statements -/

/-- Settles O27, from the two cases of DIVCALC. -/
theorem divcalcChoosesASchemeWhoseDividerFits : Obligations.DivcalcChoosesASchemeWhoseDividerFits := by
  unfold Obligations.DivcalcChoosesASchemeWhoseDividerFits
  intro p hz hv fc n
  exact ⟨fun h => ⟨divcalc_schemeA h, by omega, linearQuotient_eq_zero_iff (clamp_range hv hz).1⟩,
    fun h => ⟨divcalc_schemeB h, schemeB_divider_fits hv h⟩⟩

/-- Settles O28: the rate of the divider of each scheme, and the bounds of R145 from those of the quotient and of the logarithms. -/
theorem achievedRateBounds : Obligations.AchievedRateBounds := by
  unfold Obligations.AchievedRateBounds
  intro p hz v hv fc n r
  exact ⟨programmedRate_linear hv v, programmedRate_quotientZero hv v, programmedRate_power hv v⟩

/-- Settles O29: the clamp of R140 takes such a request to the bound. -/
theorem requestsOutsideTheRangeAreClamped : Obligations.RequestsOutsideTheRangeAreClamped := by
  unfold Obligations.RequestsOutsideTheRangeAreClamped
  intro p hz _
  exact ⟨fun h => divcalc_eq_of_clampHz_eq (clampHz_of_lt_minHz h), fun h => divcalc_eq_of_clampHz_eq (clampHz_of_maxHz_lt h)⟩

end Sys2Proof.Machine
end

section
/-! O23: SET_SPEED as two accesses of CCTL with the shifter's turn before each (R147). -/

namespace Sys2Proof.Machine

/-! ### The shifter beside a command -/

/-- From `s` to `t` the shifter alone acted on the block, beside the recorded accesses `evs`, newest first; with no burst in flight
it did nothing. -/
structure Beside (evs : List Event) (s t : State) : Prop where
  cfg   : t.cfg = s.cfg
  clkOn : t.clkOn = s.clkOn
  port  : t.port = s.port
  txBuf : t.txBuf = s.txBuf
  rxBuf : t.rxBuf = s.rxBuf
  regs  : t.blk = { s.blk with ctl := t.blk.ctl, txFifo := t.blk.txFifo, rxFifo := t.blk.rxFifo }
  ctl   : ∀ j, j ≠ 10 → t.blk.ctl.getLsbD j = s.blk.ctl.getLsbD j
  quiet : Quiet s → t.blk = s.blk ∧ t.env.slaveIn = s.env.slaveIn ∧ t.history = evs ++ s.history

section
variable {s t u : State} {evs evs' : List Event}

theorem Beside.trans (h : Beside evs s t) (g : Beside evs' t u) : Beside (evs' ++ evs) s u where
  cfg := g.cfg.trans h.cfg
  clkOn := g.clkOn.trans h.clkOn
  port := g.port.trans h.port
  txBuf := g.txBuf.trans h.txBuf
  rxBuf := g.rxBuf.trans h.rxBuf
  regs := by rw [g.regs, h.regs]
  ctl j hj := (g.ctl j hj).trans (h.ctl j hj)
  quiet hq := by
    obtain ⟨hb, hs, hh⟩ := h.quiet hq
    obtain ⟨gb, gs, gh⟩ := g.quiet (by rw [Quiet, hb]; exact hq)
    exact ⟨gb.trans hb, gs.trans hs, by rw [gh, hh, List.append_assoc]⟩

theorem Turn.beside (h : Turn s t) : Beside [] s t where
  cfg := h.cfg
  clkOn := h.clkOn
  port := h.port
  txBuf := h.txBuf
  rxBuf := h.rxBuf
  regs := h.regs
  ctl := h.ctl
  quiet hq := by rw [h.quiet hq]; exact ⟨rfl, rfl, rfl⟩

theorem beside_withEngine (s : State) (e : Engine) : Beside [] s (s.withEngine e) :=
  ⟨rfl, rfl, rfl, rfl, rfl, rfl, fun _ _ => rfl, fun _ => ⟨rfl, rfl, rfl⟩⟩

theorem beside_record (s : State) (ev : Event) : Beside [ev] s (s.record ev) :=
  ⟨rfl, rfl, rfl, rfl, rfl, rfl, fun _ _ => rfl, fun _ => ⟨rfl, rfl, rfl⟩⟩

theorem Beside.cctl (h : Beside evs s t) : t.blk.cctl = s.blk.cctl := by rw [h.regs]

theorem Beside.ctlRead_bit (h : Beside evs s t) {j : Nat} (hj : j ≠ 10) :
    (ctlRead t.blk).getLsbD j = (ctlRead s.blk).getLsbD j := by
  rw [Machine.ctlRead_bit, Machine.ctlRead_bit, h.ctl j hj]

end

/-! ### SET_SPEED (R147) -/

/-- The clamped rate `e.hz` receives for the operand of a SET_SPEED (R112, R140). -/
def rateWord (p : Config.Params) (hz : Nat) : Word := BitVec.ofNat 32 (clampHz p (highField (encode (.setSpeed hz))).toNat)

/-- The CCTL value a SET_SPEED writes where it read `v`. -/
def speedCctl (p : Config.Params) (hz : Nat) (v : Word) : Word := cctlValue v (divcalc p (rateWord p hz).toNat)

/-- The engine registers a SET_SPEED leaves, with what it read from CCTL. -/
def speedEngine (p : Config.Params) (hz : Nat) (cctl : Word) (e : Engine) : Engine :=
  { e with cmd := encode (.setSpeed hz), hz := rateWord p hz, curFreq := rateWord p hz, v := cctl, upc := .idle }

/-- The state after the write half, made at `c` with the value `w`, and the end of the command. -/
def afterSpdW (w : Word) (c : State) : State :=
  finish .ok (State.withEngine (State.record (.access offCCTL 4 .write w) { c with blk := { c.blk with cctl := w } })
    { c.e with curFreq := c.e.hz })

section
variable (w : Word) (c : State)

@[simp] theorem afterSpdW_blk : (afterSpdW w c).blk = { c.blk with cctl := w } := rfl
@[simp] theorem afterSpdW_e : (afterSpdW w c).e = { c.e with curFreq := c.e.hz, upc := .idle } := rfl
@[simp] theorem afterSpdW_slaveIn : (afterSpdW w c).env.slaveIn = c.env.slaveIn := rfl
@[simp] theorem afterSpdW_history :
    (afterSpdW w c).history = .command c.e.cmd .ok :: .access offCCTL 4 .write w :: c.history := rfl

end

theorem stepSpdR_eq {a : State} (hc : a.clkOn = true) :
    stepSpdR a = .next (State.withEngine (a.record (.access offCCTL 4 .read a.blk.cctl))
      { a.e with hz := BitVec.ofNat 32 (clampHz a.cfg (operandHz a.e)), v := a.blk.cctl, upc := .spdW }) :=
  readInto_cctl (a.withEngine { a.e with hz := BitVec.ofNat 32 (clampHz a.cfg (operandHz a.e)) }) .spdW hc

theorem stepSpdW_eq {c : State} (hc : c.clkOn = true) :
    stepSpdW c = .next (afterSpdW (cctlValue c.e.v (divcalc c.cfg c.e.hz.toNat)) c) := by
  rw [stepSpdW, regWrite_cctl _ _ hc]
  rfl

/-- The rate is the clamped operand, which fits `e.hz` in a valid configuration (R11, R13). -/
theorem rateWord_toNat {p : Config.Params} (hv : p.valid = true) {hz : Nat} (h : hz < 2 ^ 32) :
    (rateWord p hz).toNat = clampHz p hz := by
  have hop : (highField (encode (.setSpeed hz))).toNat = hz := highField_append_toNat h _
  rw [rateWord, hop, BitVec.toNat_ofNat, Nat.mod_eq_of_lt (clamp_range hv hz).2.2.2]

theorem speedCctl_eq {p : Config.Params} (hv : p.valid = true) {hz : Nat} (h : hz < 2 ^ 32) (v : Word) :
    speedCctl p hz v = cctlValue v (divcalc p hz) := by
  rw [speedCctl, rateWord_toNat hv h, divcalc_eq_of_clampHz_eq (clamp_idem hv hz)]

/-- A value written to CCTL is written again as it stands: both schemes set the same field and DRS anew (R149). -/
theorem cctlValue_cctlValue (v : Word) (d : Scheme × Nat) : cctlValue (cctlValue v d) d = cctlValue v d := by
  obtain ⟨scheme, n⟩ := d
  cases scheme <;> ext j hj <;> interval_cases j <;> simp [cctlValue, maskCDR1, maskCDR2, maskDRS]

theorem speedCctl_speedCctl (p : Config.Params) (hz : Nat) (v : Word) : speedCctl p hz (speedCctl p hz v) = speedCctl p hz v :=
  cctlValue_cctlValue _ _

/-- `SPD_R` with the shifter's turn before it: the clamped rate and CCTL as it was are in the engine. -/
theorem tick_spdR {s : State} (hu : s.e.upc = .spdR) (hclk : s.clkOn = true) (hag : CountsAgree s) :
    ∃ b, tick s = .next b ∧ CountsAgree b ∧ Beside [.access offCCTL 4 .read s.blk.cctl] s b ∧
      b.e = { s.e with hz := BitVec.ofNat 32 (clampHz s.cfg (operandHz s.e)), v := s.blk.cctl, upc := .spdW } := by
  obtain ⟨a, ha, ta⟩ := tick_turn hag
  have hstep : engineStep a = stepSpdR a := by rw [engineStep, ta.e, hu]
  refine ⟨_, ha.trans (hstep.trans (stepSpdR_eq (ta.clkOn.trans hclk))), ta.agree, ?_, ?_⟩
  · rw [ta.cctl]
    exact ta.beside.trans ((beside_record _ _).trans (beside_withEngine _ _))
  · rw [withEngine_e, ta.e, ta.cfg, ta.cctl]

/-- `SPD_W` with the shifter's turn before it. -/
theorem tick_spdW {b : State} (hu : b.e.upc = .spdW) (hclk : b.clkOn = true) (hag : CountsAgree b) :
    ∃ c, tick b = .next (afterSpdW (cctlValue b.e.v (divcalc b.cfg b.e.hz.toNat)) c) ∧ Beside [] b c ∧ c.e = b.e := by
  obtain ⟨c, hc, tc⟩ := tick_turn hag
  have hstep : engineStep c = stepSpdW c := by rw [engineStep, tc.e, hu]
  refine ⟨c, ?_, tc.beside, tc.e⟩
  rw [hc, hstep, stepSpdW_eq (tc.clkOn.trans hclk), tc.e, tc.cfg]

/-- SET_SPEED is its read half, and its write half at a state `c` which the shifter alone has otherwise changed. -/
theorem exec_setSpeed (hz : Nat) {s : State} (hr : Ready s) (hag : CountsAgree s) :
    ∃ c, exec (.setSpeed hz) s = .next (afterSpdW (speedCctl s.cfg hz s.blk.cctl) c) ∧
      Beside [.access offCCTL 4 .read s.blk.cctl] s c ∧
      c.e = { s.e with cmd := encode (.setSpeed hz), hz := rateWord s.cfg hz, v := s.blk.cctl, upc := .spdW } := by
  obtain ⟨b, hb, hagb, bb, hbe⟩ :=
    tick_spdR (s := s.withEngine { s.e with cmd := encode (.setSpeed hz), upc := .spdR }) rfl hr.clk hag
  have hbu : b.e.upc = .spdW := congrArg Engine.upc hbe
  obtain ⟨c, hc, bc, hce⟩ := tick_spdW hbu (bb.clkOn.trans hr.clk) hagb
  rw [hbe, bb.cfg] at hc
  refine ⟨c, ?_, ((beside_withEngine s _).trans bb).trans bc, hce.trans hbe⟩
  rw [exec, execSetSpeed, accept_idle s _ _ hr.idle, andThen_next, runWhile_step rfl, hb, andThen_next,
    runWhile_step (by rw [hbu]; rfl), hc]
  rfl

/-- What a SET_SPEED leaves of everything but CCTL. -/
theorem afterSpdW_frame {s c : State} {hz : Nat} {w : Word} {evs : List Event} (h : Beside evs s c)
    (he : c.e = { s.e with cmd := encode (.setSpeed hz), hz := rateWord s.cfg hz, v := s.blk.cctl, upc := .spdW }) :
    RmwFrame s (afterSpdW w c) { s.e with cmd := encode (.setSpeed hz), hz := rateWord s.cfg hz, curFreq := rateWord s.cfg hz } where
  cfg := h.cfg
  clkOn := h.clkOn
  port := h.port
  txBuf := h.txBuf
  rxBuf := h.rxBuf
  counts := by rw [afterSpdW_blk, h.regs]; exact ⟨rfl, rfl⟩
  unused := by rw [afterSpdW_blk, h.regs]; exact ⟨rfl, rfl, rfl, rfl⟩
  engine := by rw [afterSpdW_e, he]
  quiet hq := by
    obtain ⟨hb, hs, -⟩ := h.quiet hq
    rw [Quiet, afterSpdW_blk, afterSpdW_slaveIn, hb, hs]
    exact ⟨hq, rfl, rfl, rfl⟩

/-- The fields of the CCTL value a request programs (R147): DRS and the field of the scheme, the other field kept. -/
theorem speedCctl_fields {p : Config.Params} (hv : p.valid = true) {hz : Nat} (h : hz < 2 ^ 32) (v : Word) :
    (linearQuotient p (clampHz p hz) ≤ 256 → cctlDRS (speedCctl p hz v) = true ∧
      (cctlCDR2 (speedCctl p hz v)).toNat = linearQuotient p (clampHz p hz) - 1 ∧ cctlCDR1 (speedCctl p hz v) = cctlCDR1 v) ∧
    (256 < linearQuotient p (clampHz p hz) → cctlDRS (speedCctl p hz v) = false ∧
      (cctlCDR1 (speedCctl p hz v)).toNat = Config.flog2 p.baseHz - Config.flog2 (clampHz p hz) ∧
      cctlCDR2 (speedCctl p hz v) = cctlCDR2 v) := by
  rw [speedCctl_eq hv h]
  constructor <;> intro hn
  · rw [divcalc_schemeA hn, cctlCDR2_schemeA, BitVec.toNat_ofNat, Nat.mod_eq_of_lt (by omega)]
    exact ⟨cctlDRS_schemeA _ _, rfl, cctlCDR1_schemeA _ _⟩
  · obtain ⟨-, h15⟩ := schemeB_divider_fits hv hn
    rw [divcalc_schemeB hn, cctlCDR1_schemeB, BitVec.toNat_ofNat, Nat.mod_eq_of_lt (by omega)]
    exact ⟨cctlDRS_schemeB _ _, rfl, cctlCDR2_schemeB _ _⟩

/-- Settles O23: the read half finds CCTL as it was, and the write half changes it alone. -/
theorem setSpeedWritesDividerAndRecordsClampedRate : Obligations.SetSpeedWritesDividerAndRecordsClampedRate := by
  unfold Obligations.SetSpeedWritesDividerAndRecordsClampedRate
  intro hz s hr hag hv hlt
  obtain ⟨c, hrun, hc, he⟩ := exec_setSpeed hz hr hag
  have hcctl : (afterSpdW (speedCctl s.cfg hz s.blk.cctl) c).blk.cctl = speedCctl s.cfg hz s.blk.cctl := rfl
  have hhz : (afterSpdW (speedCctl s.cfg hz s.blk.cctl) c).e.hz = rateWord s.cfg hz := congrArg Engine.hz he
  have hfreq : (afterSpdW (speedCctl s.cfg hz s.blk.cctl) c).e.curFreq = rateWord s.cfg hz := congrArg Engine.hz he
  refine ⟨_, hrun, rfl, fun _ _ hj => hc.ctlRead_bit hj, ?_, ?_, ?_, fun hq => ?_⟩
  · rw [hcctl]
    exact cctlOther_kept _ _
  · rw [hcctl, hfreq]
    exact ⟨rateWord_toNat hv hlt, speedCctl_fields hv hlt _⟩
  · rw [hhz]
    exact afterSpdW_frame hc he
  · obtain ⟨-, -, hh⟩ := hc.quiet hq
    rw [afterSpdW_history, he, hh]
    rfl

end Sys2Proof.Machine
end

section
/-! O25: SET_MODE (R240) beside SET_SPEED (R147), both with no burst in flight. -/

namespace Sys2Proof.Machine

/-! ### SET_MODE -/

/-- The state after the write half, made at `c`, and the end of the command. -/
def afterModeW (c : State) : State :=
  finish .ok (State.withEngine ((ctlWrite (modeValue c.e.v (operandCpol c.e) (operandCpha c.e)) c).record
    (.access offCTL 4 .write (modeValue c.e.v (operandCpol c.e) (operandCpha c.e))))
    { c.e with curCpol := operandCpol c.e, curCpha := operandCpha c.e })

section
variable (c : State)

@[simp] theorem afterModeW_cfg : (afterModeW c).cfg = c.cfg := by simp [afterModeW]
@[simp] theorem afterModeW_clkOn : (afterModeW c).clkOn = c.clkOn := by simp [afterModeW]
@[simp] theorem afterModeW_blk :
    (afterModeW c).blk = ctlWriteBlock c.blk (modeValue c.e.v (operandCpol c.e) (operandCpha c.e)) := by simp [afterModeW]
@[simp] theorem afterModeW_e :
    (afterModeW c).e = { c.e with curCpol := operandCpol c.e, curCpha := operandCpha c.e, upc := .idle } := rfl

end

theorem stepModeW_eq {c : State} (hc : c.clkOn = true) : stepModeW c = .next (afterModeW c) := by
  rw [stepModeW, regWrite_ctl _ _ hc, andThen_next, record_e, ctlWrite_e]
  rfl

/-- SET_MODE writes XCH back as read (R240). -/
theorem modeValue_xch (b : Block) (cpol cpha : Bool) : ctlXCH (modeValue (ctlRead b) cpol cpha) = busy b := by
  rw [ctlXCH, modeValue_bit, if_neg (by decide), if_neg (by decide), ctlRead_bit]
  exact Bool.and_true _

/-- SET_MODE is its read half, and its write half at the state `c` between them. -/
theorem exec_setMode (cpol cpha : Bool) {s : State} (hr : Ready s) (hag : CountsAgree s) :
    ∃ c, exec (.setMode cpol cpha) s = .next (afterModeW c) ∧
      Between (s.withEngine { s.e with cmd := encode (.setMode cpol cpha), upc := .modeR }) c .modeW := by
  obtain ⟨b, c, hb, hbu, hc, h⟩ := between_exists (target := .modeW)
    (s := s.withEngine { s.e with cmd := encode (.setMode cpol cpha), upc := .modeR }) hr.clk hag rfl
    (fun a ha => by rw [engineStep, ha]; rfl)
  have hw : engineStep c = .next (afterModeW c) := by
    rw [show engineStep c = stepModeW c by rw [engineStep, h.e], stepModeW_eq (h.clkOn.trans hr.clk)]
  refine ⟨c, ?_, h⟩
  rw [exec, execSetMode, accept_idle s _ _ hr.idle, andThen_next, runWhile_step rfl, hb, andThen_next,
    runWhile_step (by rw [hbu]; rfl), hc, hw]
  rfl

/-! ### With no burst in flight -/

/-- A command run from `s` to `t` with no burst in flight, which leaves the block `b` and the engine registers `e`. -/
structure QuietRun (i : Instr) (s t : State) (b : Block) (e : Engine) : Prop where
  run   : exec i s = .next t
  ready : Ready t
  quiet : Quiet t
  cfg   : t.cfg = s.cfg
  blk   : t.blk = b
  e     : t.e = e

theorem Quiet.countsAgree {s : State} (hq : Quiet s) : CountsAgree s := fun h => by rw [hq] at h; cases h

/-- SET_SPEED with no burst in flight. -/
theorem quietRun_setSpeed (hz : Nat) {s : State} (hr : Ready s) (hq : Quiet s) :
    ∃ t, QuietRun (.setSpeed hz) s t { s.blk with cctl := speedCctl s.cfg hz s.blk.cctl } (speedEngine s.cfg hz s.blk.cctl s.e) := by
  obtain ⟨c, hrun, hc, he⟩ := exec_setSpeed hz hr hq.countsAgree
  obtain ⟨hb, -, -⟩ := hc.quiet hq
  have hf := afterSpdW_frame (w := speedCctl s.cfg hz s.blk.cctl) hc he
  refine ⟨_, hrun, ⟨rfl, hf.clkOn.trans hr.clk⟩, (hf.quiet hq).1, hf.cfg, ?_, ?_⟩
  · rw [afterSpdW_blk, hb]
  · rw [afterSpdW_e, he]
    rfl

/-- The engine registers a SET_MODE leaves, with what it read from CTL. -/
def modeEngine (cpol cpha : Bool) (ctl : Word) (e : Engine) : Engine :=
  { e with cmd := encode (.setMode cpol cpha), curCpol := cpol, curCpha := cpha, v := ctl, upc := .idle }

/-- SET_MODE with no burst in flight. -/
theorem quietRun_setMode (cpol cpha : Bool) {s : State} (hr : Ready s) (hq : Quiet s) :
    ∃ t, QuietRun (.setMode cpol cpha) s t (ctlWriteBlock s.blk (modeValue (ctlRead s.blk) cpol cpha))
      (modeEngine cpol cpha (ctlRead s.blk) s.e) := by
  obtain ⟨c, hrun, h⟩ := exec_setMode cpol cpha hr hq.countsAgree
  obtain ⟨hb, -, hv⟩ := h.quiet hq
  obtain ⟨hcpol, hcpha⟩ := bitField_encode_setMode cpol cpha
  have hpol : operandCpol c.e = cpol := by rw [operandCpol, h.e]; exact hcpol
  have hpha : operandCpha c.e = cpha := by rw [operandCpha, h.e]; exact hcpha
  have hblk : (afterModeW c).blk = ctlWriteBlock s.blk (modeValue (ctlRead s.blk) cpol cpha) := by
    rw [afterModeW_blk, hb, hv, hpol, hpha]
    rfl
  refine ⟨_, hrun, ⟨rfl, ?_⟩, ?_, ?_, hblk, ?_⟩
  · rw [afterModeW_clkOn]
    exact h.clkOn.trans hr.clk
  · rw [Quiet, hblk, busy_after_write, modeValue_xch]
    exact (Bool.or_self _).trans hq
  · rw [afterModeW_cfg]
    exact h.cfg
  · rw [afterModeW_e, hpol, hpha, h.e, hv]
    rfl

/-- Settles O25: with no burst in flight SET_SPEED changes CCTL alone, to a value it would write again, and SET_MODE changes CTL
alone. -/
theorem setSpeedIsIdempotentAndCommutesWithSetMode : Obligations.SetSpeedIsIdempotentAndCommutesWithSetMode := by
  unfold Obligations.SetSpeedIsIdempotentAndCommutesWithSetMode
  intro hz cpol cpha s hr hq
  obtain ⟨t, ht⟩ := quietRun_setSpeed hz hr hq
  obtain ⟨u, hu⟩ := quietRun_setSpeed hz ht.ready ht.quiet
  obtain ⟨w, hw⟩ := quietRun_setMode cpol cpha ht.ready ht.quiet
  obtain ⟨t', ht'⟩ := quietRun_setMode cpol cpha hr hq
  obtain ⟨w', hw'⟩ := quietRun_setSpeed hz ht'.ready ht'.quiet
  refine ⟨⟨t, u, ht.run, hu.run, ?_, ?_⟩, t, w, t', w', ht.run, hw.run, ht'.run, hw'.run, ?_, ?_, ?_, ?_⟩
  · rw [hu.blk, ht.cfg, ht.blk, speedCctl_speedCctl]
  · rw [hu.e, ht.cfg, ht.e]
    rfl
  · rw [hw.blk, ht.blk, hw'.blk, ht'.cfg, ht'.blk]
    rfl
  all_goals
    rw [hw.e, ht.e, hw'.e, ht'.cfg, ht'.e]
    rfl

end Sys2Proof.Machine
end

section
/-! O30, O31: the levels of the chip-select lines in manual and in automatic mode, and which lines are asserted (R172 to R176). -/

namespace Sys2Proof.Machine

section
variable {s t : State} {i : Nat}

/-- In automatic mode a line there is has the free value of the moment (R176). -/
theorem csLine_automatic (h : ctlCS_MANUAL s.blk.ctl = false) :
    csLine s i = if i < s.cfg.numCs then some (Config.freeLine s.env.now i) else none := by
  simp [csLine, h]

/-- In manual mode the line of CTL.CS is at CTL.CS_LEVEL and every other at the inactive level (R174). -/
theorem csLine_manual (h : ctlCS_MANUAL s.blk.ctl = true) :
    csLine s i = if i < s.cfg.numCs then
      some (if i = (ctlCS s.blk.ctl).toNat then ctlCS_LEVEL s.blk.ctl else ctlCSPOL_LOW s.blk.ctl) else none := by
  simp [csLine, activeLevel, h]

theorem csAsserted_iff : csAsserted s i = true ↔ csLine s i = some (activeLevel s.blk.ctl) := beq_iff_eq

/-- In manual mode a line is asserted where it is the line of CTL.CS and CTL.CS_LEVEL is the active level (R174, R175). -/
theorem csAsserted_manual_iff (h : ctlCS_MANUAL s.blk.ctl = true) :
    csAsserted s i = true ↔
      i < s.cfg.numCs ∧ i = (ctlCS s.blk.ctl).toNat ∧ ctlCS_LEVEL s.blk.ctl = activeLevel s.blk.ctl := by
  rw [csAsserted_iff, csLine_manual h]
  by_cases hn : i < s.cfg.numCs
  · by_cases hi : i = (ctlCS s.blk.ctl).toNat
    · rw [if_pos hn, if_pos hi, Option.some.injEq]
      exact ⟨fun hl => ⟨hn, hi, hl⟩, fun ⟨_, _, hl⟩ => hl⟩
    · have hinactive : ctlCSPOL_LOW s.blk.ctl ≠ activeLevel s.blk.ctl := Bool.self_ne_not _
      rw [if_pos hn, if_neg hi, Option.some.injEq]
      exact ⟨fun hl => absurd hl hinactive, fun ⟨_, hi', _⟩ => absurd hi' hi⟩
  · simp [hn]

/-- That a moment is over stays so through everything a step is made of. -/
theorem now_kept (n : Nat) : Kept (fun u => n ≤ u.env.now) where
  moment _ h := Nat.le_succ_of_le h
  turn _ _ h ht := h.trans (shifterTurn_now ht)
  engine _ _ h ht := h.trans (engineStep_frame ht).now
  accept _ _ _ h _ _ := h
  transfer _ _ _ _ _ _ _ _ h _ _ _ _ := h
  reject _ _ _ h := Nat.le_succ_of_le h
  take _ _ _ h _ _ := ⟨h, h⟩

/-- A step begins at a new moment and never goes back (R176). -/
theorem step_now (h : step s = .next t) : s.env.now < t.env.now := (now_kept (s.env.now + 1)).afterMoment (Nat.le_refl _) h

end

/-- Settles O30, from the levels of the lines in manual mode. -/
theorem theAssertedLineInManualMode : Obligations.TheAssertedLineInManualMode := by
  unfold Obligations.TheAssertedLineInManualMode
  intro s i
  refine ⟨?_, fun hm => ⟨csLine_manual hm, fun hp => ?_, fun hp => ?_, fun k hi hk => ?_, fun hcs => ?_⟩⟩
  · rw [csAsserted_iff, activeLevel]
    cases ctlCSPOL_LOW s.blk.ctl <;> rfl
  · rw [csAsserted_manual_iff hm, activeLevel, hp]
    rfl
  · rw [csAsserted_manual_iff hm, activeLevel, hp]
    rfl
  · obtain ⟨-, hi, -⟩ := (csAsserted_manual_iff hm).mp hi
    obtain ⟨-, hk, -⟩ := (csAsserted_manual_iff hm).mp hk
    exact hi.trans hk.symm
  · refine Bool.eq_false_iff.mpr fun hi => ?_
    obtain ⟨hn, hi, -⟩ := (csAsserted_manual_iff hm).mp hi
    omega

/-- Settles O31: the level is the free value of the moment, and a step ends at a later one. -/
theorem automaticLinesAreDrawnAnewAtEveryStep : Obligations.AutomaticLinesAreDrawnAnewAtEveryStep := by
  unfold Obligations.AutomaticLinesAreDrawnAnewAtEveryStep
  exact fun s => ⟨fun h _ => csLine_automatic h, fun _ => step_now⟩

end Sys2Proof.Machine
end

section
/-! O34: manual, active-low chip select is kept by every step (R177), because every value written to CTL after a read of it keeps both
bits. -/

namespace Sys2Proof.Machine

section
variable {s t : State} {e : Engine} {v w : Word}

/-- A CTL value holds manual, active-low chip select (R177). -/
def ManualLow (v : Word) : Prop := ctlCS_MANUAL v = true ∧ ctlCSPOL_LOW v = true

/-! ### CTL values -/

/-- CS_MANUAL is bit 16 and CSPOL_LOW bit 4 (R42). -/
theorem manualLow_iff_bits : ManualLow v ↔ ∀ j, j = 4 ∨ j = 16 → v.getLsbD j = true := by
  constructor
  · rintro ⟨h16, h4⟩ j (rfl | rfl)
    · exact h4
    · exact h16
  · exact fun h => ⟨h 16 (.inr rfl), h 4 (.inl rfl)⟩

/-- A value with the same bits 4 and 16. -/
theorem ManualLow.congr_bits (h : ManualLow v) (hw : ∀ j, j = 4 ∨ j = 16 → w.getLsbD j = v.getLsbD j) : ManualLow w :=
  manualLow_iff_bits.mpr fun j hj => (hw j hj).trans (manualLow_iff_bits.mp h j hj)

/-- The FIFO-reset bits and XCH, which a read, a write and the shifter treat apart (R44, R45), are not its bits. -/
theorem ManualLow.congr (h : ManualLow v) (hw : ∀ j, j ≠ 8 → j ≠ 9 → j ≠ 10 → w.getLsbD j = v.getLsbD j) : ManualLow w :=
  h.congr_bits fun j hj => hw j (by omega) (by omega) (by omega)

theorem ManualLow.ctlRead {b : Block} (h : ManualLow b.ctl) : ManualLow (ctlRead b) :=
  h.congr fun j h8 h9 _ => by simp [ctlRead_bit, h8, h9]

theorem ManualLow.ctlStored {old : Word} (h : ManualLow v) : ManualLow (ctlStored old v) :=
  h.congr fun j h8 h9 h10 => by
    simp [ctlStored_bit, beq_eq_false_iff_ne.mpr h8, beq_eq_false_iff_ne.mpr h9, beq_eq_false_iff_ne.mpr h10]

theorem ManualLow.clearXch (h : ManualLow v) : ManualLow (v &&& ~~~maskXCH) :=
  h.congr fun j _ _ h10 => by rw [clearXch_bit]; simp [h10]

/-- CLAIM sets both bits whatever it read (R250). -/
theorem manualLow_claimValue (v : Word) : ManualLow (claimValue v) :=
  manualLow_iff_bits.mpr fun j hj => by
    rw [claimValue_bit v j (by omega)]
    rcases hj with rfl | rfl <;> simp

theorem ManualLow.releaseValue (h : ManualLow v) : ManualLow (releaseValue v) :=
  h.congr_bits fun j hj => by rw [releaseValue_bit, beq_eq_false_iff_ne.mpr (by omega), Bool.not_false, Bool.and_true]

theorem ManualLow.modeValue {cpol cpha : Bool} (h : ManualLow v) : ManualLow (modeValue v cpol cpha) :=
  h.congr_bits fun j hj => by rw [modeValue_bit, if_neg (by omega), if_neg (by omega)]

theorem ManualLow.setcsValue {cs : BitVec 2} {sel : Bool} (h : ManualLow v) : ManualLow (setcsValue v cs sel) :=
  h.congr_bits fun j hj => by rw [setcsValue_bit, if_neg (by omega), if_neg (by omega), if_neg (by omega)]

theorem ManualLow.or (h : ManualLow v) (m : Word) : ManualLow (v ||| m) :=
  manualLow_iff_bits.mpr fun j hj => by rw [BitVec.getLsbD_or, manualLow_iff_bits.mp h j hj, Bool.true_or]

/-- Whatever position writes CTL back, both bits are kept. -/
theorem ManualLow.ctlWriteValue (h : ManualLow e.v) : ManualLow (ctlWriteValue e) := by
  unfold Machine.ctlWriteValue
  split
  · exact manualLow_claimValue _
  · exact h.releaseValue
  · exact h.modeValue
  · exact h.setcsValue
  · exact (h.or _).or _
  · exact h.or _
  · exact h.setcsValue
  · exact h.setcsValue
  · exact h

/-! ### Steps -/

/-- What an engine step does with CTL and the CTL value on its way back: it reads CTL, or writes it back, or leaves CTL and holds no
value of it. -/
inductive CtlFlow (s t : State) : Prop where
  | read (hctl : t.blk.ctl = s.blk.ctl) (hv : t.e.v = ctlRead s.blk)
  | write (hs : holdsCtl s.e.upc = true) (ht : holdsCtl t.e.upc = false)
      (hctl : t.blk.ctl = ctlStored s.blk.ctl (ctlWriteValue s.e))
  | keep (ht : holdsCtl t.e.upc = false) (hctl : t.blk.ctl = s.blk.ctl)

theorem holdsCtl_of_holdsNothing {u : Upc} (h : holdsNothing u = true) : holdsCtl u = false := by
  simp only [holdsNothing, Bool.and_eq_true, Bool.not_eq_true'] at h
  exact h.1

theorem EngineEffect.ctlFlow (he : EngineEffect s t) : CtlFlow s t := by
  cases he with
  | wait hu h => exact .keep (by rw [h.e, hu]; rfl) (by rw [h.blk])
  | readCtl _ h => exact .read (by rw [h.blk]) (by rw [h.e])
  | writeCtl hu h =>
    exact .write hu (by rw [h.e]; exact holdsCtl_of_holdsNothing (holdsNothing_ctlWriteEngine _)) (by rw [h.blk]; rfl)
  | readCctl _ _ h => exact .keep (by rw [h.e]; rfl) (by rw [h.blk])
  | writeCctl _ _ h => exact .keep (by rw [h.e]; rfl) (by rw [h.blk])
  | loopTest _ h => exact .keep (by rw [h.e]; exact holdsCtl_of_holdsNothing (holdsNothing_loopEngine _)) (by rw [h.blk])
  | writeBc _ h => exact .keep (by rw [h.e]; rfl) (by rw [h.blk])
  | writeTc _ h => exact .keep (by rw [h.e]; rfl) (by rw [h.blk])
  | fill _ _ h => exact .keep (by rw [h.e]; dsimp only; split <;> rfl) (by rw [h.blk, txPush_blk_eq])
  | pollBusy _ hu h => exact .keep (by rcases hu with rfl | rfl <;> rw [h.e] <;> rfl) (by rw [h.blk])
  | pollDone _ h => exact .read (by rw [h.blk]) (by rw [h.e])
  | drain _ _ hu _ h =>
    exact .keep (by rw [h.e]; exact holdsCtl_of_holdsNothing (holdsNothing_drainEngine hu)) (by rw [h.blk])

/-- Where no CTL value is held, CTL alone says it. -/
theorem manualActiveLow_of_not_held (hnow : ManualLow s.blk.ctl) (hu : holdsCtl s.e.upc = false) : ManualActiveLow s :=
  ⟨hnow, fun h => by rw [hu] at h; cases h⟩

theorem CtlFlow.manualActiveLow (hf : CtlFlow s t) (h : ManualActiveLow s) : ManualActiveLow t := by
  obtain ⟨(hnow : ManualLow s.blk.ctl), hheld⟩ := h
  cases hf with
  | read hctl hv => exact ⟨by rwa [hctl], fun _ => by rw [hv]; exact hnow.ctlRead⟩
  | write hs ht hctl =>
    refine manualActiveLow_of_not_held ?_ ht
    rw [hctl]
    exact (ManualLow.ctlWriteValue (hheld hs)).ctlStored
  | keep ht hctl => exact manualActiveLow_of_not_held (by rwa [hctl]) ht

/-- The shifter changes XCH alone of CTL (R209). -/
theorem manualActiveLow_shifterTurn (h : ManualActiveLow s) (ht : shifterTurn s = .next t) : ManualActiveLow t := by
  obtain ⟨hnow, hheld⟩ := h
  rcases shifterTurn_next ht with h1 | h1
  · rw [h1]; exact ⟨hnow, hheld⟩
  · rw [h1]; exact ⟨by rw [burst_ctl]; exact ManualLow.clearXch hnow, by rwa [burst_e]⟩

/-- Manual, active-low chip select is kept by everything a step is made of; a command is accepted at a position that holds no CTL
value. -/
theorem manualActiveLow_kept : Kept ManualActiveLow where
  moment _ h := ⟨h.now, h.held⟩
  turn _ _ := manualActiveLow_shifterTurn
  engine _ _ h ht := (engineStep_effect ht).ctlFlow.manualActiveLow h
  accept _ _ _ h _ hu := manualActiveLow_of_not_held h.now (by rcases hu with rfl | rfl | rfl | rfl <;> rfl)
  transfer _ _ b _ _ _ _ _ h _ _ _ _ := manualActiveLow_of_not_held h.now (by cases b <;> rfl)
  reject _ _ _ h := ⟨h.now, h.held⟩
  take _ _ _ h _ _ := ⟨⟨h.now, h.held⟩, ⟨h.now, h.held⟩⟩

end

/-- Settles O34: manual, active-low chip select is kept by everything a step is made of, so by a step. -/
theorem stepKeepsManualActiveLow : Obligations.StepKeepsManualActiveLow := by
  unfold Obligations.StepKeepsManualActiveLow
  exact fun _ _ h ht => manualActiveLow_kept.step h ht

end Sys2Proof.Machine
end

section
/-! O32, O33, O35: the write half of SETCS (R170), and the chip select that CLAIM (R250) and the TRANSFERs of `cs_assert` and
`cs_deassert` (R121) leave. -/

namespace Sys2Proof.Machine

section
variable {s t : State} {b : Block} {v : Word} {cs : BitVec 2} {sel : Bool}

/-! ### The write half of SETCS -/

theorem writeThen_ctl (v : Word) (u : Upc) (hc : s.clkOn = true) :
    writeThen offCTL v u s = .next (((ctlWrite v s).record (.access offCTL 4 .write v)).goto u) := by
  rw [writeThen, regWrite_ctl s v hc, andThen_next]

theorem writeFinish_ctl (v : Word) (r : Result) (hc : s.clkOn = true) :
    writeFinish offCTL v r s = .next (finish r ((ctlWrite v s).record (.access offCTL 4 .write v))) := by
  rw [writeFinish, regWrite_ctl s v hc, andThen_next]

/-- CTL of the block `b` reads, XCH apart, as SETCS(`cs`, `sel`) leaves the value `v` (R170). -/
def ReadsSetcs (b : Block) (v : Word) (cs : BitVec 2) (sel : Bool) : Prop :=
  ∀ j, j ≠ 10 → (ctlRead b).getLsbD j = (csBits cs sel j).getD (v.getLsbD j)

/-- The register block after the write of SETCS, from a value read that holds no FIFO-reset bit: index and level alone are not as
read (R170), and XCH is set where it is or was read as 1 (R300). -/
structure SetcsWritten (b : Block) (v : Word) (cs : BitVec 2) (sel : Bool) (b' : Block) : Prop where
  bits  : ReadsSetcs b' v cs sel
  xch   : busy b' = (ctlXCH v || busy b)
  frame : b' = { b with ctl := b'.ctl }

theorem setcsWritten (h8 : v.getLsbD 8 = false) (h9 : v.getLsbD 9 = false) :
    SetcsWritten b v cs sel (ctlWriteBlock b (setcsValue v cs sel)) := by
  have hw8 : (setcsValue v cs sel).getLsbD 8 = false := (setcs_bits v cs sel 8).trans h8
  have hw9 : (setcsValue v cs sel).getLsbD 9 = false := (setcs_bits v cs sel 9).trans h9
  have hx : ctlXCH (setcsValue v cs sel) = ctlXCH v := setcs_bits v cs sel 10
  exact ⟨fun j hj => (ctlRead_after_write hw8 hw9 hj).trans (setcs_bits v cs sel j), by rw [busy_after_write, hx],
    by rw [ctlWriteBlock_plain hw8 hw9]⟩

/-- The step at `T_BEG_W` writes SETCS(`e.cs`, 1) and goes on to the FIFO reset. -/
theorem stepTBegW_next (hc : s.clkOn = true) :
    ∃ t, stepTBegW s = .next t ∧ t.blk = ctlWriteBlock s.blk (setcsValue s.e.v s.e.cs true) ∧ t.e = { s.e with upc := .tRstR } :=
  ⟨_, writeThen_ctl _ _ hc, by simp, by simp⟩

/-- A step that ends the command with the write of SETCS(`e.cs`, 0) and the result `r`. -/
theorem writeFinish_setcs (r : Result) (hc : s.clkOn = true) :
    ∃ t, writeFinish offCTL (setcsValue s.e.v s.e.cs false) r s = .next t ∧
      t.blk = ctlWriteBlock s.blk (setcsValue s.e.v s.e.cs false) ∧ t.e = { s.e with upc := .idle } ∧
      lastResult t.history = some r :=
  ⟨_, writeFinish_ctl _ _ hc, by simp, by simp, rfl⟩

/-- The three steps that write SETCS, and how each ends (R191, R199, R202). -/
theorem engineStep_setcsWrite (hc : s.clkOn = true) (hu : s.e.upc = .tBegW ∨ s.e.upc = .tToW ∨ s.e.upc = .tEndW) :
    ∃ t, engineStep s = .next t ∧ t.blk = ctlWriteBlock s.blk (setcsValue s.e.v s.e.cs (s.e.upc == .tBegW)) ∧
      (s.e.upc = .tBegW → t.e = { s.e with upc := .tRstR }) ∧
      (s.e.upc = .tToW → t.e = { s.e with upc := .idle } ∧ lastResult t.history = some .timeoutError) ∧
      (s.e.upc = .tEndW → t.e = { s.e with upc := .idle } ∧ lastResult t.history = some .ok) := by
  rcases hu with hu | hu | hu <;> rw [engineStep, hu]
  · obtain ⟨t, ht, hb, he⟩ := stepTBegW_next hc
    exact ⟨t, ht, hb, fun _ => he, nofun, nofun⟩
  · obtain ⟨t, ht, hb, he⟩ := writeFinish_setcs .timeoutError hc
    exact ⟨t, ht, hb, nofun, fun _ => he, nofun⟩
  · obtain ⟨t, ht, hb, he⟩ := writeFinish_setcs .ok hc
    exact ⟨t, ht, hb, nofun, nofun, fun _ => he⟩

/-! ### CLAIM -/

/-- CLAIM is its read half, and its write half at the state `c` between them. -/
theorem exec_claim (hr : Ready s) (hag : CountsAgree s) :
    ∃ c, exec .claim s = .next (finish .ok ((ctlWrite (claimValue c.e.v) c).record (.access offCTL 4 .write (claimValue c.e.v)))) ∧
      Between (s.withEngine { s.e with cmd := encode .claim, upc := .claimR }) c .claimW := by
  obtain ⟨b, c, hb, hbu, hc, h⟩ := between_exists (target := .claimW)
    (s := s.withEngine { s.e with cmd := encode .claim, upc := .claimR }) hr.clk hag rfl (fun a ha => by rw [engineStep, ha]; rfl)
  have hw : engineStep c = stepClaimW c := by rw [engineStep, h.e]
  refine ⟨c, ?_, h⟩
  rw [exec, execClaim, accept_idle s _ _ hr.idle, andThen_next, runWhile_step rfl, hb, andThen_next,
    runWhile_step (by rw [hbu]; rfl), hc, hw, stepClaimW, writeFinish_ctl _ _ (h.clkOn.trans hr.clk)]
  rfl

/-! ### A TRANSFER of no bytes -/

/-- A SETCS over a SETCS leaves the bits of the later one. -/
theorem csBits_getD_csBits (j : Nat) (x : Bool) {sel' : Bool} :
    (csBits cs sel j).getD ((csBits cs sel' j).getD x) = (csBits cs sel j).getD x := by
  unfold csBits
  split
  · rfl
  split
  · rfl
  split <;> rfl

/-- What a TRANSFER of no bytes leaves, with no burst in flight: chip select alone is changed (R191). -/
structure SelectRun (s t : State) (beginF endF : Bool) (cs : BitVec 2) : Prop where
  run    : exec (.transfer beginF endF false false cs 0) s = .next t
  result : lastResult t.history = some .ok
  cfg    : t.cfg = s.cfg
  ctl    : ∀ j, j ≠ 10 → (ctlRead t.blk).getLsbD j = (transferBits cs beginF endF j).getD ((ctlRead s.blk).getLsbD j)

theorem selectRun_exists (beginF endF : Bool) (cs : BitVec 2) (hr : Ready s) (hq : Quiet s) : ∃ t, SelectRun s t beginF endF cs := by
  have ha : Accepts s false false 0 := { ready := hr, aligned := rfl, tx := nofun, rx := nofun }
  obtain ⟨m, w, hm, hrun⟩ := exec_start (b := beginF) (e := endF) (cs := cs) ha (.inl hq)
  have hrem : m.e.rem = 0 := by rw [hm.e]; rfl
  have hcs : m.e.cs = cs := by rw [hm.e]; rfl
  have hend : m.e.endF = endF := by rw [hm.e]; rfl
  have hloop : (enterLoop m).e.rem = 0 := by rw [(enterLoop_leaves m).e, loopEngine, if_pos hrem]; exact hrem
  obtain ⟨t, ws, ht, hok⟩ := run_end (hm.same.clk.trans hr.clk) (hm.busy.trans hq) hrem
  refine ⟨t, ⟨?_, hok.res, hok.same.cfg.trans hm.same.cfg, fun j hj => ?_⟩⟩
  · rw [hrun, hloop]
    exact ht
  · rw [hok.ctl j hj, hm.ctl j hj, hcs, hend]
    cases endF
    · cases beginF <;> rfl
    · cases beginF
      · rfl
      · exact csBits_getD_csBits j _

/-! ### The lines -/

theorem csFields_of_setcs (hcs : ReadsSetcs b v cs sel) :
    ctlCS b.ctl = cs ∧ ctlCS_LEVEL b.ctl = !sel := by
  have hctl : ∀ j, j ≠ 8 → j ≠ 9 → j ≠ 10 → b.ctl.getLsbD j = (csBits cs sel j).getD (v.getLsbD j) := fun j h8 h9 h10 => by
    rw [← hcs j h10, ctlRead_bit]
    simp [h8, h9]
  refine ⟨BitVec.eq_of_getLsbD_eq fun i hi => ?_, hctl 17 (by decide) (by decide) (by decide)⟩
  rw [ctlCS, BitVec.getLsbD_extractLsb', hctl _ (by omega) (by omega) (by omega)]
  rcases (by omega : i = 0 ∨ i = 1) with rfl | rfl <;> simp [csBits]

theorem manualLow_of_setcs (h : ManualLow v) (hcs : ReadsSetcs b v cs sel) : ManualLow b.ctl := by
  have hread : ManualLow (ctlRead b) := h.congr_bits fun j hj => by
    rw [hcs j (by omega), csBits, if_neg (by omega), if_neg (by omega), if_neg (by omega)]
    rfl
  exact hread.congr fun j h8 h9 _ => by simp [ctlRead_bit, h8, h9]

/-- After SETCS in manual, active-low chip select the line of the index, where there is one, is asserted alone with `sel`, and none
without (R174, R175). -/
theorem csAsserted_of_setcs {i : Nat} (h : ManualLow v) (hcs : ReadsSetcs t.blk v cs sel) :
    csAsserted t i = true ↔ i < t.cfg.numCs ∧ i = cs.toNat ∧ sel = true := by
  obtain ⟨hm, hp⟩ := manualLow_of_setcs h hcs
  obtain ⟨hidx, hlvl⟩ := csFields_of_setcs hcs
  rw [csAsserted_manual_iff hm, hidx, hlvl, activeLevel, hp]
  simp

end

/-- Settles O32: the three steps are the write of SETCS, whose value was read without a FIFO-reset bit. -/
theorem setcsWritesIndexAndLevelOnly : Obligations.SetcsWritesIndexAndLevelOnly := by
  unfold Obligations.SetcsWritesIndexAndLevelOnly
  intro s hc h8 h9 hu
  obtain ⟨t, ht, hb, hends⟩ := engineStep_setcsWrite hc hu
  obtain ⟨hbits, hxch, hframe⟩ := setcsWritten (b := s.blk) (cs := s.e.cs) (sel := s.e.upc == .tBegW) h8 h9
  rw [← hb] at hbits hxch hframe
  exact ⟨t, ht, fun j _ hj => hbits j hj, hxch, hframe, hends⟩

/-- Settles O33: the value CLAIM writes has both bits set. -/
theorem claimEstablishesManualActiveLow : Obligations.ClaimEstablishesManualActiveLow := by
  unfold Obligations.ClaimEstablishesManualActiveLow
  intro s hr hag
  obtain ⟨c, hrun, -⟩ := exec_claim hr hag
  refine ⟨_, hrun, manualActiveLow_of_not_held ?_ rfl⟩
  rw [finish_blk, record_blk, ctlWrite_blk]
  exact (manualLow_claimValue _).ctlStored

/-- Settles O35: with no burst in flight the two TRANSFERs move no byte, and each is one SETCS. -/
theorem csAssertAndDeassertDriveTheLines : Obligations.CsAssertAndDeassertDriveTheLines := by
  unfold Obligations.CsAssertAndDeassertDriveTheLines
  intro c s hr hq hm
  have hread : ManualLow (ctlRead s.blk) := ManualLow.ctlRead hm.now
  obtain ⟨t, ht⟩ := selectRun_exists true false c hr hq
  obtain ⟨u, hu⟩ := selectRun_exists false true c hr hq
  refine ⟨⟨t, ht.run, ht.result, fun i => ?_⟩, ⟨u, hu.run, hu.result, fun i => ?_⟩⟩
  · rw [csAsserted_of_setcs (sel := true) hread ht.ctl, ht.cfg]
    simp
  · rw [Bool.eq_false_iff, ne_eq, csAsserted_of_setcs (sel := false) hread hu.ctl]
    simp

end Sys2Proof.Machine
end

section
/-! O44, O45, O46: when the shifter has a step (R205, R210), and what the byte times of a burst move (R206 to R209). -/

namespace Sys2Proof.Machine

section
variable {s t : State}

/-! ### The turn -/

/-- The four conditions of a turn (R205). -/
theorem shifterArmed_iff :
    shifterArmed s = true ↔ busy s.blk = true ∧ ctlEN s.blk.ctl = true ∧ ctlMASTER s.blk.ctl = true ∧ s.clkOn = true := by
  simp only [shifterArmed, busy, Bool.and_eq_true, and_assoc]

theorem shifterTurn_unarmed (h : shifterArmed s = false) : shifterTurn s = .next s := by
  simp [shifterTurn, h]

/-- The turns drawn are over at 0, and in mode `fair` also where none was drawn (R214). -/
theorem turnsLeft_over (h : s.env.burstDelay = some 0 ∨ s.cfg.timeoutMode = .fair ∧ s.env.burstDelay = none) :
    turnsLeft s = some 0 := by
  rcases h with h | ⟨hm, h⟩
  · rw [turnsLeft, h]
    cases s.cfg.timeoutMode <;> rfl
  · rw [turnsLeft, hm, h]

theorem burstDelay_of_turnsLeft {n : Nat} (h : turnsLeft s = some (n + 1)) : s.env.burstDelay = some (n + 1) := by
  unfold turnsLeft at h
  split at h
  · cases h
  · exact h

/-- Where the turns are over the burst is performed, or refused for its counts (R205). -/
theorem shifterTurn_over (ha : shifterArmed s = true) (h : turnsLeft s = some 0) :
    shifterTurn s = if s.blk.bc = s.blk.tc then .next (burst s) else .refused .burstCountMismatch := by
  simp only [shifterTurn, ha, h, if_true]

/-- A turn that answers a next state performs the burst, does nothing, or counts down. -/
theorem shifterTurn_next_cases (h : shifterTurn s = .next t) :
    (t = burst s ∧ s.blk.bc = s.blk.tc) ∨ t = s ∨
      ∃ n, s.env.burstDelay = some (n + 1) ∧ t = { s with env := { s.env with burstDelay := some n } } := by
  by_cases ha : shifterArmed s = true
  · cases hl : turnsLeft s with
    | none =>
      simp only [shifterTurn, ha, hl, if_true, Host.Outcome.next.injEq] at h
      exact .inr (.inl h.symm)
    | some d =>
      cases d with
      | zero =>
        rw [shifterTurn_over ha hl] at h
        split at h
        · next heq => cases h; exact .inl ⟨rfl, heq⟩
        · cases h
      | succ n =>
        simp only [shifterTurn, ha, hl, if_true, Host.Outcome.next.injEq] at h
        exact .inr (.inr ⟨n, burstDelay_of_turnsLeft hl, h.symm⟩)
  · rw [shifterTurn_unarmed (Bool.eq_false_iff.mpr ha)] at h
    cases h
    exact .inr (.inl rfl)

/-! ### One byte time -/

/-- The state after one byte time (R206). -/
def byteTime (s : State) : State := rxPush (drawSlave (txPop s).2).1 (drawSlave (txPop s).2).2

theorem byteTimes_succ (n : Nat) (s : State) : byteTimes (n + 1) s =
    ((txPop s).1 :: (byteTimes n (byteTime s)).1, (drawSlave (txPop s).2).1 :: (byteTimes n (byteTime s)).2.1,
      (byteTimes n (byteTime s)).2.2) := rfl

/-- A pop of the TX FIFO takes its head, or leaves it empty (R206, R208). -/
@[simp] theorem txPop_blk (s : State) : (txPop s).2.blk = { s.blk with txFifo := s.blk.txFifo.tail } := by
  unfold txPop
  split
  · next h => rw [h]; rfl
  · next h =>
    rw [drawByte_blk, h, List.tail_nil, ← h]

/-- A push on the RX FIFO appends where there is room (R206, R208). -/
theorem rxPush_blk (x : Byte) (s : State) :
    (rxPush x s).blk = { s.blk with rxFifo := s.blk.rxFifo ++ [x].take (64 - s.blk.rxFifo.length) } := by
  unfold rxPush
  split
  · next h =>
    rw [List.take_of_length_le (by rw [List.length_singleton]; exact Nat.sub_pos_of_lt h)]
  · next h =>
    have hfull : 64 - s.blk.rxFifo.length = 0 := Nat.sub_eq_zero_of_le (Nat.le_of_not_lt h)
    rw [hfull, List.take_zero, List.append_nil]

@[simp] theorem byteTime_txFifo (s : State) : (byteTime s).blk.txFifo = s.blk.txFifo.tail := by
  simp [byteTime, rxPush_blk]

theorem byteTime_rxFifo (s : State) :
    (byteTime s).blk.rxFifo = s.blk.rxFifo ++ [(drawSlave (txPop s).2).1].take (64 - s.blk.rxFifo.length) := by
  simp [byteTime, rxPush_blk]

/-! ### The byte times of a burst, whatever the FIFOs hold -/

theorem byteTimes_lengths (n : Nat) (s : State) : (byteTimes n s).1.length = n ∧ (byteTimes n s).2.1.length = n := by
  induction n generalizing s with
  | zero => exact ⟨rfl, rfl⟩
  | succ n ih =>
    obtain ⟨ho, hi⟩ := ih (byteTime s)
    rw [byteTimes_succ, List.length_cons, List.length_cons, ho, hi]
    exact ⟨rfl, rfl⟩

theorem byteTimes_txFifo (n : Nat) (s : State) : (byteTimes n s).2.2.blk.txFifo = s.blk.txFifo.drop n := by
  induction n generalizing s with
  | zero => rfl
  | succ n ih => rw [byteTimes_succ, ih, byteTime_txFifo, List.drop_tail]

/-- As long as the TX FIFO holds bytes, they are the out bytes, in order. -/
theorem byteTimes_outs (n : Nat) (s : State) :
    (byteTimes n s).1.take s.blk.txFifo.length = s.blk.txFifo.take n := by
  induction n generalizing s with
  | zero => exact List.take_nil
  | succ n ih =>
    have hrest := ih (byteTime s)
    rw [byteTime_txFifo] at hrest
    rw [byteTimes_succ]
    cases hf : s.blk.txFifo with
    | nil => rfl
    | cons b bs =>
      have hpop : (txPop s).1 = b := by rw [txPop, hf]
      rw [hf, List.tail_cons] at hrest
      rw [List.length_cons, List.take_succ_cons, List.take_succ_cons, hrest, hpop]

/-- The in bytes go to the RX FIFO until it is full; the bytes above its depth are lost. -/
theorem byteTimes_rxFifo (n : Nat) (s : State) (h : s.blk.rxFifo.length ≤ 64) :
    (byteTimes n s).2.2.blk.rxFifo = s.blk.rxFifo ++ (byteTimes n s).2.1.take (64 - s.blk.rxFifo.length) := by
  induction n generalizing s with
  | zero => rw [byteTimes, List.take_nil, List.append_nil]
  | succ n ih =>
    have hb := byteTime_rxFifo s
    rw [byteTimes_succ]
    rcases Nat.lt_or_eq_of_le h with hlt | heq
    · obtain ⟨d, hd⟩ := Nat.exists_eq_add_of_lt hlt
      rw [show 64 - s.blk.rxFifo.length = d + 1 by omega] at hb ⊢
      rw [List.take_succ_cons, List.take_nil] at hb
      have hlen : (byteTime s).blk.rxFifo.length = s.blk.rxFifo.length + 1 := by rw [hb, List.length_append]; rfl
      rw [ih _ (by omega), hlen, show 64 - (s.blk.rxFifo.length + 1) = d by omega, hb, List.take_succ_cons, List.append_assoc]
      rfl
    · rw [heq, Nat.sub_self, List.take_zero, List.append_nil] at hb ⊢
      rw [ih _ (by rw [hb]; exact h), hb, heq, Nat.sub_self, List.take_zero, List.append_nil]

/-! ### The burst -/

theorem busy_burst (s : State) : busy (burst s).blk = false := by
  rw [busy, ctlXCH, burst_ctl, clearXch_bit]
  exact Bool.and_false _

theorem burst_ctl_bit_ne (s : State) {j : Nat} (h : j ≠ 10) : (burst s).blk.ctl.getLsbD j = s.blk.ctl.getLsbD j := by
  rw [burst_ctl, clearXch_bit, beq_eq_false_iff_ne.mpr h, Bool.not_false, Bool.and_true]

/-- The state after a burst with the out bytes `outs`, the in bytes `ins` and the RX FIFO `rx` (R206, R209). -/
def burstState (s : State) (outs ins rx : List Byte) : State :=
  { s with blk := { s.blk with ctl := (burst s).blk.ctl, txFifo := s.blk.txFifo.drop s.blk.bc.toNat, rxFifo := rx },
           env := (burst s).env, history := .burst outs ins :: s.history }

/-- A burst, whatever the FIFOs hold (R208). -/
structure BurstMoves (s : State) (outs ins : List Byte) : Prop where
  outs_length : outs.length = s.blk.bc.toNat
  ins_length  : ins.length = s.blk.bc.toNat
  outs_take   : outs.take s.blk.txFifo.length = s.blk.txFifo.take s.blk.bc.toNat
  slave       : s.blk.bc.toNat ≤ s.env.slaveIn.length → ins = s.env.slaveIn.take s.blk.bc.toNat
  state       : burst s = burstState s outs ins (s.blk.rxFifo ++ ins.take (64 - s.blk.rxFifo.length))

theorem burstMoves (h : s.blk.rxFifo.length ≤ 64) : ∃ outs ins, BurstMoves s outs ins := by
  obtain ⟨ho, hi⟩ := byteTimes_lengths s.blk.bc.toNat s
  refine ⟨_, _, ho, hi, byteTimes_outs _ s, fun hs => (byteTimes_slave _ s hs).1, ?_⟩
  have htx := (burst_txFifo s).trans (byteTimes_txFifo _ s)
  have hrx := (burst_rxFifo s).trans (byteTimes_rxFifo _ s h)
  have heq := burst_eq s
  rw [htx, hrx, ← burst_ctl] at heq
  exact heq

/-- Enough bytes to send and enough room: the out bytes are the first of the TX FIFO, and no in byte is lost (R217). -/
theorem BurstMoves.filled {outs ins : List Byte} (h : BurstMoves s outs ins) (htx : s.blk.bc.toNat ≤ s.blk.txFifo.length)
    (hrx : s.blk.rxFifo.length + s.blk.bc.toNat ≤ 64) :
    burst s = burstState s (s.blk.txFifo.take s.blk.bc.toNat) ins (s.blk.rxFifo ++ ins) := by
  have houts : outs = s.blk.txFifo.take s.blk.bc.toNat := by
    rw [← h.outs_take, List.take_of_length_le (h.outs_length.trans_le htx)]
  have hins : ins.take (64 - s.blk.rxFifo.length) = ins := List.take_of_length_le (by rw [h.ins_length]; omega)
  rw [h.state, hins, houts]

end

/-- Settles O44, by whether the shifter is armed and whether its turns are over. -/
theorem whenTheShifterHasAStep : Obligations.WhenTheShifterHasAStep := by
  unfold Obligations.WhenTheShifterHasAStep
  intro s
  refine ⟨fun h => shifterTurn_unarmed (Bool.eq_false_iff.mpr fun ha => ?_), fun hb he hm hc hover => ?_,
    fun t => shifterTurn_next_cases, fun r h => ?_, fun r h => ?_⟩
  · obtain ⟨hb, he, hm, hc⟩ := shifterArmed_iff.mp ha
    simp [hb, he, hm, hc] at h
  · rw [shifterTurn_over (shifterArmed_iff.mpr ⟨hb, he, hm, hc⟩) (turnsLeft_over hover)]
    exact ⟨fun heq => if_pos heq, fun hne => if_neg hne⟩
  · rcases shifterTurn_cases s with h1 | ⟨n, h1, -⟩ | ⟨h1, -⟩ | ⟨h1, -⟩ <;> rw [h1] at h <;> cases h
  · rcases shifterTurn_cases s with h1 | ⟨n, h1, -⟩ | ⟨h1, -⟩ | ⟨h1, -, hne⟩ <;> rw [h1] at h <;> cases h
    exact ⟨rfl, hne⟩

/-- Settles O45: the burst of O46 from full enough FIFOs. -/
theorem aBurstMovesItsBytesAndClearsXch : Obligations.ABurstMovesItsBytesAndClearsXch := by
  unfold Obligations.ABurstMovesItsBytesAndClearsXch
  intro s htx hrx
  obtain ⟨outs, ins, h⟩ := burstMoves (s := s) (by omega)
  exact ⟨ins, h.ins_length, h.slave, busy_burst s, fun _ => burst_ctl_bit_ne s, h.filled htx hrx⟩

/-- Settles O46, by induction over the byte times. -/
theorem aBurstUnderflowsAndOverflows : Obligations.ABurstUnderflowsAndOverflows := by
  unfold Obligations.ABurstUnderflowsAndOverflows
  intro s hrx
  obtain ⟨outs, ins, h⟩ := burstMoves hrx
  exact ⟨outs, ins, h.outs_length, h.ins_length, h.outs_take, h.slave, busy_burst s, fun _ => burst_ctl_bit_ne s, h.state⟩

end Sys2Proof.Machine
end

section
/-! O47: one poll (R198), and when its deadline may expire (R213, R214). -/

namespace Sys2Proof.Machine

/-- In mode `fair` a deadline that has run down expires only while the shifter is not enabled (R214). -/
theorem shifterEnabled_of_deadlineExpired {s : State} (hm : s.cfg.timeoutMode = .fair) (h : deadlineExpired s = true) :
    shifterEnabled s = false := by
  simpa [deadlineExpired, hm] using (Bool.and_eq_true_iff.mp h).2

theorem shifterEnabled_iff {s : State} : shifterEnabled s = true ↔ shifterArmed s = true ∧ s.blk.bc = s.blk.tc := by
  rw [shifterEnabled, Bool.and_eq_true, beq_iff_eq]

/-- Settles O47: the two cases of a poll, and the deadline of mode `fair`. -/
theorem aPollReadsBeforeItConsultsTheDeadline : Obligations.APollReadsBeforeItConsultsTheDeadline := by
  unfold Obligations.APollReadsBeforeItConsultsTheDeadline
  intro s hc hu
  have hstep : engineStep s = stepTPoll s := by rw [engineStep, hu]
  rw [hstep]
  refine ⟨fun hb => ⟨_, poll_free hc hb, rfl, rfl, rfl⟩, fun hb => ⟨_, poll_busy hc hb, rfl, rfl⟩,
    fun hm hx ⟨hb, he, hma, heq⟩ => ?_⟩
  have hen : shifterEnabled s = true := shifterEnabled_iff.mpr ⟨shifterArmed_iff.mpr ⟨hb, he, hma, hc⟩, heq⟩
  rw [shifterEnabled_of_deadlineExpired hm hx] at hen
  cases hen

end Sys2Proof.Machine
end

section
/-! A TRANSFER run to its end (R191): from its acceptance through the prologue and the bursts to OK, or through the timeout path to
TimeoutError; and what the whole run leaves. -/

namespace Sys2Proof.Machine

section
variable {a m q : State} {ins : List Byte} {w ws : List Word}

/-! ### CTL as it reads, and CTL as it stands -/

/-- But for the two FIFO-reset bits CTL reads as it stands (R45). -/
theorem ctlRead_bit_ne {b : Block} {j : Nat} (h8 : j ≠ 8) (h9 : j ≠ 9) : (ctlRead b).getLsbD j = b.ctl.getLsbD j := by
  rw [ctlRead_bit, beq_eq_false_iff_ne.mpr h8, beq_eq_false_iff_ne.mpr h9, Bool.or_self, Bool.not_false, Bool.and_true]

theorem csBits_eq_none {cs : BitVec 2} {sel : Bool} {j : Nat} (h12 : j ≠ 12) (h13 : j ≠ 13) (h17 : j ≠ 17) :
    csBits cs sel j = none := by
  rw [csBits, if_neg h12, if_neg h13, if_neg h17]

/-- The prologue leaves EN and MASTER. -/
theorem Started0.enable (h : Started0 a m w) : ctlEN m.blk.ctl = ctlEN a.blk.ctl ∧ ctlMASTER m.blk.ctl = ctlMASTER a.blk.ctl := by
  have hbit : ∀ j, j < 8 → m.blk.ctl.getLsbD j = a.blk.ctl.getLsbD j := fun j hj => by
    have hr := h.ctl j (by omega)
    rwa [csBits_eq_none (by omega) (by omega) (by omega), Option.getD_none, ite_self, ctlRead_bit_ne (by omega) (by omega),
      ctlRead_bit_ne (by omega) (by omega)] at hr
  exact ⟨hbit 0 (by decide), hbit 1 (by decide)⟩

theorem Started0.rem (h : Started0 a m w) : m.e.rem = a.e.rem := by rw [h.e]

theorem Started0.still (h : Started0 a m w) (hs : Still a) : Still m :=
  hs.imp (fun hb => h.busy.trans hb) (fun he => h.enable.1.trans he)

/-! ### The bursts, counted from the end of the prologue -/

theorem enterLoop_of_bytes (h : m.e.rem ≠ 0) :
    enterLoop m = m.withEngine { m.e with chunk := min m.e.rem Config.chunkMax, k := 0, upc := .tBc } := by
  rw [enterLoop, if_neg h]

/-- With bytes to move the loop test goes to the head of the first burst. -/
theorem Started0.head (h : Started0 a m w) (hc : a.clkOn = true) (hs : Still a) (hrem : a.e.rem ≠ 0)
    (htx : a.e.txp = true → ∃ b, a.txBuf = some b ∧ a.e.ti + a.e.rem ≤ b.len)
    (hrx : a.e.rxp = true → ∃ b, a.rxBuf = some b ∧ a.e.ri + a.e.rem ≤ b.len) : Head (enterLoop m) := by
  have he : m.e = { a.e with v := m.e.v, upc := .tLoop } := h.e
  have hm : m.e.rem ≠ 0 := by rwa [h.rem]
  rw [enterLoop_of_bytes hm]
  refine ⟨h.same.clk.trans hc, h.still hs, rfl, rfl, ?_, rfl, ?_, ?_, fun hp => ?_, fun hp => ?_⟩
  · show 1 ≤ m.e.rem
    omega
  · show m.blk.txFifo = []
    rw [h.blk]
  · show m.blk.rxFifo = []
    rw [h.blk]
  · change m.e.txp = true at hp
    show ∃ b, m.txBuf = some b ∧ m.e.ti + m.e.rem ≤ b.len
    rw [he] at hp ⊢
    rw [h.same.tx]
    exact htx hp
  · change m.e.rxp = true at hp
    show ∃ b, m.rxBuf = some b ∧ m.e.ri + m.e.rem ≤ b.len
    rw [he] at hp ⊢
    rw [h.rxb]
    exact hrx hp

/-- What the bursts of a TRANSFER have done when all of them completed; `LoopOk` with the TRANSFER of no bytes, which has none. -/
structure Moved (m q : State) (ins : List Byte) : Prop where
  same   : Same m q
  rxb    : q.rxBuf = if m.e.rxp then m.rxBuf.map (fun b => writeAll b m.e.ri ins) else m.rxBuf
  blk    : q.blk = { m.blk with ctl := q.blk.ctl, bc := q.blk.bc, tc := q.blk.tc, txFifo := [], rxFifo := [] }
  none   : m.e.rem = 0 → q.blk.bc = m.blk.bc ∧ q.blk.tc = m.blk.tc
  counts : 1 ≤ m.e.rem → q.blk.bc = BitVec.ofNat 24 ((chunkSizes m.e.rem).getLastD 0) ∧ q.blk.tc = q.blk.bc
  ctl    : ctlSame m q
  quiet  : busy q.blk = false
  e      : q.e = { m.e with v := q.e.v, chunk := q.e.chunk, k := q.e.k, ti := m.e.ti + m.e.rem, ri := m.e.ri + m.e.rem, rem := 0,
                            upc := .tLoop }
  len    : ins.length = m.e.rem
  slave  : m.e.rem ≤ m.env.slaveIn.length → ins = m.env.slaveIn.take m.e.rem ∧ q.env.slaveIn = m.env.slaveIn.drop m.e.rem
  added  : ∃ ps : List Nat, ps.length = burstCount m.e.rem ∧ (∀ p ∈ ps, 1 ≤ p) ∧
    (∀ l, Scans m q { polling := false, counts := l } { polling := false, counts := ps.reverse ++ l }) ∧
    ∃ cs : List Word, cs.length = burstCount m.e.rem ∧ (∀ c ∈ cs, StartsFrom m c) ∧ Added m q
    { writes := m.e.rem + 3 * burstCount m.e.rem, reads := burstCount m.e.rem + ps.sum + m.e.rem, sent := fillBytes m m.e.rem,
      received := ins, sizes := chunkSizes m.e.rem, ctl := cs }

/-- The loop test before the first burst changes no more than the engine registers the bursts write anew. -/
theorem LoopOk.moved (hrem : m.e.rem ≠ 0) (h : LoopOk (enterLoop m) q ins) : Moved m q ins := by
  rw [enterLoop_of_bytes hrem] at h
  obtain ⟨⟨hcfg, hclk, hport, htx⟩, hrx, hblk, hctl, hquiet, he, hlen, hslave, hadded, -⟩ := h
  exact ⟨⟨hcfg, hclk, hport, htx⟩, hrx, by rw [hblk]; rfl, fun h0 => absurd h0 hrem, fun _ => by rw [hblk]; exact ⟨rfl, rfl⟩,
    hctl, hquiet, he, hlen, hslave, hadded⟩

theorem fillBytes_zero (s : State) : fillBytes s 0 = [] := by
  unfold fillBytes
  split
  · split <;> rfl
  · rfl

/-- A TRANSFER of no bytes moves none. -/
theorem Started0.moved_none (h : Started0 a m w) (hq : Quiet a) (hrem : m.e.rem = 0) : Moved m m [] where
  same := Same.refl m
  rxb := by
    split
    · cases m.rxBuf <;> rfl
    · rfl
  blk := by rw [h.blk]
  none _ := ⟨rfl, rfl⟩
  counts hpos := by omega
  ctl _ _ := rfl
  quiet := h.busy.trans hq
  e := by
    have hu : m.e.upc = .tLoop := by rw [h.e]
    rw [hrem, ← hu, Nat.add_zero, Nat.add_zero, ← hrem]
  len := hrem.symm
  slave _ := by rw [hrem]; exact ⟨rfl, rfl⟩
  added := by
    rw [hrem, fillBytes_zero]
    exact ⟨[], rfl, nofun, fun _ => .of [] rfl rfl, [], rfl, nofun, Added.refl m⟩

/-- What the loop did before a timeout, counted from the end of the prologue. -/
theorem LoopTo.ofEnterLoop (hrem : m.e.rem ≠ 0) (h : LoopTo (enterLoop m) q) : LoopTo m q := by
  rw [enterLoop_of_bytes hrem] at h
  obtain ⟨⟨hcfg, hclk, hport, htx⟩, hctl, hbusy, hex, hwhy⟩ := h
  exact ⟨⟨hcfg, hclk, hport, htx⟩, hctl, hbusy, hex, hwhy⟩

/-! ### The run -/

/-- The two runs of an accepted TRANSFER: `a` is the state after its acceptance, `m` the one after its prologue, `q` the one after its
last burst. -/
inductive TransferRun (a t : State) : Prop where
  | completed {m q : State} {ins : List Byte} {w ws : List Word} (start : Started0 a m w) (moved : Moved m q ins)
      (ended : EndOk q t ws)
      (armed : a.e.rem ≠ 0 → ctlEN a.blk.ctl = true ∧ ctlMASTER a.blk.ctl = true)
  | timedOut {m q : State} {w : List Word} (start : Started0 a m w) (cut : LoopTo m q) (ended : EndTo q t)

/-- The state after the acceptance of a TRANSFER (R191). -/
def accepted (b e tx rx : Bool) (cs : BitVec 2) (n : Nat) (s : State) : State :=
  s.withEngine (transferEngine s.e (encode (.transfer b e tx rx cs n)) b e tx rx cs n)

theorem runBursts_stop {n : Nat} {s : State} (h : s.e.upc ≠ .tBc) : runBursts n s = .next s := by
  cases n with
  | zero => rfl
  | succ n => rw [runBursts, if_neg h]

theorem LoopTo.countsAgree (h : LoopTo m q) : CountsAgree q ∧ q.e.upc = .tToR ∧ q.clkOn = m.clkOn := by
  obtain ⟨j, ins, -, -, -, hblk, he, -⟩ := h.ex
  exact ⟨fun _ => by rw [hblk], by rw [he], h.same.clk⟩

/-- From the end of the prologue, with no bytes to move: the last steps alone. -/
theorem Started0.run_none (start : Started0 a m w) (hc : a.clkOn = true) (hq : Quiet a) (hrem : a.e.rem = 0) :
    ∃ t, andThen (runBursts (enterLoop m).e.rem (enterLoop m)) (runWhile running 2) = .next t ∧ TransferRun a t := by
  have hm : m.e.rem = 0 := start.rem.trans hrem
  obtain ⟨t, ws, ht, hend⟩ := run_end (start.same.clk.trans hc) (start.busy.trans hq) hm
  refine ⟨t, ?_, .completed start (start.moved_none hq hm) hend fun h => absurd hrem h⟩
  rw [runBursts_stop, andThen_next, ht]
  rw [(enterLoop_leaves m).e, loopEngine, if_pos hm]
  split <;> exact nofun

/-- From the end of the prologue, with bytes to move: the bursts, then the last steps or the timeout path. -/
theorem Started0.run_bytes (start : Started0 a m w) (hc : a.clkOn = true) (hs : Still a) (hrem : a.e.rem ≠ 0)
    (htx : a.e.txp = true → ∃ b, a.txBuf = some b ∧ a.e.ti + a.e.rem ≤ b.len)
    (hrx : a.e.rxp = true → ∃ b, a.rxBuf = some b ∧ a.e.ri + a.e.rem ≤ b.len) :
    ∃ t, andThen (runBursts (enterLoop m).e.rem (enterLoop m)) (runWhile running 2) = .next t ∧ TransferRun a t := by
  have hm : m.e.rem ≠ 0 := by rwa [start.rem]
  have hclk : m.clkOn = true := start.same.clk.trans hc
  obtain ⟨u, hu, ⟨q, ins, rfl, hok⟩ | hto⟩ := run_bursts _ (enterLoop m) (start.head hc hs hrem htx hrx) (Nat.le_refl _)
  · have hmoved := hok.moved hm
    obtain ⟨t, ws, ht, hend⟩ := run_end (hmoved.same.clk.trans hclk) hmoved.quiet (by rw [hmoved.e])
    obtain ⟨hen, hma⟩ := hok.armed
    rw [enterLoop_of_bytes hm] at hen hma
    rw [hu]
    exact ⟨t, ht, .completed start hmoved hend fun _ => ⟨start.enable.1.symm.trans hen, start.enable.2.symm.trans hma⟩⟩
  · have hcut := hto.ofEnterLoop hm
    obtain ⟨hag, hupc, hqc⟩ := hcut.countsAgree
    obtain ⟨t, ht, hend⟩ := run_timeout (hqc.trans hclk) hag hupc
    rw [hu]
    exact ⟨t, ht, .timedOut start hcut hend⟩

/-- Every TRANSFER accepted with no burst in flight, or of at least one byte with EN = 0, runs to its end (R215). -/
theorem transfer_runs {b e tx rx : Bool} {cs : BitVec 2} {n : Nat} {s : State} (ha : Accepts s tx rx n)
    (hs : Quiet s ∨ (ctlEN s.blk.ctl = false ∧ n / 8 ≠ 0)) :
    ∃ t, exec (.transfer b e tx rx cs n) s = .next t ∧ TransferRun (accepted b e tx rx cs n s) t := by
  have hstill : Still s := hs.imp id And.left
  obtain ⟨m, w, start, hrun⟩ := exec_start (b := b) (e := e) (cs := cs) ha hstill
  rw [hrun]
  by_cases h0 : n / 8 = 0
  · exact start.run_none ha.ready.clk (hs.resolve_right fun h => h.2 h0) h0
  · refine start.run_bytes ha.ready.clk hstill h0 (fun hp => ?_) (fun hp => ?_)
    · obtain ⟨x, hx, hlen⟩ := ha.tx hp
      exact ⟨x, hx, (Nat.zero_add _).trans_le hlen⟩
    · obtain ⟨x, hx, hlen, -⟩ := ha.rx hp
      exact ⟨x, hx, (Nat.zero_add _).trans_le hlen⟩

end

end Sys2Proof.Machine
end

section
/-! O50: a TRANSFER of no whole number of bytes (R192). -/

namespace Sys2Proof.Machine

/-- Settles O50: the rejected acceptance leaves the engine IDLE, where none of the runs of a TRANSFER has a step. -/
theorem aMisalignedTransferChangesNothing : Obligations.AMisalignedTransferChangesNothing := by
  unfold Obligations.AMisalignedTransferChangesNothing
  intro b e tx rx cs n s hu hn
  have hmis : byteAligned n = false := beq_eq_false_iff_ne.mpr hn
  rw [exec, execTransfer, acceptTransfer_misaligned hu hmis, andThen_next, runWhile_stop (by rw [rejectAtAcceptance_e, hu]; rfl),
    andThen_next, runBursts_stop (by rw [rejectAtAcceptance_e, hu]; exact nofun), andThen_next,
    runWhile_stop (by rw [rejectAtAcceptance_e, hu]; rfl)]
  rfl

end Sys2Proof.Machine
end

section
/-! What a TRANSFER run to its end leaves: its frame, CTL (R170, R191), the receive buffer (R200, R82), and its history (R64). -/

namespace Sys2Proof.Machine

section
variable {a m q t : State} {ins : List Byte} {w ws : List Word}

/-! ### The frame of a piece of the run -/

/-- From `s` to `t` a TRANSFER wrote no register but CTL, BC and TC, and no engine register but its own. -/
structure Ran (s t : State) : Prop where
  same : Same s t
  blk  : t.blk = { s.blk with ctl := t.blk.ctl, bc := t.blk.bc, tc := t.blk.tc, txFifo := t.blk.txFifo, rxFifo := t.blk.rxFifo }
  e    : t.e = { s.e with rem := t.e.rem, chunk := t.e.chunk, k := t.e.k, ti := t.e.ti, ri := t.e.ri, v := t.e.v, upc := t.e.upc }

theorem Ran.trans (h : Ran a m) (g : Ran m q) : Ran a q := ⟨h.same.trans g.same, by rw [g.blk, h.blk], by rw [g.e, h.e]⟩

theorem Started0.ran (h : Started0 a m w) : Ran a m := ⟨h.same, by rw [h.blk], by rw [h.e]⟩

theorem Moved.ran (h : Moved m q ins) : Ran m q := ⟨h.same, by rw [h.blk], by rw [h.e]⟩

theorem EndOk.ran (h : EndOk q t ws) : Ran q t := ⟨h.same, by rw [h.blk], by rw [h.e]⟩

theorem LoopTo.ran (h : LoopTo m q) : Ran m q := by
  obtain ⟨j, ins, -, -, -, hblk, he, -⟩ := h.ex
  exact ⟨h.same, by rw [hblk], by rw [he]⟩

theorem EndTo.ran (h : EndTo q t) : Ran q t := ⟨h.same, by rw [h.regs], by rw [h.e]⟩

/-- The frame of a TRANSFER, from that of its run after the acceptance. -/
theorem Ran.transferFrame {b e tx rx : Bool} {cs : BitVec 2} {n : Nat} {s : State} (h : Ran (accepted b e tx rx cs n s) t)
    (hu : t.e.upc = .idle) : TransferFrame s t (encode (.transfer b e tx rx cs n)) b e tx rx cs where
  cfg := h.same.cfg
  clkOn := h.same.clk
  port := h.same.port
  txBuf := h.same.tx
  cctl := by rw [h.blk]; rfl
  unused := by rw [h.blk]; exact ⟨rfl, rfl, rfl, rfl⟩
  engine := by rw [← hu]; exact h.e

/-- The frame and the two results of a run. -/
theorem TransferRun.ends (h : TransferRun a t) : Ran a t ∧ t.e.upc = .idle ∧
    (lastResult t.history = some .ok ∨ lastResult t.history = some .timeoutError ∧ a.e.rem ≠ 0) := by
  cases h with
  | completed start moved ended => exact ⟨(start.ran.trans moved.ran).trans ended.ran, by rw [ended.e], .inl ended.res⟩
  | timedOut start cut ended =>
    refine ⟨(start.ran.trans cut.ran).trans ended.ran, by rw [ended.e], .inr ⟨ended.res, ?_⟩⟩
    obtain ⟨j, ins, -, hj, -⟩ := cut.ex
    rw [start.e] at hj
    exact Nat.ne_zero_of_lt hj

/-! ### CTL -/

/-- A deassertion at the end leaves its own bits, whatever the prologue set (R170). -/
theorem csBits_false_getD_prologue (cs : BitVec 2) (beginF : Bool) (j : Nat) (x : Bool) :
    (csBits cs false j).getD (if beginF then (csBits cs true j).getD x else x) = (csBits cs false j).getD x := by
  cases beginF
  · rfl
  · exact csBits_getD_csBits j x

theorem Started0.cs_endF (h : Started0 a m w) (g : Ran m q) : q.e.cs = a.e.cs ∧ q.e.endF = a.e.endF := by
  rw [g.e, h.e]
  exact ⟨rfl, rfl⟩

/-- CTL after a TRANSFER that ended OK. -/
theorem completed_ctl (start : Started0 a m w) (moved : Moved m q ins) (ended : EndOk q t ws) :
    ∀ j, j ≠ 10 → (ctlRead t.blk).getLsbD j = (transferBits a.e.cs a.e.beginF a.e.endF j).getD ((ctlRead a.blk).getLsbD j) := by
  intro j hj
  obtain ⟨hcs, hend⟩ := start.cs_endF moved.ran
  rw [ended.ctl j hj, moved.ctl j hj, start.ctl j hj, hcs, hend, transferBits]
  cases a.e.endF
  · cases a.e.beginF <;> rfl
  · exact csBits_false_getD_prologue _ _ _ _

/-- CTL after a TRANSFER that timed out (R199). -/
theorem timedOut_ctl (start : Started0 a m w) (cut : LoopTo m q) (ended : EndTo q t) :
    ∀ j, j ≠ 10 → (ctlRead t.blk).getLsbD j = (csBits a.e.cs false j).getD ((ctlRead a.blk).getLsbD j) := by
  intro j hj
  obtain ⟨hcs, -⟩ := start.cs_endF cut.ran
  rw [ended.ctl j hj, cut.ctl j hj, start.ctl j hj, hcs]
  exact csBits_false_getD_prologue _ _ _ _

/-! ### The FIFOs -/

/-- The drains leave both FIFOs empty, and the end of the TRANSFER does (R217). -/
theorem completed_fifos (moved : Moved m q ins) (ended : EndOk q t ws) : t.blk.txFifo = [] ∧ t.blk.rxFifo = [] := by
  rw [ended.blk, moved.blk]
  exact ⟨rfl, rfl⟩

/-! ### The receive buffer -/

/-- What a run of stores from index `i` on leaves at index `j`. -/
theorem read_writeAll (xs : List Byte) : ∀ {b : Buffer} (i : Nat), b.wf = true → ∀ j,
    (writeAll b i xs).read j = if i ≤ j ∧ j < i + xs.length then xs.getD (j - i) 0x00#8 else b.read j := by
  induction xs with
  | nil =>
    intro b i _ j
    rw [if_neg (by simp)]
    rfl
  | cons x xs ih =>
    intro b i hb j
    have hone : (b.write i x).read j = if i = j then x else b.read j := read_write i x hb j
    rw [writeAll, ih (i + 1) (bufferWrite_keeps_wf i x hb) j, hone, List.length_cons]
    rcases Nat.lt_trichotomy j i with hlt | rfl | hgt
    · rw [if_neg (by omega), if_neg (by omega), if_neg (by omega)]
    · rw [if_neg (by omega), if_pos rfl, if_pos (by omega), Nat.sub_self, List.getD_cons_zero]
    · obtain ⟨d, rfl⟩ := Nat.exists_eq_add_of_lt hgt
      rw [if_neg (Nat.ne_of_lt hgt), show i + d + 1 - (i + 1) = d by omega, show i + d + 1 - i = d + 1 by omega,
        List.getD_cons_succ]
      exact if_congr (by omega) rfl rfl

theorem stored_writeAll {b : Buffer} (hb : b.wf = true) (xs : List Byte) : Stored b (writeAll b 0 xs) xs where
  len := writeAll_len xs b 0
  stored i hi := by rw [read_writeAll xs 0 hb, if_pos (by omega), Nat.sub_zero]
  rest i hi := by rw [read_writeAll xs 0 hb, if_neg (by omega)]

/-- The in bytes are delivered where RXP is set (R200). -/
theorem delivered_of_writeAll {rx : Bool} {s : State} (hrx : rx = true → ∃ b, s.rxBuf = some b ∧ b.wf = true)
    (h : t.rxBuf = if rx then s.rxBuf.map (fun b => writeAll b 0 ins) else s.rxBuf) : Delivered rx s t ins := by
  unfold Delivered
  cases rx with
  | false => exact h
  | true =>
    obtain ⟨b, hb, hwf⟩ := hrx rfl
    rw [hb] at h
    exact ⟨b, writeAll b 0 ins, hb, h, stored_writeAll hwf ins⟩

theorem map_writeAll_nil (buf : Option Buffer) (i : Nat) : buf.map (fun b => writeAll b i []) = buf := by
  cases buf <;> rfl

theorem completed_rxBuf (start : Started0 a m w) (moved : Moved m q ins) (ended : EndOk q t ws) :
    t.rxBuf = if a.e.rxp then a.rxBuf.map (fun b => writeAll b a.e.ri ins) else a.rxBuf := by
  rw [ended.rxb, moved.rxb, start.rxb, start.e]

/-! ### The engine registers the bursts count with -/

theorem Started0.fillBytes (h : Started0 a m w) (n : Nat) : fillBytes m n = Machine.fillBytes a n := by
  unfold Machine.fillBytes
  rw [h.e, h.same.tx]

theorem Started0.fillFrom (h : Started0 a m w) (i n : Nat) : fillFrom m i n = Machine.fillFrom a i n := by
  unfold Machine.fillFrom
  rw [h.e, h.same.tx]

/-! ### The sizes of the bursts (R216) -/

theorem chunkSizes_length (n : Nat) : (chunkSizes n).length = burstCount n := by
  unfold chunkSizes burstCount
  rw [List.length_append, List.length_replicate]
  split
  · rw [List.length_nil]
    omega
  · rw [List.length_singleton]
    omega

theorem chunkSizes_sum (n : Nat) : (chunkSizes n).sum = n := by
  unfold chunkSizes
  rw [List.sum_append, List.sum_replicate, smul_eq_mul]
  split
  · rw [List.sum_nil]
    omega
  · rw [List.sum_singleton]
    omega

theorem chunkSizes_getLastD_le (n : Nat) : (chunkSizes n).getLastD 0 ≤ 63 := by
  have hle : ∀ k ∈ chunkSizes n, k ≤ 63 := by
    intro k hk
    unfold chunkSizes at hk
    rcases List.mem_append.mp hk with h | h
    · exact (List.eq_of_mem_replicate h).le
    · split at h
      · cases h
      · rw [List.mem_singleton.mp h]
        omega
  rw [List.getLastD_eq_getLast?]
  cases h : (chunkSizes n).getLast? with
  | none => exact Nat.zero_le _
  | some k => exact hle k (List.mem_of_getLast? h)

theorem toNat_ofNat_chunk {n : Nat} (h : n ≤ 63) : (BitVec.ofNat 24 n).toNat = n := by
  rw [BitVec.toNat_ofNat, Nat.mod_eq_of_lt (by omega)]

/-! ### The values written to CTL (R178, R219) -/

theorem csState_congr {v v' : Word} (h : ∀ j, j = 12 ∨ j = 13 ∨ j = 17 → v.getLsbD j = v'.getLsbD j) : csState v = csState v' := by
  have hcs : ctlCS v = ctlCS v' := BitVec.eq_of_getLsbD_eq fun i hi => by
    rw [ctlCS, ctlCS, BitVec.getLsbD_extractLsb', BitVec.getLsbD_extractLsb', h (12 + i) (by omega)]
  exact Prod.ext hcs (h 17 (.inr (.inr rfl)))

/-- What the prologue leaves of chip select: the assertion with BEGIN, and nothing new without (R191). -/
theorem Started0.csState (h : Started0 a m w) :
    Machine.csState (ctlRead m.blk) = if a.e.beginF then (a.e.cs, false) else Machine.csState a.blk.ctl := by
  split
  · next hb =>
    have hset : Machine.csState (ctlRead m.blk) = Machine.csState (setcsValue (ctlRead a.blk) a.e.cs true) :=
      csState_congr fun j hj => by rw [h.ctl j (by omega), if_pos hb, setcs_bits]
    rw [hset, csState_setcs]
    rfl
  · next hb =>
    exact csState_congr fun j hj => by rw [h.ctl j (by omega), if_neg hb, ctlRead_bit_ne (by omega) (by omega)]

/-- The values a TRANSFER that ended OK wrote to CTL: one assertion with BEGIN, the FIFO reset, one start a burst, one deassertion
with END. -/
structure CtlTrace (a : State) (vs : List Word) (w1 w2 w3 : Word) (starts : List Word) : Prop where
  writes   : vs = (if a.e.beginF then [w1] else []) ++ (w2 :: starts) ++ (if a.e.endF then [w3] else [])
  bursts   : starts.length = burstCount a.e.rem
  asserts  : csState w1 = (a.e.cs, false)
  releases : csState w3 = (a.e.cs, true)
  resets   : w2.getLsbD 8 = true ∧ w2.getLsbD 9 = true ∧ w2.getLsbD 10 = false
  begins   : ∀ v ∈ starts, v.getLsbD 8 = false ∧ v.getLsbD 9 = false ∧ v.getLsbD 10 = true
  level    : ∀ v ∈ w2 :: starts, csState v = if a.e.beginF then (a.e.cs, false) else csState a.blk.ctl

theorem ctlTrace {starts : List Word} (start : Started0 a m w) (moved : Moved m q ins) (ended : EndOk q t ws) (hq : Quiet a)
    (hlen : starts.length = burstCount a.e.rem) (hs : ∀ v ∈ starts, StartsFrom m v) :
    ∃ w1 w2 w3, CtlTrace a (w ++ starts ++ ws) w1 w2 w3 starts := by
  obtain ⟨w1, w2, rfl, hw1, h8, h9, h10, hw2⟩ := start.writes
  obtain ⟨w3, rfl, hw3⟩ := ended.writes
  obtain ⟨hcs, hend⟩ := start.cs_endF moved.ran
  refine ⟨w1, w2, w3, ?_, hlen, hw1, by rw [hw3, hcs], ⟨h8, h9, h10.trans hq⟩, fun v hv => ?_, fun v hv => ?_⟩
  · rw [hend, List.append_assoc _ [w2], List.singleton_append]
  · obtain ⟨hx, hbits⟩ := hs v hv
    rw [hbits 8 (by decide), hbits 9 (by decide), ctlRead_bit, ctlRead_bit]
    exact ⟨Bool.and_false _, Bool.and_false _, hx⟩
  · rw [← start.csState]
    refine csState_congr fun j hj => ?_
    rcases List.mem_cons.mp hv with rfl | hv
    · exact hw2 j (by omega) (by omega) (by omega)
    · exact (hs v hv).2 j (by omega)

/-! ### The history -/

/-- What the piece `ev` of history, added by a TRANSFER that ended OK, holds (R216 to R219). -/
structure CompletedTrace (a : State) (ins : List Byte) (ev : List Event) : Prop where
  sent     : sentBytes ev = fillBytes a a.e.rem
  received : receivedBytes ev = ins
  sizes    : burstSizes ev = chunkSizes a.e.rem
  polled   : (pollCounts ev).length = burstCount a.e.rem
  once     : ∀ p ∈ pollCounts ev, 1 ≤ p
  writes   : writeCount ev = a.e.beginF.toNat + a.e.endF.toNat + 1 + 3 * burstCount a.e.rem + a.e.rem
  reads    : readCount ev =
    a.e.beginF.toNat + a.e.endF.toNat + 1 + burstCount a.e.rem + (pollCounts ev).sum + a.e.rem
  ctl      : ∃ w1 w2 w3 starts, CtlTrace a (ctlWrites ev) w1 w2 w3 starts

theorem pollCounts_of_scan {ev : List Event} {ps : List Nat}
    (h : ev.foldr pollEvent { polling := false, counts := [] } = { polling := false, counts := ps.reverse }) : pollCounts ev = ps := by
  rw [pollCounts, h, List.reverse_reverse]

theorem completedTrace (start : Started0 a m w) (moved : Moved m q ins) (ended : EndOk q t ws) (hq : Quiet a) :
    ∃ ev, t.history = ev ++ a.history ∧ CompletedTrace a ins ev := by
  obtain ⟨ps, hps, hp1, hscan, starts, hstarts, hfrom, hadd⟩ := moved.added
  obtain ⟨-, hend⟩ := start.cs_endF moved.ran
  rw [start.rem] at hps hstarts hadd
  rw [start.fillBytes] at hadd
  have hscans : Scans a t { polling := false, counts := [] } { polling := false, counts := ps.reverse ++ [] } :=
    ((start.scan hq []).trans (hscan [])).trans (ended.scan _)
  obtain ⟨ev, hev, htally, hfold⟩ := ((start.added.trans hadd).trans ended.added).withScan hscans
  simp only [tally, Tally.join, Tally.mk.injEq, List.nil_append, List.append_nil] at htally hfold
  obtain ⟨hwrites, hreads, hsent, hreceived, hsizes, hctl⟩ := htally
  have hpolls : pollCounts ev = ps := pollCounts_of_scan hfold
  refine ⟨ev, hev, hsent, hreceived, hsizes, by rw [hpolls, hps], by rwa [hpolls], ?_, ?_, ?_⟩
  · rw [hwrites, hend]
    omega
  · rw [hreads, hend, hpolls]
    omega
  · obtain ⟨w1, w2, w3, h⟩ := ctlTrace start moved ended hq hstarts hfrom
    exact ⟨w1, w2, w3, starts, hctl ▸ h⟩

end

end Sys2Proof.Machine
end

section
/-! What a TRANSFER that times out leaves (R199, R220): the bursts before burst `j` done, burst `j` started. -/

namespace Sys2Proof.Machine

section
variable {a m q t : State} {ins : List Byte} {w : List Word} {j : Nat}

/-- The bytes of burst `j` of a transfer of `n` bytes (R194). -/
def burstBytes (n j : Nat) : Nat := min (n - 63 * j) 63

/-- The bursts before burst `j` were performed with the in bytes `ins`, and burst `j` was cut off; `LoopTo`, counted from the
acceptance. -/
structure CutOff (a q : State) (j : Nat) (ins : List Byte) : Prop where
  inside : 63 * j < a.e.rem
  len    : ins.length = 63 * j
  rxb    : q.rxBuf = if a.e.rxp then a.rxBuf.map (fun b => writeAll b a.e.ri ins) else a.rxBuf
  bc     : q.blk.bc = BitVec.ofNat 24 (burstBytes a.e.rem j)
  tc     : q.blk.tc = q.blk.bc
  txFifo : q.blk.txFifo = fillFrom a (63 * j) (burstBytes a.e.rem j)
  rxFifo : q.blk.rxFifo = []
  busy   : busy q.blk = true
  ti     : q.e.ti = a.e.ti + 63 * j + burstBytes a.e.rem j
  ri     : q.e.ri = a.e.ri + 63 * j
  armed  : 1 ≤ j → ctlEN a.blk.ctl = true
  trace  : ∃ ev, q.history = ev ++ a.history ∧ sentBytes ev = fillBytes a (63 * j) ∧ receivedBytes ev = ins ∧
    burstSizes ev = List.replicate j 63

theorem cutOff_exists (start : Started0 a m w) (cut : LoopTo m q) : ∃ j ins, CutOff a q j ins := by
  obtain ⟨j, ins, hlen, hj, hrx, hblk, he, harmed, ps, -, -, cs, -, -, hadd⟩ := cut.ex
  rw [start.rem] at hj hblk he
  rw [start.fillFrom] at hblk
  rw [start.fillBytes] at hadd
  obtain ⟨ev, hev, htally⟩ := start.added.trans hadd
  simp only [tally, Tally.join, Tally.mk.injEq, List.nil_append] at htally
  obtain ⟨-, -, hsent, hreceived, hsizes, -⟩ := htally
  refine ⟨j, ins, hj, hlen, ?_, by rw [hblk]; rfl, by rw [hblk], by rw [hblk]; rfl, by rw [hblk], cut.busy, ?_, ?_,
    fun h => start.enable.1.symm.trans (harmed h).1, ev, hev, hsent, hreceived, hsizes⟩
  · rw [hrx, start.rxb, start.e]
  · rw [he, start.e]
    rfl
  · rw [he, start.e]

theorem CutOff.bc_toNat (h : CutOff a q j ins) : q.blk.bc.toNat = burstBytes a.e.rem j :=
  (congrArg BitVec.toNat h.bc).trans (toNat_ofNat_chunk (Nat.min_le_right _ _))

theorem LoopTo.enable (h : LoopTo m q) : ctlEN q.blk.ctl = ctlEN m.blk.ctl := by
  have hr := h.ctl 0 (by decide)
  rwa [ctlRead_bit_ne (by decide) (by decide), ctlRead_bit_ne (by decide) (by decide)] at hr

/-- What the timeout path adds: nothing but its accesses and its result, with burst `j` still in flight; or the shifter has performed
burst `j` beside it (R211). -/
inductive CutEnd (q t : State) (tail : List Event) : Prop where
  | inFlight (sizes : burstSizes tail = []) (busy : busy q.blk = true → busy t.blk = true) (txFifo : t.blk.txFifo = q.blk.txFifo)
      (rxFifo : t.blk.rxFifo = q.blk.rxFifo)
  | performed (sizes : (burstSizes tail).length = 1)

theorem EndTo.cutEnd (h : EndTo q t) : ∃ tail, t.history = tail ++ q.history ∧ CutEnd q t tail := by
  rcases h.hist with ⟨tail, hh, hs, -, -, hb, htx, hrx⟩ | ⟨tail, hh, hs⟩
  · exact ⟨tail, hh, .inFlight hs hb htx hrx⟩
  · exact ⟨tail, hh, .performed hs⟩

theorem burstSizes_append (l r : List Event) : burstSizes (l ++ r) = burstSizes r ++ burstSizes l :=
  congrArg Tally.sizes (tally_append l r)

theorem sentBytes_append (l r : List Event) : sentBytes (l ++ r) = sentBytes r ++ sentBytes l :=
  congrArg Tally.sent (tally_append l r)

theorem receivedBytes_append (l r : List Event) : receivedBytes (l ++ r) = receivedBytes r ++ receivedBytes l :=
  congrArg Tally.received (tally_append l r)

/-- What the history `ev` of a TRANSFER that timed out in burst `j` holds, `tail` being that of the timeout path (R220). -/
structure CutTrace (a q t : State) (j : Nat) (ins : List Byte) (ev tail : List Event) : Prop where
  history  : t.history = ev ++ a.history
  sizes    : burstSizes ev = List.replicate j 63 ++ burstSizes tail
  sent     : sentBytes ev = fillBytes a (63 * j) ++ sentBytes tail
  received : receivedBytes ev = ins ++ receivedBytes tail
  ended    : CutEnd q t tail

theorem CutOff.traced (h : CutOff a q j ins) (ended : EndTo q t) : ∃ ev tail, CutTrace a q t j ins ev tail := by
  obtain ⟨ev, hev, hsent, hreceived, hsizes⟩ := h.trace
  obtain ⟨tail, htail, hend⟩ := ended.cutEnd
  refine ⟨tail ++ ev, tail, by rw [htail, hev, List.append_assoc], ?_, ?_, ?_, hend⟩
  · rw [burstSizes_append, hsizes]
  · rw [sentBytes_append, hsent]
  · rw [receivedBytes_append, hreceived]

/-- The bursts performed: `j`, and burst `j` itself where the timeout path found it performed. -/
theorem CutTrace.burstCount {ev tail : List Event} (h : CutTrace a q t j ins ev tail) :
    (burstSizes ev).length = j + (burstSizes tail).length ∧ (burstSizes tail).length ≤ 1 := by
  refine ⟨by rw [h.sizes, List.length_append, List.length_replicate], ?_⟩
  cases h.ended with
  | inFlight sizes => rw [sizes]; exact Nat.zero_le 1
  | performed sizes => exact sizes.le

end

end Sys2Proof.Machine
end

section
/-! O52 to O60: the statements about a whole TRANSFER, from its two runs. -/

namespace Sys2Proof.Machine

section
variable {b e tx rx : Bool} {cs : BitVec 2} {n : Nat} {s t : State}

/-! ### The two runs, seen from the state at acceptance -/

/-- A TRANSFER accepted with no burst in flight that answers `t` ran to `t`. -/
theorem transferRun_of_exec (ha : Accepts s tx rx n) (hq : Quiet s) (h : exec (.transfer b e tx rx cs n) s = .next t) :
    TransferRun (accepted b e tx rx cs n s) t := by
  obtain ⟨t', ht', hrun⟩ := transfer_runs (b := b) (e := e) (cs := cs) ha (.inl hq)
  rw [h] at ht'
  cases ht'
  exact hrun

/-- The run of a TRANSFER that ended OK. -/
theorem TransferRun.of_ok {a : State} (h : TransferRun a t) (hres : lastResult t.history = some .ok) :
    ∃ m q ins w ws, Started0 a m w ∧ Moved m q ins ∧ EndOk q t ws := by
  cases h with
  | completed start moved ended => exact ⟨_, _, _, _, _, start, moved, ended⟩
  | timedOut _ _ ended => rw [ended.res] at hres; cases hres

/-- The run of a TRANSFER that timed out. -/
theorem TransferRun.of_timeout {a : State} (h : TransferRun a t) (hres : lastResult t.history = some .timeoutError) :
    ∃ m q w, Started0 a m w ∧ LoopTo m q ∧ EndTo q t := by
  cases h with
  | completed _ _ ended => rw [ended.res] at hres; cases hres
  | timedOut start cut ended => exact ⟨_, _, _, start, cut, ended⟩

/-- The history a TRANSFER that ended OK added. -/
theorem completedTrace_of_exec (ha : Accepts s tx rx n) (hq : Quiet s) (h : exec (.transfer b e tx rx cs n) s = .next t)
    (hres : lastResult t.history = some .ok) :
    ∃ ins ev, t.history = ev ++ s.history ∧ CompletedTrace (accepted b e tx rx cs n s) ins ev := by
  obtain ⟨m, q, ins, w, ws, start, moved, ended⟩ := (transferRun_of_exec ha hq h).of_ok hres
  exact ⟨ins, completedTrace start moved ended hq⟩

/-- The bytes a TRANSFER sends are the fills of the engine it set up (R196), as many as asked for. -/
theorem dataOut_length (ha : Accepts s tx rx n) (k : Nat) : (dataOut tx s.txBuf k).length = k :=
  fillBytes_length (s := accepted true true tx rx 0 n s) k fun hp => (ha.tx hp).imp fun _ => And.left

/-- The in bytes of a run are delivered to the lent receive buffer. -/
theorem delivered_accepted {ins : List Byte} (ha : Accepts s tx rx n)
    (h : t.rxBuf = if rx then s.rxBuf.map (fun x => writeAll x 0 ins) else s.rxBuf) : Delivered rx s t ins :=
  delivered_of_writeAll (fun hp => (ha.rx hp).imp fun _ hx => ⟨hx.1, hx.2.2⟩) h

end

/-- Settles O53, from the two runs. -/
theorem everyTransferFinishes : Obligations.EveryTransferFinishes := by
  unfold Obligations.EveryTransferFinishes
  intro b e tx rx cs n s ha hq
  obtain ⟨t, ht, hrun⟩ := transfer_runs (b := b) (e := e) (cs := cs) ha (.inl hq)
  obtain ⟨hran, hidle, hres⟩ := hrun.ends
  exact ⟨t, ht, hran.transferFrame hidle, hres.imp id fun h => ⟨h.1, Nat.one_le_iff_ne_zero.mpr h.2⟩⟩

/-- Settles O54: the history, the receive buffer, the FIFOs and CTL of a run that ended OK. -/
theorem aTransferMovesEveryByteInOrder : Obligations.ATransferMovesEveryByteInOrder := by
  unfold Obligations.ATransferMovesEveryByteInOrder
  intro b e tx rx cs n s t ha hq hrun hres
  obtain ⟨m, q, ins, w, ws, start, moved, ended⟩ := (transferRun_of_exec ha hq hrun).of_ok hres
  obtain ⟨ev, hev, htrace⟩ := completedTrace start moved ended hq
  have hrem : m.e.rem = n / 8 := start.rem
  have hctl := completed_ctl start moved ended
  obtain ⟨htx, hrx⟩ := completed_fifos moved ended
  have hslave := moved.slave
  have hcounts := moved.counts
  rw [hrem, start.slave] at hslave
  rw [hrem] at hcounts
  refine ⟨ev, hev, htrace.sent, ?_, ?_, ?_, htx, hrx, ended.quiet, fun j _ hj => hctl j hj, ?_⟩
  · rw [htrace.received, moved.len, hrem]
  · rw [htrace.received]
    exact delivered_accepted ha (completed_rxBuf start moved ended)
  · rw [htrace.received, ended.slave]
    exact hslave
  · intro hpos
    obtain ⟨hbc, htc⟩ := hcounts hpos
    rw [ended.blk]
    exact ⟨htc.symm, by rw [hbc, toNat_ofNat_chunk (chunkSizes_getLastD_le _)]⟩

/-- Settles O55: a burst that times out in mode `fair` was not enabled. -/
theorem aFairTransferSucceeds : Obligations.AFairTransferSucceeds := by
  unfold Obligations.AFairTransferSucceeds
  intro b e tx rx cs n s ha hq hfair hen hma
  obtain ⟨t, ht, hrun⟩ := transfer_runs (b := b) (e := e) (cs := cs) ha (.inl hq)
  obtain ⟨hran, hidle, -⟩ := hrun.ends
  cases hrun with
  | completed start moved ended =>
    have hctl := completed_ctl start moved ended
    obtain ⟨htx, hrx⟩ := completed_fifos moved ended
    obtain ⟨ev, hev, htrace⟩ := completedTrace start moved ended hq
    refine ⟨t, ht, ended.res, fun j _ hj => hctl j hj, htx, hrx, hran.transferFrame hidle, ev, hev, htrace.sent, ?_⟩
    · rw [htrace.received]
      exact delivered_accepted ha (completed_rxBuf start moved ended)
  | timedOut start cut _ =>
    exact absurd ⟨start.enable.1.trans hen, start.enable.2.trans hma⟩ (cut.why ((congrArg _ start.same.cfg).trans hfair))

/-- Settles O56: with EN = 0 no burst is performed, so the first one is cut off and stays in flight. -/
theorem aTransferAfterReleaseTimesOut : Obligations.ATransferAfterReleaseTimesOut := by
  unfold Obligations.ATransferAfterReleaseTimesOut
  intro b e tx rx cs n s ha hn hen
  have hpos : n / 8 ≠ 0 := by omega
  obtain ⟨t, ht, hrun⟩ := transfer_runs (b := b) (e := e) (cs := cs) ha (.inr ⟨hen, hpos⟩)
  obtain ⟨hran, hidle, -⟩ := hrun.ends
  cases hrun with
  | completed _ _ _ armed => exact absurd ((armed hpos).1.symm.trans hen) Bool.noConfusion
  | timedOut start cut ended =>
    obtain ⟨j, ins, hcut⟩ := cutOff_exists start cut
    obtain rfl : j = 0 := Nat.eq_zero_of_not_pos fun hj => Bool.noConfusion ((hcut.armed hj).symm.trans hen)
    obtain rfl : ins = [] := List.eq_nil_of_length_eq_zero hcut.len
    obtain ⟨ev, hev, -, -, hsizes⟩ := hcut.trace
    obtain ⟨tail, htail, hnone, -, -, hbusy, htx, hrx⟩ := ended.dead (cut.enable.trans (start.enable.1.trans hen))
    have hctl := timedOut_ctl start cut ended
    refine ⟨t, ht, ended.res, fun j _ hj => hctl j hj, hbusy hcut.busy, ?_, hrx.trans hcut.rxFifo, htx.trans hcut.txFifo,
      hran.transferFrame hidle, tail ++ ev, by rw [htail, hev, List.append_assoc]; rfl, ?_⟩
    · rw [ended.rxb, hcut.rxb, map_writeAll_nil, ite_self]
      rfl
    · rw [burstSizes_append, hsizes, hnone]
      rfl

/-- Settles O57: the bursts before burst `j` are in the history of the loop; the timeout path adds at most burst `j`. -/
theorem aTimeoutKeepsTheEarlierBursts : Obligations.ATimeoutKeepsTheEarlierBursts := by
  unfold Obligations.ATimeoutKeepsTheEarlierBursts
  intro b e tx rx cs n s t ha hq hrun hres
  obtain ⟨m, q, w, start, cut, ended⟩ := (transferRun_of_exec ha hq hrun).of_timeout hres
  obtain ⟨j, ins, hcut⟩ := cutOff_exists start cut
  obtain ⟨ev, tail, htrace⟩ := hcut.traced ended
  obtain ⟨hlen, htail⟩ := htrace.burstCount
  have hctl := timedOut_ctl start cut ended
  have hcounts : t.blk.bc = q.blk.bc ∧ t.blk.tc = q.blk.tc := by rw [ended.regs]; exact ⟨rfl, rfl⟩
  refine ⟨j, ev, hcut.inside, htrace.history, ?_, by omega, by omega, ?_, ?_, ?_, ?_, ?_, ?_, ?_, fun i _ hi => hctl i hi,
    fun hj => ?_⟩
  · rw [htrace.sizes]
    exact List.take_left' List.length_replicate
  · rw [htrace.sent]
    exact List.take_left' (dataOut_length ha _)
  · rw [htrace.received, List.length_append, hcut.len]
    exact Nat.le_add_right _ _
  · rw [htrace.received, List.take_left' hcut.len]
    exact delivered_accepted ha (ended.rxb.trans hcut.rxb)
  · rw [ended.e, hcut.ti]
    exact congrArg (· + _) (Nat.zero_add _)
  · rw [ended.e, hcut.ri]
    exact Nat.zero_add _
  · rw [hcounts.1, hcounts.2, hcut.tc]
  · rw [hcounts.1, hcut.bc_toNat]
    rfl
  · cases htrace.ended with
    | inFlight _ hbusy htx hrx =>
      refine ⟨hbusy hcut.busy, hrx.trans hcut.rxFifo, ?_⟩
      rw [htx, hcut.txFifo]
      exact (fill_add (accepted b e tx rx cs n s) _ _).symm
    | performed hone => omega

/-- Settles O58: the sizes in the history are those R216 names. -/
theorem aTransferIsCutIntoBurstsOf63 : Obligations.ATransferIsCutIntoBurstsOf63 := by
  unfold Obligations.ATransferIsCutIntoBurstsOf63
  intro b e tx rx cs n s t ha hq hrun hres
  obtain ⟨ins, ev, hev, htrace⟩ := completedTrace_of_exec ha hq hrun hres
  have hsizes : burstSizes ev = chunkSizes (n / 8) := htrace.sizes
  exact ⟨ev, hev, hsizes, by rw [hsizes, chunkSizes_length]; rfl, by rw [hsizes, chunkSizes_sum]⟩

/-- Settles O59, from the counts of the history. -/
theorem theAccessCountsOfATransfer : Obligations.TheAccessCountsOfATransfer := by
  unfold Obligations.TheAccessCountsOfATransfer
  intro b e tx rx cs n s t ha hq hrun hres
  obtain ⟨ins, ev, hev, htrace⟩ := completedTrace_of_exec ha hq hrun hres
  exact ⟨ev, hev, htrace.polled, htrace.once, htrace.writes, htrace.reads⟩

/-- Settles O60, from the values written to CTL in the history. -/
theorem chipSelectIsNeverToggledBetweenBursts : Obligations.ChipSelectIsNeverToggledBetweenBursts := by
  unfold Obligations.ChipSelectIsNeverToggledBetweenBursts
  intro b e tx rx cs n s t ha hq hrun hres
  obtain ⟨ins, ev, hev, htrace⟩ := completedTrace_of_exec ha hq hrun hres
  obtain ⟨w1, w2, w3, starts, h⟩ := htrace.ctl
  obtain ⟨h8, h9, h10⟩ := h.resets
  exact ⟨ev, w1, w2, w3, starts, hev, h.writes, h.bursts, h.asserts, h.releases, h8, h9, h10, h.begins, h.level⟩

/-- Settles O52: a run of no bytes has no burst, and the block is as the prologue and the end left it. -/
theorem aZeroLengthTransferResetsTheFifos : Obligations.AZeroLengthTransferResetsTheFifos := by
  unfold Obligations.AZeroLengthTransferResetsTheFifos
  intro b e tx rx cs s ha hq
  obtain ⟨t, ht, hrun⟩ := transfer_runs (b := b) (e := e) (cs := cs) ha (.inl hq)
  obtain ⟨hran, hidle, hres⟩ := hrun.ends
  have hok : lastResult t.history = some .ok := hres.resolve_right fun h => h.2 rfl
  obtain ⟨m, q, ins, w, ws, start, moved, ended⟩ := hrun.of_ok hok
  obtain ⟨ev, hev, htrace⟩ := completedTrace start moved ended hq
  obtain ⟨w1, w2, w3, starts, h⟩ := htrace.ctl
  obtain ⟨h8, h9, -⟩ := h.resets
  obtain rfl : ins = [] := List.eq_nil_of_length_eq_zero (moved.len.trans start.rem)
  have hrem : (accepted b e tx rx cs 0 s).e.rem = 0 := rfl
  obtain rfl : starts = [] := List.eq_nil_of_length_eq_zero (h.bursts.trans (congrArg burstCount hrem))
  obtain ⟨hbc, htc⟩ := moved.none start.rem
  have hctl := completed_ctl start moved ended
  obtain ⟨htx, hrx⟩ := completed_fifos moved ended
  refine ⟨t, ht, hok, htx, hrx, ended.quiet, ?_, ?_, ?_, fun j _ hj => hctl j hj, hran.transferFrame hidle, ev, w1, w2, w3, hev,
    htrace.sizes.trans (congrArg chunkSizes hrem), h.writes, h.asserts, h8, h9, h.releases⟩
  · rw [ended.blk, hbc, start.blk]
    rfl
  · rw [ended.blk, htc, start.blk]
    rfl
  · rw [completed_rxBuf start moved ended, map_writeAll_nil, ite_self]
    rfl

end Sys2Proof.Machine
end

section
/-! O22, O24: SET_MODE (R240) from the state between its halves, and as a write of CTL that a second SET_MODE repeats (R242). -/

namespace Sys2Proof.Machine

section
variable {s c : State} {b : Block} {v : Word} {cpol cpha : Bool} {target : Upc}

/-! ### The value SET_MODE writes -/

/-- SET_MODE asks for a FIFO reset only where the value read does. -/
theorem modeValue_noReset (h : v.getLsbD 8 = false ∧ v.getLsbD 9 = false) :
    (modeValue v cpol cpha).getLsbD 8 = false ∧ (modeValue v cpol cpha).getLsbD 9 = false :=
  ⟨(modeValue_bit v cpol cpha 8).trans h.1, (modeValue_bit v cpol cpha 9).trans h.2⟩

/-- CTL is stored by SET_MODE as it is written: with XCH as read, and no FIFO-reset bit (R44, R45). -/
theorem ctlWriteBlock_modeValue (b : Block) (cpol cpha : Bool) :
    ctlWriteBlock b (modeValue (ctlRead b) cpol cpha) = { b with ctl := modeValue (ctlRead b) cpol cpha } := by
  obtain ⟨h8, h9⟩ := modeValue_noReset (cpol := cpol) (cpha := cpha) (ctlRead_reset b)
  have hstored : ctlStored b.ctl (modeValue (ctlRead b) cpol cpha) = modeValue (ctlRead b) cpol cpha := by
    refine BitVec.eq_of_getLsbD_eq fun j _ => ?_
    by_cases hj : j = 10
    · rw [hj, ctlStored_bit, modeValue_bit, ctlRead_bit]
      simp
    · exact ctlStored_bit_ne h8 h9 hj
  rw [ctlWriteBlock_plain h8 h9, hstored]

/-- A read of CTL finds a value without FIFO-reset bits as it stands (R45). -/
theorem ctlRead_of_noReset (h : b.ctl.getLsbD 8 = false ∧ b.ctl.getLsbD 9 = false) : ctlRead b = b.ctl := by
  refine BitVec.eq_of_getLsbD_eq fun j _ => ?_
  by_cases h8 : j = 8
  · rw [h8, (ctlRead_reset b).1, h.1]
  by_cases h9 : j = 9
  · rw [h9, (ctlRead_reset b).2, h.2]
  rw [ctlRead_bit]
  simp [h8, h9]

theorem modeValue_modeValue (v : Word) (cpol cpha : Bool) :
    modeValue (modeValue v cpol cpha) cpol cpha = modeValue v cpol cpha := by
  refine BitVec.eq_of_getLsbD_eq fun j _ => ?_
  simp only [modeValue_bit]
  split
  · rfl
  split <;> rfl

/-- The write of SET_MODE changes nothing where CTL holds what a SET_MODE of the same operands wrote (R242). -/
theorem ctlWriteBlock_modeValue_twice (hb : b.ctl = modeValue v cpol cpha) (hv : v.getLsbD 8 = false ∧ v.getLsbD 9 = false) :
    ctlWriteBlock b (modeValue (ctlRead b) cpol cpha) = b := by
  have hread : ctlRead b = b.ctl := ctlRead_of_noReset (by rw [hb]; exact modeValue_noReset hv)
  rw [ctlWriteBlock_modeValue, hread, hb, modeValue_modeValue, ← hb]

/-- The operands in the latched word of a SET_MODE (R112). -/
theorem operands_of_setMode {e : Engine} (h : e.cmd = encode (.setMode cpol cpha)) :
    operandCpol e = cpol ∧ operandCpha e = cpha := by
  unfold operandCpol operandCpha
  rw [h]
  exact bitField_encode_setMode cpol cpha

/-! ### The read half with no burst in flight -/

/-- The state after the read half of a read-modify-write of CTL, the shifter having had no step. -/
def afterCtlRead (target : Upc) (s : State) : State :=
  State.withEngine (s.record (.access offCTL 4 .read (ctlRead s.blk))) { s.e with v := ctlRead s.blk, upc := target }

theorem tick_ctlRead_quiet (hclk : s.clkOn = true) (hq : Quiet s) (hR : engineStep s = readInto offCTL target s) :
    tick s = .next (afterCtlRead target s) := by
  rw [tick_quiet hq, hR, readInto_ctl s target hclk]
  rfl

/-- SET_MODE with no burst in flight: the state between its halves is that after the read half. -/
theorem exec_setMode_quiet (cpol cpha : Bool) (hr : Ready s) (hq : Quiet s) :
    exec (.setMode cpol cpha) s = .next (afterModeW
      (afterCtlRead .modeW (s.withEngine { s.e with cmd := encode (.setMode cpol cpha), upc := .modeR }))) := by
  have hread := tick_ctlRead_quiet (s := s.withEngine { s.e with cmd := encode (.setMode cpol cpha), upc := .modeR })
    (target := .modeW) hr.clk hq rfl
  generalize hm : afterCtlRead .modeW _ = m at hread ⊢
  have hu : m.e.upc = .modeW := by rw [← hm]; rfl
  have hclk : m.clkOn = true := by rw [← hm]; exact hr.clk
  have hmq : Quiet m := by rw [← hm]; exact hq
  have hw : tick m = .next (afterModeW m) := by
    rw [tick_quiet hmq, engineStep, hu]
    exact stepModeW_eq hclk
  rw [exec, execSetMode, accept_idle s _ _ hr.idle, andThen_next, runWhile_step rfl, hread, andThen_next,
    runWhile_step (by rw [hu]; rfl), hw]
  rfl

/-! ### The state SET_MODE leaves -/

theorem afterModeW_history (h : c.e.cmd = encode (.setMode cpol cpha)) : (afterModeW c).history =
    .command (encode (.setMode cpol cpha)) .ok :: .access offCTL 4 .write (modeValue c.e.v cpol cpha) :: c.history := by
  obtain ⟨hpol, hpha⟩ := operands_of_setMode h
  simp [afterModeW, hpol, hpha, h]

/-- CTL after SET_MODE reads as before it but for CPHA (bit 2), CPOL (bit 3) and XCH. -/
theorem afterModeW_ctl_bit (h : Between s c target) {j : Nat} (hj : j ≠ 10) :
    (ctlRead (afterModeW c).blk).getLsbD j =
      (if j = 2 then operandCpha c.e else if j = 3 then operandCpol c.e else (ctlRead s.blk).getLsbD j) := by
  obtain ⟨h8, h9⟩ := modeValue_noReset (cpol := operandCpol c.e) (cpha := operandCpha c.e) h.noReset
  rw [afterModeW_blk, ctlRead_after_write h8 h9 hj, modeValue_bit, h.held j hj]

/-- The frame of SET_MODE, with the engine registers of the state between its halves. -/
theorem afterModeW_frame (h : Between s c target) :
    RmwFrame s (afterModeW c) { c.e with curCpol := operandCpol c.e, curCpha := operandCpha c.e } := by
  obtain ⟨h8, h9⟩ := modeValue_noReset (cpol := operandCpol c.e) (cpha := operandCpha c.e) h.noReset
  exact rmwFrame_of_between h h8 h9 (modeValue_bit _ _ _ 10) offCTL .ok _

end

/-- Settles O22: the write half writes the value read back but for the two operands, and with no burst in flight its accesses are
those of `exec_setMode_quiet`. -/
theorem setModeWritesPolarityAndPhase : Obligations.SetModeWritesPolarityAndPhase := by
  unfold Obligations.SetModeWritesPolarityAndPhase
  intro cpol cpha s hr hag
  obtain ⟨c, hrun, h⟩ := exec_setMode cpol cpha hr hag
  have hcmd : c.e.cmd = encode (.setMode cpol cpha) := congrArg Engine.cmd h.e
  obtain ⟨hpol, hpha⟩ := operands_of_setMode hcmd
  have hf := afterModeW_frame h
  refine ⟨_, hrun, ?result, fun j _ hj => ?ctl, ?cctl, { hf with engine := ?engine }, fun hq => ?accesses⟩
  case result =>
    rw [afterModeW_history hcmd]
    rfl
  case ctl =>
    rw [afterModeW_ctl_bit h hj, hpol, hpha]
    dsimp only
    split
    · rfl
    split <;> rfl
  case cctl =>
    rw [afterModeW_blk, h.regs]
    rfl
  case engine =>
    rw [afterModeW_e, hpol, hpha, h.e]
    rfl
  case accesses =>
    rw [exec_setMode_quiet cpol cpha hr hq] at hrun
    rw [← Host.Outcome.next.inj hrun]
    exact afterModeW_history rfl

/-- Settles O24: the second SET_MODE writes CTL as it stands. -/
theorem setModeIsIdempotent : Obligations.SetModeIsIdempotent := by
  unfold Obligations.SetModeIsIdempotent
  intro cpol cpha s hr hq
  obtain ⟨t, ht⟩ := quietRun_setMode cpol cpha hr hq
  obtain ⟨u, hu⟩ := quietRun_setMode cpol cpha ht.ready ht.quiet
  have hctl : t.blk.ctl = modeValue (ctlRead s.blk) cpol cpha := by rw [ht.blk, ctlWriteBlock_modeValue]
  refine ⟨t, u, ht.run, hu.run, ?_, ?_, ?_⟩
  · rw [hu.blk, ctlWriteBlock_modeValue_twice hctl (ctlRead_reset _)]
  all_goals
    rw [hu.e, ht.e]
    rfl

end Sys2Proof.Machine
end

section
/-! O20, O21, O26: CLAIM (R250) and RELEASE (R251), each as the read-modify-write of CTL that is the whole of its command, and the
CLAIM that undoes a RELEASE (R252). -/

namespace Sys2Proof.Machine

section
variable {i : Instr} {source target : Upc} {bits : Nat → Option Bool} {value : Word → Word} {s t b c : State} {w : Word}

/-! ### A command that is one read-modify-write of CTL -/

/-- The command `i` is one read-modify-write of CTL: it reads at `source`, and at `target` writes the value read with the bits `bits`
names replaced, and ends with OK (R85). -/
structure CtlRmw (i : Instr) (source target : Upc) (bits : Nat → Option Bool) (value : Word → Word) : Prop where
  meaning : ∀ s, exec i s = andThen (accept (encode i) source s) (runWhile running 2)
  inRun   : running source = true ∧ running target = true
  read    : ∀ a, a.e.upc = source → engineStep a = readInto offCTL target a
  write   : ∀ a, a.e.upc = target → engineStep a = writeFinish offCTL (value a.e.v) .ok a
  bit     : ∀ v j, j < 32 → (value v).getLsbD j = (bits j).getD (v.getLsbD j)
  /-- Neither FIFO reset nor XCH is among the bits replaced. -/
  kept    : bits 8 = none ∧ bits 9 = none ∧ bits 10 = none

/-- The state at acceptance: the word latched, the engine at the command's first position (R62). -/
def latched (i : Instr) (source : Upc) (s : State) : State := s.withEngine { s.e with cmd := encode i, upc := source }

/-- The state after the write half of the value `w`, made at `c`, and the end of the command. -/
def afterCtlWrite (w : Word) (c : State) : State := finish .ok ((ctlWrite w c).record (.access offCTL 4 .write w))

@[simp] theorem afterCtlWrite_blk : (afterCtlWrite w c).blk = ctlWriteBlock c.blk w := by simp [afterCtlWrite]

theorem afterCtlWrite_history :
    (afterCtlWrite w c).history = .command c.e.cmd .ok :: .access offCTL 4 .write w :: c.history := by simp [afterCtlWrite]

theorem afterCtlWrite_frame (h : Between s c target) (h8 : w.getLsbD 8 = false) (h9 : w.getLsbD 9 = false)
    (hx : ctlXCH w = ctlXCH c.e.v) : RmwFrame s (afterCtlWrite w c) c.e := by
  have hf := rmwFrame_of_between h h8 h9 hx offCTL .ok (ctlWrite w c).e
  rw [ctlWrite_e] at hf
  have hself : State.withEngine ((ctlWrite w c).record (.access offCTL 4 .write w)) c.e =
      (ctlWrite w c).record (.access offCTL 4 .write w) := by
    rw [← ctlWrite_e c w]
    rfl
  rwa [hself] at hf

/-- The value written has the bits of the value read but for those replaced, in particular no FIFO-reset bit and the same XCH. -/
theorem CtlRmw.untouched (h : CtlRmw i source target bits value) (v : Word) :
    (value v).getLsbD 8 = v.getLsbD 8 ∧ (value v).getLsbD 9 = v.getLsbD 9 ∧ ctlXCH (value v) = ctlXCH v := by
  obtain ⟨h8, h9, h10⟩ := h.kept
  refine ⟨?_, ?_, ?_⟩
  · rw [h.bit v 8 (by decide), h8]
    rfl
  · rw [h.bit v 9 (by decide), h9]
    rfl
  · rw [ctlXCH, h.bit v 10 (by decide), h10]
    rfl

/-- The command from its two ticks: the read half to `b`, and the write half at the state `c` the shifter leaves of `b`. -/
theorem CtlRmw.exec_of_ticks (h : CtlRmw i source target bits value) (hr : Ready s) (hread : tick (latched i source s) = .next b)
    (hb : b.e.upc = target) (hturn : tick b = engineStep c) (hc : c.e.upc = target) (hclk : c.clkOn = true) :
    exec i s = .next (afterCtlWrite (value c.e.v) c) := by
  obtain ⟨hsource, htarget⟩ := h.inRun
  have hwrite : tick b = .next (afterCtlWrite (value c.e.v) c) := by
    rw [hturn, h.write c hc, writeFinish_ctl _ _ hclk]
    rfl
  rw [h.meaning, accept_idle s _ _ hr.idle, andThen_next, ← latched, runWhile_step hsource, hread, andThen_next,
    runWhile_step (by rw [hb, htarget]), hwrite]
  rfl

/-- The command is its read half, and its write half at the state `c` between them. -/
theorem CtlRmw.exec_between (h : CtlRmw i source target bits value) (hr : Ready s) (hag : CountsAgree s) :
    ∃ c, exec i s = .next (afterCtlWrite (value c.e.v) c) ∧ Between (latched i source s) c target := by
  obtain ⟨b, c, hread, hb, hturn, hbc⟩ := between_exists (s := latched i source s) hr.clk hag rfl h.read
  exact ⟨c, h.exec_of_ticks hr hread hb hturn (congrArg Engine.upc hbc.e) (hbc.clkOn.trans hr.clk), hbc⟩

/-- With no burst in flight the state between the halves is that after the read half. -/
theorem CtlRmw.exec_quiet (h : CtlRmw i source target bits value) (hr : Ready s) (hq : Quiet s) :
    exec i s = .next (afterCtlWrite (value (ctlRead s.blk)) (afterCtlRead target (latched i source s))) :=
  h.exec_of_ticks (b := afterCtlRead target (latched i source s)) (c := afterCtlRead target (latched i source s)) hr
    (tick_ctlRead_quiet hr.clk hq (h.read _ rfl)) rfl (tick_quiet hq) rfl hr.clk

/-! ### What such a command leaves -/

/-- The run of such a command from `s` to `t`. -/
structure CtlRmwRun (i : Instr) (bits : Nat → Option Bool) (value : Word → Word) (s t : State) : Prop where
  run      : exec i s = .next t
  result   : lastResult t.history = some .ok
  ctl      : CtlChanged s t bits
  cctl     : t.blk.cctl = s.blk.cctl
  frame    : RmwFrame s t { s.e with cmd := encode i }
  accesses : Quiet s → t.history =
    [.command (encode i) .ok, .access offCTL 4 .write (value (ctlRead s.blk)), .access offCTL 4 .read (ctlRead s.blk)] ++ s.history

theorem CtlRmw.runs (h : CtlRmw i source target bits value) (hr : Ready s) (hag : CountsAgree s) :
    ∃ t, CtlRmwRun i bits value s t := by
  obtain ⟨c, hrun, hc⟩ := h.exec_between hr hag
  obtain ⟨hr8, hr9⟩ := hc.noReset
  obtain ⟨e8, e9, hx⟩ := h.untouched c.e.v
  have h8 := e8.trans hr8
  have h9 := e9.trans hr9
  have hf := afterCtlWrite_frame hc h8 h9 hx
  refine ⟨_, hrun, ?result, fun j hj h10 => ?ctl, ?cctl, { hf with engine := ?engine }, fun hq => ?accesses⟩
  case result =>
    rw [afterCtlWrite_history]
    rfl
  case ctl =>
    rw [afterCtlWrite_blk, ctlRead_after_write h8 h9 h10, h.bit _ _ hj, hc.held j h10]
    rfl
  case cctl =>
    rw [afterCtlWrite_blk, hc.regs]
    rfl
  case engine =>
    rw [hf.engine, hc.e]
    rfl
  case accesses =>
    rw [h.exec_quiet hr hq] at hrun
    rw [← Host.Outcome.next.inj hrun]
    exact afterCtlWrite_history

theorem CtlRmwRun.ready (h : CtlRmwRun i bits value s t) (hr : Ready s) : Ready t :=
  ⟨congrArg Engine.upc h.frame.engine, h.frame.clkOn.trans hr.clk⟩

theorem CtlRmwRun.quiet (h : CtlRmwRun i bits value s t) (hq : Quiet s) : Quiet t := (h.frame.quiet hq).1

end

/-! ### CLAIM and RELEASE -/

/-- The bits CLAIM replaces: EN, MASTER, CSPOL_LOW, DHB and CS_MANUAL, all set (R250). -/
def claimBits (j : Nat) : Option Bool := if j = 0 ∨ j = 1 ∨ j = 4 ∨ j = 15 ∨ j = 16 then some true else none

/-- The bit RELEASE replaces: EN, cleared (R251). -/
def releaseBits (j : Nat) : Option Bool := if j = 0 then some false else none

theorem claimValue_bits (v : Word) (j : Nat) (hj : j < 32) : (claimValue v).getLsbD j = (claimBits j).getD (v.getLsbD j) := by
  rw [claimValue_bit v j hj, claimBits]
  split
  · next hset => simp [or_assoc, hset]
  · next hset =>
    simp only [not_or] at hset
    simp [hset]

theorem releaseValue_bits (v : Word) (j : Nat) : (releaseValue v).getLsbD j = (releaseBits j).getD (v.getLsbD j) := by
  rw [releaseValue_bit, releaseBits]
  split
  · next h0 => simp [h0]
  · next h0 => simp [h0]

theorem ctlRmw_claim : CtlRmw .claim .claimR .claimW claimBits claimValue where
  meaning _ := rfl
  inRun := ⟨rfl, rfl⟩
  read a ha := by rw [engineStep, ha]; rfl
  write a ha := by rw [engineStep, ha]; rfl
  bit := claimValue_bits
  kept := ⟨rfl, rfl, rfl⟩

theorem ctlRmw_release : CtlRmw .release .relR .relW releaseBits releaseValue where
  meaning _ := rfl
  inRun := ⟨rfl, rfl⟩
  read a ha := by rw [engineStep, ha]; rfl
  write a ha := by rw [engineStep, ha]; rfl
  bit v j _ := releaseValue_bits v j
  kept := ⟨rfl, rfl, rfl⟩

/-! ### RELEASE undone -/

/-- A bit that is set where CLAIM sets it is what a RELEASE and a CLAIM after it leave (R252). -/
theorem claimBits_getD_releaseBits {j : Nat} {x : Bool} (h : j = 0 ∨ j = 1 ∨ j = 4 ∨ j = 15 ∨ j = 16 → x = true) :
    (claimBits j).getD ((releaseBits j).getD x) = x := by
  unfold claimBits
  split
  · next hset => exact (h hset).symm
  · next hset =>
    rw [releaseBits, if_neg fun h0 => hset (.inl h0)]
    rfl

/-- The controller is claimed: every bit that CLAIM sets is set. -/
def Claimed (b : Block) : Prop := ∀ j, j = 0 ∨ j = 1 ∨ j = 4 ∨ j = 15 ∨ j = 16 → (ctlRead b).getLsbD j = true

theorem claimed_of_fields {b : Block} (hen : ctlEN b.ctl = true) (hmaster : ctlMASTER b.ctl = true)
    (hpol : ctlCSPOL_LOW b.ctl = true) (hdhb : ctlDHB b.ctl = true) (hmanual : ctlCS_MANUAL b.ctl = true) : Claimed b := by
  intro j hj
  rw [ctlRead_bit_ne (by omega) (by omega)]
  rcases hj with rfl | rfl | rfl | rfl | rfl
  · exact hen
  · exact hmaster
  · exact hpol
  · exact hdhb
  · exact hmanual

/-- A RELEASE of a claimed controller and a CLAIM after it leave CTL as it read, no burst being in flight (R252). -/
theorem ctlRead_of_release_claim {s t u : State} (hq : Quiet s) (hs : Claimed s.blk)
    (ht : CtlRmwRun .release releaseBits releaseValue s t) (hu : CtlRmwRun .claim claimBits claimValue t u) :
    ctlRead u.blk = ctlRead s.blk := by
  refine BitVec.eq_of_getLsbD_eq fun j hj => ?_
  by_cases h10 : j = 10
  · have hqu : busy u.blk = false := hu.quiet (ht.quiet hq)
    have hqs : busy s.blk = false := hq
    rw [h10, ctlRead_xch, ctlRead_xch, hqu, hqs]
  · rw [hu.ctl j hj h10, ht.ctl j hj h10]
    exact claimBits_getD_releaseBits (hs j)

/-- Settles O20: CLAIM is the read-modify-write of CTL that sets its five bits. -/
theorem claimSetsEnableMasterAndModeBits : Obligations.ClaimSetsEnableMasterAndModeBits := by
  unfold Obligations.ClaimSetsEnableMasterAndModeBits
  intro s hr hag
  obtain ⟨t, ht⟩ := ctlRmw_claim.runs hr hag
  exact ⟨t, ht.run, ht.result, ht.ctl, ht.cctl, ht.frame, ht.accesses⟩

/-- Settles O21: RELEASE is the read-modify-write of CTL that clears EN. -/
theorem releaseClearsEnableOnly : Obligations.ReleaseClearsEnableOnly := by
  unfold Obligations.ReleaseClearsEnableOnly
  intro s hr hag
  obtain ⟨t, ht⟩ := ctlRmw_release.runs hr hag
  exact ⟨t, ht.run, ht.result, ht.ctl, ht.cctl, ht.frame, ht.accesses⟩

/-- Settles O26: RELEASE clears EN alone, which the CLAIM sets again beside bits that were set. -/
theorem aClaimAfterReleaseRestoresTheController : Obligations.AClaimAfterReleaseRestoresTheController := by
  unfold Obligations.AClaimAfterReleaseRestoresTheController
  intro s hr hq hen hmaster hpol hdhb hmanual
  obtain ⟨t, ht⟩ := ctlRmw_release.runs hr hq.countsAgree
  obtain ⟨u, hu⟩ := ctlRmw_claim.runs (ht.ready hr) (ht.quiet hq).countsAgree
  have hread := ctlRead_of_release_claim hq (claimed_of_fields hen hmaster hpol hdhb hmanual) ht hu
  exact ⟨t, u, ht.run, ht.ctl, ht.cctl, hu.run, hread, hu.cctl.trans ht.cctl⟩

end Sys2Proof.Machine
end

section
/-! O17: the result words (R260). -/

namespace Sys2Proof.Machine

/-- A code in bits 7:0 leaves bits 31:8 zero. -/
theorem upperBits_of_code (c : BitVec 8) : (c.setWidth 32).extractLsb' 8 24 = 0#24 := by
  ext j hj
  simp

/-- Settles O17: the codes by evaluation, the upper bits for every code. -/
theorem resultWords : Obligations.ResultWords := by
  unfold Obligations.ResultWords
  exact ⟨rfl, rfl, rfl, rfl, rfl, fun r => upperBits_of_code r.code⟩

end Sys2Proof.Machine
end

section
/-! O16: every command runs to IDLE and one of its results (R215, R260, R269), whatever burst is still in flight at its acceptance,
or its run is refused at a turn of the shifter (R205).  A TRANSFER is followed position by position: how many bytes are left of it, how
many of the burst are filled and drained, and that the lent buffers hold the rest. -/

namespace Sys2Proof.Machine

/-! ### The outcomes of a run -/

/-- The outcomes of a run that is to leave a state with `Q`: such a state, or the refusal of a burst whose counts differ (R205). -/
inductive Reaches (Q : State → Prop) : Res → Prop
  | next {t : State} (h : Q t) : Reaches Q (.next t)
  | burstCountMismatch : Reaches Q (.refused .burstCountMismatch)

/-- The command ended with the result `r`, the engine IDLE (R15, R260). -/
def Returned (r : Result) (t : State) : Prop := t.e.upc = .idle ∧ lastResult t.history = some r

/-- The results the command `i` can end with (R260, R265). -/
def MayReturn (i : Instr) (r : Result) : Prop := r = .ok ∨ (opcodeOf i = 5#4 ∧ (r = .alignmentError ∨ r = .timeoutError))

/-- The command `i` ended with one of its results. -/
def Ended (i : Instr) (t : State) : Prop := ∃ r, Returned r t ∧ MayReturn i r

/-- What a turn of the shifter leaves of all that the engine's course depends on. -/
structure Turned (s u : State) : Prop extends ShifterFrame s u where
  clk : u.clkOn = s.clkOn
  bc  : u.blk.bc = s.blk.bc
  tc  : u.blk.tc = s.blk.tc

section
variable {P Q : State → Prop} {p : Upc → Bool} {s t : State} {n : Nat} {r : Result} {w : Upc}

theorem Reaches.bind {x : Res} {f : State → Res} (hx : Reaches P x) (hf : ∀ t, P t → Reaches Q (f t)) : Reaches Q (andThen x f) := by
  cases hx with
  | next h => exact hf _ h
  | burstCountMismatch => exact .burstCountMismatch

theorem Reaches.mono {x : Res} (hx : Reaches P x) (h : ∀ t, P t → Q t) : Reaches Q x := by
  cases hx with
  | next hp => exact .next (h _ hp)
  | burstCountMismatch => exact .burstCountMismatch

theorem Reaches.outcome {x : Res} (hx : Reaches Q x) : (∃ t, x = .next t ∧ Q t) ∨ x = .refused .burstCountMismatch := by
  cases hx with
  | next h => exact .inl ⟨_, rfl, h⟩
  | burstCountMismatch => exact .inr rfl

theorem turned_of_next (h : shifterTurn s = .next t) : Turned s t where
  toShifterFrame := shifterTurn_frame h
  clk := (shifterTurn_sameFixed h).2.1
  bc := by rcases shifterTurn_next h with h1 | h1 <;> rw [h1]; exact burst_bc s
  tc := by rcases shifterTurn_next h with h1 | h1 <;> rw [h1]; exact burst_tc s

/-- A tick is refused at the shifter's turn, or ends where the engine step after the turn does. -/
theorem tick_reaches (h : ∀ u, Turned s u → ∃ t, engineStep u = .next t ∧ Q t) : Reaches Q (tick s) := by
  have hturn : Reaches (Turned s) (shifterTurn s) := by
    rcases shifterTurn_cases s with h1 | ⟨_, h1, _⟩ | ⟨h1, _⟩ | ⟨h1, _⟩
    case inr.inr.inr => rw [h1]; exact .burstCountMismatch
    all_goals
      have hu := turned_of_next h1
      rw [h1]
      exact .next hu
  refine hturn.bind fun u hu => ?_
  obtain ⟨t, ht, hq⟩ := h u hu
  rw [ht]
  exact .next hq

/-- A run with a step to make: the tick, then the rest of the run. -/
theorem runWhile_reaches (hp : p s.e.upc = true) (htick : Reaches P (tick s)) (hrest : ∀ t, P t → Reaches Q (runWhile p n t)) :
    Reaches Q (runWhile p (n + 1) s) := by
  rw [runWhile_step hp]
  exact htick.bind hrest

/-- A run with no step to make. -/
theorem runWhile_reaches_stop (hp : p s.e.upc = false) (h : Q s) : Reaches Q (runWhile p n s) := by
  rw [runWhile_stop hp]
  exact .next h

/-! ### The last two steps of a command -/

/-- The result of the command that ends with the step of a position (R250, R251, R147, R240, R199, R202). -/
def endResult : Upc → Option Result
  | .claimW | .relW | .spdW | .modeW | .tEndW => some .ok
  | .tToW => some .timeoutError
  | _ => none

/-- Where the read half of a read-modify-write of CTL or CCTL goes (R85). -/
def readTarget : Upc → Option Upc
  | .spdR => some .spdW
  | u => ctlReadTarget u

theorem engineStep_ctlRead (hw : ctlReadTarget s.e.upc = some w) : engineStep s = readInto offCTL w s := by
  unfold engineStep
  cases hu : s.e.upc <;> rw [hu] at hw <;> cases hw <;> rfl

theorem engineStep_reads (hc : s.clkOn = true) (hw : readTarget s.e.upc = some w) :
    ∃ t, engineStep s = .next t ∧ t.clkOn = true ∧ t.e.upc = w := by
  by_cases hu : s.e.upc = .spdR
  · rw [hu] at hw
    cases hw
    have hstep : engineStep s = stepSpdR s := by rw [engineStep, hu]
    exact ⟨_, hstep.trans (stepSpdR_eq hc), hc, rfl⟩
  · have hctl : ctlReadTarget s.e.upc = some w := by
      rw [← hw, readTarget]
      exact hu
    exact ⟨_, (engineStep_ctlRead hctl).trans (readInto_ctl s w hc), hc, rfl⟩

/-- A step that makes one access and then finishes. -/
theorem returned_of_access {x : Res} {a : State} {f : State → State} (h : x = .next a) :
    ∃ t, andThen x (fun a => .next (finish r (f a))) = .next t ∧ Returned r t :=
  ⟨finish r (f a), by rw [h, andThen_next], rfl, rfl⟩

theorem engineStep_returns (hc : s.clkOn = true) (hr : endResult s.e.upc = some r) :
    ∃ t, engineStep s = .next t ∧ Returned r t := by
  unfold engineStep
  cases hu : s.e.upc <;> rw [hu] at hr <;> cases hr
  case spdW => exact returned_of_access (regWrite_cctl s _ hc)
  case claimW | relW | modeW | tEndW | tToW => exact returned_of_access (regWrite_ctl s _ hc)

/-- A read half, and the write half that ends the command. -/
theorem rmw_returns (hc : s.clkOn = true) (hw : readTarget s.e.upc = some w) (hr : endResult w = some r) :
    Reaches (Returned r) (runWhile running 2 s) := by
  have hsource : running s.e.upc = true := bne_iff_ne.mpr fun hu => by rw [hu] at hw; cases hw
  have htarget : running w = true := bne_iff_ne.mpr fun hu => by rw [hu] at hr; cases hr
  refine runWhile_reaches (P := fun t => t.clkOn = true ∧ t.e.upc = w) hsource (tick_reaches fun u hu => ?_) fun t ⟨htc, htu⟩ =>
    runWhile_reaches (P := Returned r) (by rw [htu]; exact htarget) (tick_reaches fun u hu => ?_) fun t ht => .next ht
  · exact engineStep_reads (hu.clk.trans hc) (by rw [hu.e]; exact hw)
  · exact engineStep_returns (hu.clk.trans htc) (by rw [hu.e, htu]; exact hr)

/-- A command other than TRANSFER, from its acceptance. -/
theorem simple_returns (hr : Ready s) (word : CmdWord) {u : Upc} (hw : readTarget u = some w) (hok : endResult w = some .ok) :
    Reaches (Returned .ok) (andThen (accept word u s) (runWhile running 2)) := by
  rw [accept_idle s word u hr.idle, andThen_next]
  exact rmw_returns hr.clk hw hok

end

/-! ### The stages of a TRANSFER -/

/-- From `s` to `t` what the room left in the lent buffers depends on is kept: the receive buffer by its length (R81). -/
structure Lends (s t : State) : Prop where
  clk   : t.clkOn = s.clkOn
  txBuf : t.txBuf = s.txBuf
  rxBuf : ∀ b, s.rxBuf = some b → ∃ b', t.rxBuf = some b' ∧ b'.len = b.len
  txp   : t.e.txp = s.e.txp
  rxp   : t.e.rxp = s.e.rxp

/-- The engine is at `u` with `n` bytes of the transfer left and the chunk `c`, of which `i` are sent and `j` received; the clock is on, and
the lent buffers hold the bytes still to be moved (R81). -/
structure Stage (n c i j : Nat) (u : Upc) (s : State) : Prop where
  clk   : s.clkOn = true
  upc   : s.e.upc = u
  rem   : s.e.rem = n
  chunk : s.e.chunk = c
  tx    : bufferSuffices s.e.txp s.txBuf (s.e.ti + (n - i)) = true
  rx    : bufferSuffices s.e.rxp s.rxBuf (s.e.ri + (n - j)) = true

/-- No burst is left: the end path or the timeout path is to be run, or the command has ended with OK (R191, R199). -/
inductive BurstsOver (t : State) : Prop
  | atEnd (hc : t.clkOn = true) (hu : t.e.upc = .tEndR)
  | atTimeout (hc : t.clkOn = true) (hu : t.e.upc = .tToR)
  | ended (h : Returned .ok t)

/-- After the loop test with `n` bytes left: the head of a burst, or no burst is left (R194). -/
inductive LoopTested (n : Nat) (t : State) : Prop
  | burst (h : Stage n (min n Config.chunkMax) 0 0 .tBc t) (hn : 0 < n) (hk : t.e.k = 0)
  | noBurst (h : BurstsOver t)

section
variable {s t : State} {n n' c c' i i' j j' m : Nat} {u w : Upc}

theorem bufferSuffices_of {p : Bool} {buf buf' : Option Buffer} {a b : Nat} (h : bufferSuffices p buf a = true) (hab : b ≤ a)
    (hbuf : ∀ x, buf = some x → ∃ y, buf' = some y ∧ y.len = x.len) : bufferSuffices p buf' b = true := by
  cases hp : p
  · rfl
  obtain ⟨x, hx, hax⟩ := buffer_of_suffices h hp
  obtain ⟨y, hy, hlen⟩ := hbuf x hx
  simp only [hy, bufferSuffices, Bool.not_true, Bool.false_or, decide_eq_true_eq]
  omega

theorem Lends.of_rxBuf (hc : t.clkOn = s.clkOn) (htx : t.txBuf = s.txBuf) (hrx : t.rxBuf = s.rxBuf) (htxp : t.e.txp = s.e.txp)
    (hrxp : t.e.rxp = s.e.rxp) : Lends s t :=
  ⟨hc, htx, fun b hb => ⟨b, hrx.trans hb, rfl⟩, htxp, hrxp⟩

theorem Turned.lends (h : Turned s t) : Lends s t := .of_rxBuf h.clk h.txBuf h.rxBuf (by rw [h.e]) (by rw [h.e])

/-- Where the lent buffers are kept and no end of the transfer moves outward, the buffers hold what is left. -/
theorem Stage.move (h : Stage n c i j u s) (g : Lends s t) (hu : t.e.upc = w) (hrem : t.e.rem = n') (hchunk : t.e.chunk = c')
    (hti : t.e.ti + (n' - i') ≤ s.e.ti + (n - i)) (hri : t.e.ri + (n' - j') ≤ s.e.ri + (n - j)) : Stage n' c' i' j' w t where
  clk := g.clk.trans h.clk
  upc := hu
  rem := hrem
  chunk := hchunk
  tx := by
    rw [g.txp, g.txBuf]
    exact bufferSuffices_of h.tx hti fun x hx => ⟨x, hx, rfl⟩
  rx := by
    rw [g.rxp]
    exact bufferSuffices_of h.rx hri g.rxBuf

theorem Stage.turned (h : Stage n c i j u s) (g : Turned s t) : Stage n c i j u t :=
  h.move g.lends (by rw [g.e]; exact h.upc) (by rw [g.e]; exact h.rem) (by rw [g.e]; exact h.chunk) (by rw [g.e]) (by rw [g.e])

/-! ### The loop test and the prologue -/

theorem enterLoop_tested (h : Stage n c 0 0 u s) : LoopTested n (enterLoop s) := by
  by_cases h0 : s.e.rem = 0
  · refine .noBurst ?_
    rw [enterLoop, if_pos h0]
    split
    · exact .atEnd h.clk rfl
    · exact .ended ⟨rfl, rfl⟩
  · rw [enterLoop_of_bytes h0]
    refine .burst ⟨h.clk, rfl, h.rem, by rw [← h.rem]; rfl, h.tx, h.rx⟩ ?_ rfl
    have := h.rem
    omega

theorem LoopTested.stops (h : LoopTested n t) {p : Upc → Bool}
    (hp : p .tBc = false ∧ p .tEndR = false ∧ p .tToR = false ∧ p .idle = false) : p t.e.upc = false := by
  obtain ⟨hbc, hend, hto, hidle⟩ := hp
  rcases h with ⟨h, -, -⟩ | ⟨-, hu⟩ | ⟨-, hu⟩ | ⟨hu, -⟩
  · rw [h.upc]; exact hbc
  · rw [hu]; exact hend
  · rw [hu]; exact hto
  · rw [hu]; exact hidle

/-- The read half of a read-modify-write of CTL moves no byte. -/
theorem tick_ctlRead (h : Stage n c i j u s) (hw : ctlReadTarget u = some w) :
    Reaches (fun t => Stage n c i j w t ∧ t.blk.bc = s.blk.bc ∧ t.blk.tc = s.blk.tc) (tick s) := by
  refine tick_reaches fun a ha => ?_
  have hs := h.turned ha
  refine ⟨_, (engineStep_ctlRead (by rw [hs.upc]; exact hw)).trans (readInto_ctl a w hs.clk), ?_, ha.bc, ha.tc⟩
  exact hs.move (.of_rxBuf rfl rfl rfl rfl rfl) rfl hs.rem hs.chunk (Nat.le_refl _) (Nat.le_refl _)

theorem tick_tBegW (h : Stage n c i j .tBegW s) : Reaches (Stage n c i j .tRstR) (tick s) := by
  refine tick_reaches fun a ha => ?_
  have hs := h.turned ha
  have hstep : engineStep a = stepTBegW a := by rw [engineStep, hs.upc]
  refine ⟨_, hstep.trans (writeThen_ctl _ _ hs.clk), hs.move (.of_rxBuf ?_ ?_ ?_ ?_ ?_) rfl ?_ ?_ ?_ ?_⟩
  all_goals simp [hs.rem, hs.chunk]

theorem tick_tRstW (h : Stage n c 0 0 .tRstW s) : Reaches (LoopTested n) (tick s) := by
  refine tick_reaches fun a ha => ?_
  have hs := h.turned ha
  have hstep : engineStep a = stepTRstW a := by rw [engineStep, hs.upc]
  refine ⟨_, hstep.trans (by rw [stepTRstW, regWrite_ctl a _ hs.clk, andThen_next]), enterLoop_tested (n := n) (c := c) (u := .tLoop) ?_⟩
  refine hs.move (.of_rxBuf ?_ ?_ ?_ ?_ ?_) rfl ?_ ?_ ?_ ?_
  all_goals simp [hs.rem, hs.chunk]

/-- The FIFO reset (R193) and the first loop test. -/
theorem reset_reaches (h : Stage n c 0 0 .tRstR s) : Reaches (LoopTested n) (runWhile inPrologue (m + 2) s) :=
  runWhile_reaches (by rw [h.upc]; rfl) (tick_ctlRead h rfl) fun t ⟨ht, _⟩ =>
    runWhile_reaches (by rw [ht.upc]; rfl) (tick_tRstW ht) fun _ hu =>
      runWhile_reaches_stop (hu.stops ⟨rfl, rfl, rfl, rfl⟩) hu

/-- The prologue of a TRANSFER, with BEGIN or without (R191). -/
theorem prologue_reaches (h : Stage n c 0 0 u s) (hu : u = .tBegR ∨ u = .tRstR) : Reaches (LoopTested n) (runWhile inPrologue 4 s) := by
  rcases hu with rfl | rfl
  · exact runWhile_reaches (by rw [h.upc]; rfl) (tick_ctlRead h rfl) fun t ⟨ht, _⟩ =>
      runWhile_reaches (by rw [ht.upc]; rfl) (tick_tBegW ht) fun _ => reset_reaches
  · exact reset_reaches h

/-! ### The fill and the start of a burst -/

/-- The fill before its next byte, the `i`-th: BC and TC are equal (R195, R196). -/
structure Filling (n c i : Nat) (s : State) : Prop where
  stage : Stage n c i 0 .tFill s
  k     : s.e.k = i
  agree : s.blk.bc = s.blk.tc

/-- BC and TC are written with the same count (R195). -/
theorem counts_reach (h : Stage n c 0 0 .tBc s) (hk : s.e.k = 0) {p : Upc → Bool} (hp : p .tBc = true ∧ p .tTc = true) {Q : State → Prop}
    (hrest : ∀ t, Filling n c 0 t → Reaches Q (runWhile p m t)) : Reaches Q (runWhile p (m + 2) s) := by
  refine runWhile_reaches (P := fun t => Stage n c 0 0 .tTc t ∧ t.e.k = 0 ∧ t.blk.bc = (countWord c).setWidth 24)
    (by rw [h.upc]; exact hp.1) (tick_reaches fun a ha => ?_) fun t ⟨ht, htk, hbc⟩ =>
    runWhile_reaches (by rw [ht.upc]; exact hp.2) (tick_reaches fun a ha => ?_) hrest
  · have hs := h.turned ha
    have hstep : engineStep a = stepTBc a := by rw [engineStep, hs.upc]
    refine ⟨_, hstep.trans (by rw [stepTBc, writeThen, regWrite_bc a _ hs.clk, andThen_next]), ?_, ?_, ?_⟩
    · exact hs.move (.of_rxBuf rfl rfl rfl rfl rfl) rfl hs.rem hs.chunk (Nat.le_refl _) (Nat.le_refl _)
    · rw [← hk, ← ha.e]; rfl
    · rw [← hs.chunk]; rfl
  · have hs := ht.turned ha
    have hstep : engineStep a = stepTTc a := by rw [engineStep, hs.upc]
    refine ⟨_, hstep.trans (by rw [stepTTc, writeThen, regWrite_tc a _ hs.clk, andThen_next]), ?_, ?_, ?_⟩
    · exact hs.move (.of_rxBuf rfl rfl rfl rfl rfl) rfl hs.rem hs.chunk (Nat.le_refl _) (Nat.le_refl _)
    · rw [← htk, ← ha.e]; rfl
    · show a.blk.bc = (countWord a.e.chunk).setWidth 24
      rw [ha.bc, hbc, hs.chunk]

/-- A fill writes one byte and goes on to the next, or after the last one to the start of the burst (R196). -/
theorem tick_tFill (h : Filling n c i s) (hi : i < n) :
    Reaches (fun t => Stage n c (i + 1) 0 (if i + 1 = c then .tXchR else .tFill) t ∧ t.e.k = i + 1 ∧ t.blk.bc = t.blk.tc) (tick s) := by
  refine tick_reaches fun a ha => ?_
  have hs := h.stage.turned ha
  have hk : a.e.k = i := by rw [ha.e]; exact h.k
  have hroom : a.e.txp = true → ∃ b, a.txBuf = some b ∧ a.e.ti < b.len := fun hp => by
    obtain ⟨b, hb, hlen⟩ := buffer_of_suffices hs.tx hp
    exact ⟨b, hb, by omega⟩
  obtain ⟨x, hx⟩ := fillByte_answers hroom
  have hstep : engineStep a = stepTFill a := by rw [engineStep, hs.upc]
  refine ⟨_, hstep.trans (by rw [stepTFill, hx, andThen_next, portWrite_txd a x hs.clk, andThen_next]), ?_, ?_, ?_⟩
  · refine hs.move (.of_rxBuf (by simp) (by simp) (by simp) (by simp) (by simp)) (by simp [hk, hs.chunk]) (by simp [hs.rem])
      (by simp [hs.chunk]) ?_ (by simp)
    simp only [withEngine_e, record_e, txPush_e]
    omega
  · simp [hk]
  · simp [txPush_blk_eq, ha.bc, ha.tc, h.agree]

/-- The fill's `d + 1` bytes still to be written, from byte `i` on. -/
theorem fill_reaches (d : Nat) (hc : c ≤ n) (hi : i + (d + 1) = c) (h : Filling n c i s) {Q : State → Prop}
    (hrest : ∀ t, Stage n c c 0 .tXchR t → t.blk.bc = t.blk.tc → Reaches Q (runWhile inFill m t)) :
    Reaches Q (runWhile inFill (m + (d + 1)) s) := by
  induction d generalizing i s with
  | zero =>
    refine runWhile_reaches (by rw [h.stage.upc]; rfl) (tick_tFill h (by omega)) fun t ⟨ht, _, hag⟩ => ?_
    rw [if_pos hi, hi] at ht
    exact hrest t ht hag
  | succ d ih =>
    refine runWhile_reaches (by rw [h.stage.upc]; rfl) (tick_tFill h (by omega)) fun t ⟨ht, hk, hag⟩ => ?_
    rw [if_neg (by omega)] at ht
    exact ih (by omega) ⟨ht, hk, hag⟩

/-- The write that starts the burst: it is in flight, and the poll begins (R197). -/
theorem tick_tXchW (h : Stage n c i j .tXchW s) (hag : s.blk.bc = s.blk.tc) :
    Reaches (fun t => Stage n c i j .tPoll t ∧ t.blk.bc = t.blk.tc ∧ busy t.blk = true) (tick s) := by
  refine tick_reaches fun a ha => ?_
  have hs := h.turned ha
  have hstep : engineStep a = stepTXchW a := by rw [engineStep, hs.upc]
  have hxch : ctlXCH (a.e.v ||| maskXCH) = true := by simp [ctlXCH, maskXCH]
  refine ⟨_, hstep.trans (by rw [stepTXchW, regWrite_ctl a _ hs.clk, andThen_next]), ?_, ?_, ?_⟩
  · refine hs.move (.of_rxBuf ?_ ?_ ?_ ?_ ?_) rfl ?_ ?_ ?_ ?_
    all_goals simp [hs.rem, hs.chunk]
  · simp [ctlWriteBlock, ha.bc, ha.tc, hag]
  · rw [goto_blk, armDeadline_blk, record_blk, ctlWrite_blk, busy_after_write, hxch, Bool.true_or]

/-- From the head of a burst to its poll (R195 to R197). -/
theorem start_reaches (h : Stage n c 0 0 .tBc s) (hk : s.e.k = 0) (hpos : 0 < c) (hc : c ≤ n) :
    Reaches (fun t => Stage n c c 0 .tPoll t ∧ t.blk.bc = t.blk.tc ∧ busy t.blk = true) (runWhile inFill (c + 4) s) := by
  obtain ⟨d, rfl⟩ : ∃ d, c = d + 1 := ⟨c - 1, by omega⟩
  rw [show d + 1 + 4 = 2 + (d + 1) + 2 by omega]
  refine counts_reach h hk ⟨rfl, rfl⟩ fun a ha => fill_reaches d hc (by omega) ha fun b hb hag => ?_
  refine runWhile_reaches (by rw [hb.upc]; rfl) (tick_ctlRead hb rfl) fun e ⟨he, hbc, htc⟩ => ?_
  exact runWhile_reaches (by rw [he.upc]; rfl) (tick_tXchW he (by rw [hbc, htc, hag])) fun t ht => .next ht

/-! ### The poll -/

/-- The poll ends with the burst performed, or on the timeout path (R198, R199, R215). -/
theorem poll_reaches (h : Stage n c c 0 .tPoll s) (hag : s.blk.bc = s.blk.tc) (hbusy : busy s.blk = true) :
    Reaches (fun t => t.e.chunk = c ∧ ((Stage n c c 0 .tDrain t ∧ t.e.k = 0) ∨ (t.clkOn = true ∧ t.e.upc = .tToR)))
      (runWhile (fun u => u == .tPoll) (pollBound s) s) := by
  obtain ⟨t, hrun, hok | hto⟩ := run_poll (pollBound s) s h.clk hbusy hag h.upc (Nat.le_refl _)
  · rw [hrun]
    have hlends : Lends s t := .of_rxBuf hok.same.clk hok.same.tx hok.rx (by rw [hok.e]) (by rw [hok.e])
    have hchunk : t.e.chunk = c := by rw [hok.e]; exact h.chunk
    refine .next ⟨hchunk, .inl ⟨h.move hlends (by rw [hok.e]) ?_ hchunk (by rw [hok.e]) (by rw [hok.e]), by rw [hok.e]⟩⟩
    rw [hok.e]; exact h.rem
  · rw [hrun]
    exact .next ⟨by rw [hto.e]; exact h.chunk, .inr ⟨hto.same.clk.trans h.clk, by rw [hto.e]⟩⟩

/-! ### The drain -/

/-- A drain's step reads a byte, keeps it where there is a receive buffer, and counts it (R200). -/
theorem stepTDrain_next (hc : s.clkOn = true) (hroom : s.e.rxp = true → ∃ b, s.rxBuf = some b ∧ s.e.ri < b.len) :
    ∃ a, stepTDrain s = .next (afterDrain a) ∧ Lends s a ∧ a.e = s.e := by
  obtain ⟨a, ha⟩ := keepByte_answers (s := (rxPop s).2.record (.access offRXD 1 .read ((rxPop s).1.setWidth 32))) (rxPop s).1
    (by simpa using hroom)
  obtain ⟨hkeep, hbuf⟩ := keepByte_next ha
  have he : a.e = s.e := by rw [hkeep]; simp
  refine ⟨a, by rw [stepTDrain, portRead_rxd s hc, andThen_next, ha, andThen_next], ⟨?_, ?_, fun b hb => ?_, by rw [he], by rw [he]⟩, he⟩
  · rw [hkeep]; simp
  · rw [hkeep]; simp
  · rcases hbuf with h | ⟨b', hb', h⟩
    · exact ⟨b, by rw [h]; simpa using hb, rfl⟩
    · have hbb : b' = b := Option.some.inj (hb'.symm.trans (by simpa using hb))
      exact ⟨_, h, by rw [hbb]; rfl⟩

/-- At the drain the step counts a byte read, from a state at the same stage. -/
theorem engineStep_tDrain (h : Stage n c c j .tDrain s) (hj : j < n) :
    ∃ b, engineStep s = .next (afterDrain b) ∧ Stage n c c j .tDrain b ∧ b.e = s.e := by
  obtain ⟨b, hb, hlends, he⟩ := stepTDrain_next h.clk fun hp => by
    obtain ⟨x, hx, hlen⟩ := buffer_of_suffices h.rx hp
    exact ⟨x, hx, by omega⟩
  have hstep : engineStep s = stepTDrain s := by rw [engineStep, h.upc]
  exact ⟨b, hstep.trans hb, h.move hlends (by rw [he]; exact h.upc) (by rw [he]; exact h.rem) (by rw [he]; exact h.chunk) (by rw [he])
    (by rw [he]), he⟩

/-- The drain of a byte that is not the last of its burst. -/
theorem tick_tDrain (h : Stage n c c j .tDrain s) (hk : s.e.k = j) (hj : j + 1 < c) (hc : c ≤ n) :
    Reaches (fun t => Stage n c c (j + 1) .tDrain t ∧ t.e.k = j + 1) (tick s) := by
  refine tick_reaches fun a ha => ?_
  obtain ⟨b, hb, hs, he⟩ := engineStep_tDrain (h.turned ha) (by omega)
  have hkb : b.e.k = j := by rw [he, ha.e]; exact hk
  have hmore : afterDrain b = b.withEngine { b.e with ri := b.e.ri + 1, k := b.e.k + 1 } :=
    if_neg (show ¬ b.e.k + 1 = b.e.chunk by have := hs.chunk; omega)
  refine ⟨_, hb, ?_⟩
  rw [hmore]
  refine ⟨hs.move (.of_rxBuf rfl rfl rfl rfl rfl) hs.upc hs.rem hs.chunk (Nat.le_refl _) ?_, congrArg (· + 1) hkb⟩
  rw [withEngine_e]
  dsimp only
  omega

/-- The drain of the last byte of a burst, and the loop test with the bytes that remain (R201). -/
theorem tick_tDrain_last (h : Stage n c c j .tDrain s) (hk : s.e.k = j) (hj : j + 1 = c) (hc : c ≤ n) :
    Reaches (LoopTested (n - c)) (tick s) := by
  refine tick_reaches fun a ha => ?_
  obtain ⟨b, hb, hs, he⟩ := engineStep_tDrain (h.turned ha) (by omega)
  have hkb : b.e.k = j := by rw [he, ha.e]; exact hk
  have hlast : afterDrain b = enterLoop (b.withEngine
      { b.e with ri := b.e.ri + 1, k := b.e.k + 1, rem := b.e.rem - b.e.chunk, upc := .tLoop }) :=
    if_pos (show b.e.k + 1 = b.e.chunk by have := hs.chunk; omega)
  refine ⟨_, hb, ?_⟩
  rw [hlast]
  refine enterLoop_tested (c := c) (u := .tLoop) (hs.move (.of_rxBuf rfl rfl rfl rfl rfl) rfl ?_ hs.chunk (Nat.le_refl _) ?_)
  · rw [withEngine_e, hs.rem, hs.chunk]
  · rw [withEngine_e]
    dsimp only
    omega

/-- The drain's `d + 1` bytes still to be read, from byte `j` on. -/
theorem drain_reaches (d : Nat) (hc : c ≤ n) (hj : j + (d + 1) = c) (h : Stage n c c j .tDrain s) (hk : s.e.k = j) :
    Reaches (LoopTested (n - c)) (runWhile (fun u => u == .tDrain) (d + 1) s) := by
  induction d generalizing j s with
  | zero => exact runWhile_reaches (by rw [h.upc]; rfl) (tick_tDrain_last h hk hj hc) fun t ht => .next ht
  | succ d ih =>
    exact runWhile_reaches (by rw [h.upc]; rfl) (tick_tDrain h hk (by omega) hc) fun t ⟨ht, htk⟩ => ih (by omega) ht htk

/-! ### The bursts -/

/-- One burst of `c` bytes. -/
theorem burst_reaches (h : Stage n c 0 0 .tBc s) (hk : s.e.k = 0) (hpos : 0 < c) (hc : c ≤ n) :
    Reaches (LoopTested (n - c)) (runBurst s) := by
  rw [runBurst, h.chunk]
  refine (start_reaches h hk hpos hc).bind fun a ⟨ha, hag, hbusy⟩ => (poll_reaches ha hag hbusy).bind fun b ⟨hchunk, hb⟩ => ?_
  rcases hb with ⟨hdrain, hbk⟩ | ⟨hclk, hto⟩
  · obtain ⟨d, rfl⟩ : ∃ d, c = d + 1 := ⟨c - 1, by omega⟩
    rw [hchunk]
    exact drain_reaches d hc (by omega) hdrain hbk
  · exact runWhile_reaches_stop (by rw [hto]; rfl) (.noBurst (.atTimeout hclk hto))

theorem BurstsOver.runBursts (h : BurstsOver s) (m : Nat) : Reaches BurstsOver (runBursts m s) := by
  have hu : s.e.upc ≠ .tBc := by
    rcases h with ⟨-, hu⟩ | ⟨-, hu⟩ | ⟨hu, -⟩ <;> rw [hu] <;> exact nofun
  rw [runBursts_stop hu]
  exact .next h

/-- Bursts of at least one byte each use the bytes up (R194, R216). -/
theorem bursts_reach (m : Nat) (h : LoopTested n s) (hm : n ≤ m) : Reaches BurstsOver (runBursts m s) := by
  induction m generalizing n s with
  | zero =>
    rcases h with ⟨-, hn, -⟩ | hover
    · omega
    · exact .next hover
  | succ m ih =>
    rcases h with ⟨hs, hn, hk⟩ | hover
    · have hmax : Config.chunkMax = 63 := rfl
      rw [runBursts, if_pos hs.upc]
      exact (burst_reaches hs hk (by omega) (Nat.min_le_left _ _)).bind fun t ht => ih ht (by omega)
    · exact hover.runBursts _

/-- From the loop test at the end of the prologue, at most one burst for every byte. -/
theorem LoopTested.runBursts (h : LoopTested n s) : Reaches BurstsOver (runBursts s.e.rem s) := by
  cases h with
  | burst hs hn hk => exact bursts_reach _ (.burst hs hn hk) (Nat.le_of_eq hs.rem.symm)
  | noBurst hover => exact hover.runBursts _

/-- The end path ends with OK, the timeout path with TimeoutError (R199, R202). -/
theorem BurstsOver.returns (h : BurstsOver s) : Reaches (fun t => Returned .ok t ∨ Returned .timeoutError t) (runWhile running 2 s) := by
  rcases h with ⟨hc, hu⟩ | ⟨hc, hu⟩ | hok
  · exact (rmw_returns (w := .tEndW) hc (by rw [hu]; rfl) rfl).mono fun _ => .inl
  · exact (rmw_returns (w := .tToW) hc (by rw [hu]; rfl) rfl).mono fun _ => .inr
  · exact runWhile_reaches_stop (by rw [hok.1]; rfl) (.inl hok)

end

/-! ### The command -/

section
variable {s : State} {b e tx rx : Bool} {cs : BitVec 2} {n : Nat}

/-- At its acceptance a TRANSFER has all its bytes before it, and the port has checked the lent buffers (R81, R190). -/
theorem accepted_stage (hr : Ready s) (htx : bufferSuffices tx s.txBuf (transferBytes n) = true)
    (hrx : bufferSuffices rx s.rxBuf (transferBytes n) = true) :
    Stage (transferBytes n) s.e.chunk 0 0 (if b then .tBegR else .tRstR) (accepted b e tx rx cs n s) where
  clk := hr.clk
  upc := rfl
  rem := rfl
  chunk := rfl
  tx := by simpa [accepted, transferEngine] using htx
  rx := by simpa [accepted, transferEngine] using hrx

/-- A TRANSFER of whole bytes whose buffers suffice, in its four parts. -/
theorem transfer_returns (hr : Ready s) (hn : byteAligned n = true) (htx : bufferSuffices tx s.txBuf (transferBytes n) = true)
    (hrx : bufferSuffices rx s.rxBuf (transferBytes n) = true) :
    Reaches (Ended (.transfer b e tx rx cs n)) (exec (.transfer b e tx rx cs n) s) := by
  have hfirst : (if b then Upc.tBegR else Upc.tRstR) = .tBegR ∨ (if b then Upc.tBegR else Upc.tRstR) = .tRstR := by cases b <;> simp
  rw [exec, execTransfer, acceptTransfer_accepted hr.idle hn htx hrx, andThen_next]
  refine (prologue_reaches (accepted_stage hr htx hrx) hfirst).bind fun t ht => ?_
  refine (ht.runBursts.bind fun _ => BurstsOver.returns).mono fun _ hret => ?_
  rcases hret with hok | hto
  · exact ⟨.ok, hok, .inl rfl⟩
  · exact ⟨.timeoutError, hto, .inr ⟨rfl, .inr rfl⟩⟩

/-- A TRANSFER in the three cases of its acceptance (R81, R192). -/
theorem transfer_ends (hr : Ready s) : exec (.transfer b e tx rx cs n) s = .refused .bufferTooShort ∨
    Reaches (Ended (.transfer b e tx rx cs n)) (exec (.transfer b e tx rx cs n) s) := by
  cases hn : byteAligned n
  · have hmis : n % 8 ≠ 0 := by simpa [byteAligned] using hn
    rw [aMisalignedTransferChangesNothing b e tx rx cs n s hr.idle hmis]
    exact .inr (.next ⟨.alignmentError, ⟨hr.idle, rfl⟩, .inr ⟨rfl, .inl rfl⟩⟩)
  cases htx : bufferSuffices tx s.txBuf (transferBytes n)
  · exact .inl (andThen_eq_refused.mpr (.inl (acceptTransfer_short hr.idle hn (.inl htx))))
  cases hrx : bufferSuffices rx s.rxBuf (transferBytes n)
  · exact .inl (andThen_eq_refused.mpr (.inl (acceptTransfer_short hr.idle hn (.inr hrx))))
  exact .inr (transfer_returns hr hn htx hrx)

/-- Every command is refused for a short buffer, a TRANSFER alone, or runs to one of its results. -/
theorem exec_ends (i : Instr) (hr : Ready s) :
    (exec i s = .refused .bufferTooShort ∧ opcodeOf i = 5#4) ∨ Reaches (Ended i) (exec i s) := by
  have ok_ended : ∀ t, Returned .ok t → Ended i t := fun t ht => ⟨.ok, ht, .inl rfl⟩
  cases i with
  | claim => exact .inr ((simple_returns hr _ rfl rfl).mono ok_ended)
  | release => exact .inr ((simple_returns hr _ rfl rfl).mono ok_ended)
  | setSpeed hz => exact .inr ((simple_returns hr _ rfl rfl).mono ok_ended)
  | setMode cpol cpha => exact .inr ((simple_returns hr _ rfl rfl).mono ok_ended)
  | transfer b e tx rx cs n => exact (transfer_ends hr).imp_left fun h => ⟨h, rfl⟩

end

/-- Settles O16: a command of two steps returns OK; a TRANSFER is ended or refused at its acceptance, or returns OK or TimeoutError;
and a turn of the shifter may refuse the run of any. -/
theorem everyCommandEndsWithOneOfItsResults : Obligations.EveryCommandEndsWithOneOfItsResults := by
  unfold Obligations.EveryCommandEndsWithOneOfItsResults
  intro i s hr
  rcases exec_ends i hr with hshort | hends
  · exact .inr (.inl hshort)
  rcases hends.outcome with ⟨t, ht, r, ⟨hidle, hres⟩, hmay⟩ | hmismatch
  · exact .inl ⟨t, r, ht, hidle, hres, hmay⟩
  · exact .inr (.inr hmismatch)

end Sys2Proof.Machine
end

section
/-! O10, O11: a step with nothing to do (R290, R295), and the clock off: no access, no shifter, every command stuck at its first read
(R277, R292). -/

namespace Sys2Proof.Machine

/-- Settles O10: the shifter's turn leaves the engine IDLE and the port empty, so the engine waits. -/
theorem anIdleEngineWaits : Obligations.AnIdleEngineWaits := by
  unfold Obligations.AnIdleEngineWaits
  intro s s1 hv hu hp h
  obtain ⟨-, he, hport, -, -⟩ := shifterTurn_frame h
  exact (step_of_turn hv h).trans (engineTurn_waits (by rw [he]; exact hu) (by rw [hport]; exact hp))

section
variable {s : State} {u w : Upc} {p : Upc → Bool} {n : Nat}

/-- The shifter runs only with the clock on (R205). -/
theorem shifterTurn_clockOff (hc : s.clkOn = false) : shifterTurn s = .next s :=
  shifterTurn_unarmed (by rw [shifterArmed, hc, Bool.and_false])

theorem readInto_clockOff (off : Nat) (u : Upc) (hc : s.clkOn = false) : readInto off u s = .fault .clockOff := by
  rw [readInto, regRead, memRead_clockOff s _ _ hc, andThen_fault]

/-- The read half of a read-modify-write has no step while the clock is off. -/
theorem engineStep_read_clockOff (hc : s.clkOn = false) (hw : readTarget s.e.upc = some w) : engineStep s = .fault .clockOff := by
  by_cases hu : s.e.upc = .spdR
  · have hstep : engineStep s = stepSpdR s := by rw [engineStep, hu]
    exact hstep.trans (readInto_clockOff _ _ hc)
  · have hctl : ctlReadTarget s.e.upc = some w := by
      rw [← hw, readTarget]
      exact hu
    exact (engineStep_ctlRead hctl).trans (readInto_clockOff _ _ hc)

/-- A run that is to begin with such a read half is stuck. -/
theorem runWhile_read_clockOff (hp : p s.e.upc = true) (hc : s.clkOn = false) (hw : readTarget s.e.upc = some w) :
    runWhile p (n + 1) s = .fault .clockOff := by
  rw [runWhile_step hp, tick, shifterTurn_clockOff hc, andThen_next, engineStep_read_clockOff hc hw, andThen_fault]

/-- A command other than TRANSFER is accepted, and stuck at its first read. -/
theorem simple_clockOff (hu : s.e.upc = .idle) (hc : s.clkOn = false) (word : CmdWord) (hr : running u = true)
    (hw : readTarget u = some w) : andThen (accept word u s) (runWhile running 2) = .fault .clockOff := by
  rw [accept_idle s word u hu, andThen_next]
  exact runWhile_read_clockOff hr hc hw

/-- An accepted TRANSFER is stuck at the first read of its prologue, with BEGIN or without. -/
theorem prologue_clockOff {b e tx rx : Bool} {cs : BitVec 2} (hc : s.clkOn = false) :
    runWhile inPrologue 4 (accepted b e tx rx cs n s) = .fault .clockOff := by
  cases b
  · exact runWhile_read_clockOff (w := .tRstW) rfl hc rfl
  · exact runWhile_read_clockOff (w := .tBegW) rfl hc rfl

end

/-- Settles O11: an access is a fault, the shifter is not armed, and each command begins with a read. -/
theorem noAccessWhileTheClockIsOff : Obligations.NoAccessWhileTheClockIsOff := by
  unfold Obligations.NoAccessWhileTheClockIsOff
  intro s hc
  refine ⟨fun addr width v => ⟨memRead_clockOff s addr width hc, memWrite_clockOff s addr width v hc⟩, shifterTurn_clockOff hc,
    fun hu => ⟨simple_clockOff hu hc _ rfl rfl, simple_clockOff hu hc _ rfl rfl, fun hz => simple_clockOff hu hc _ rfl rfl,
      fun cpol cpha => simple_clockOff hu hc _ rfl rfl, fun b e tx rx cs bitlen hn htx hrx => ?_⟩⟩
  rw [exec, execTransfer, acceptTransfer_accepted hu (beq_iff_eq.mpr hn) htx hrx, andThen_next]
  exact andThen_eq_fault.mpr (.inl (prologue_clockOff hc))

end Sys2Proof.Machine
end

section
/-! O48: a position that holds a CTL value writes it back with XCH as read (R85), so that a stale 1 starts the burst again (R44, R300). -/

namespace Sys2Proof.Machine

section
variable {s : State} {v : Word} {e : Engine}

/-- Whatever position writes CTL back, a 1 read in XCH is written. -/
theorem ctlXCH_ctlWriteValue (h : ctlXCH e.v = true) : ctlXCH (ctlWriteValue e) = true := by
  unfold ctlXCH at *
  unfold ctlWriteValue
  split
  · rw [claimValue_bit _ _ (by decide), h, Bool.true_or]
  · rw [releaseValue_bit, h]; rfl
  · exact (modeValue_bit _ _ _ 10).trans h
  · exact (setcsValue_bit _ _ _ 10).trans h
  · rw [BitVec.getLsbD_or, BitVec.getLsbD_or, h, Bool.true_or, Bool.true_or]
  · rw [BitVec.getLsbD_or, h, Bool.true_or]
  · exact (setcsValue_bit _ _ _ 10).trans h
  · exact (setcsValue_bit _ _ _ 10).trans h
  · exact h

/-- A step that makes one write of CTL and then leaves the block alone. -/
theorem regWrite_ctl_then_blk (hc : s.clkOn = true) {f : State → State} (hf : ∀ a, (f a).blk = a.blk) :
    ∃ t, andThen (regWrite offCTL v s) (fun a => .next (f a)) = .next t ∧ t.blk = ctlWriteBlock s.blk v :=
  ⟨_, by rw [regWrite_ctl s v hc, andThen_next], by rw [hf, record_blk, ctlWrite_blk]⟩

/-- At a position that holds a CTL value the engine step is the write of it. -/
theorem engineStep_writesCtl (hc : s.clkOn = true) (hu : holdsCtl s.e.upc = true) :
    ∃ t, engineStep s = .next t ∧ t.blk = ctlWriteBlock s.blk (ctlWriteValue s.e) := by
  unfold engineStep ctlWriteValue
  cases h : s.e.upc <;> rw [h] at hu <;> cases hu
  case claimW | relW | modeW | tBegW | tToW | tEndW => exact regWrite_ctl_then_blk hc fun _ => rfl
  case tRstW => exact regWrite_ctl_then_blk hc fun _ => (enterLoop_leaves _).blk
  case tXchW => exact regWrite_ctl_then_blk hc armDeadline_blk

end

/-- Settles O48: the value written has XCH = 1, and no write of CTL changes BC or TC. -/
theorem aStaleReadRestartsTheBurst : Obligations.AStaleReadRestartsTheBurst := by
  unfold Obligations.AStaleReadRestartsTheBurst
  intro s hc _ hx hu
  obtain ⟨t, ht, hb⟩ := engineStep_writesCtl hc hu
  refine ⟨t, ht, ?_, by rw [hb]; rfl, by rw [hb]; rfl⟩
  rw [hb, busy_after_write, ctlXCH_ctlWriteValue hx, Bool.true_or]

end Sys2Proof.Machine
end

section
/-! O36: the bits of CTL the levels of the lines depend on in manual mode (R174), which no command but TRANSFER replaces, save that
CLAIM sets CSPOL_LOW and CS_MANUAL (R250, R302). -/

namespace Sys2Proof.Machine

/-- The bits of CSPOL_LOW, CS, CS_MANUAL and CS_LEVEL (R42). -/
abbrev IsLineBit (j : Nat) : Prop := j = 4 ∨ j = 12 ∨ j = 13 ∨ j = 16 ∨ j = 17

/-- The bits of CTL a command other than TRANSFER replaces (R147, R240, R250, R251). -/
def replacedBits : Instr → Nat → Option Bool
  | .claim => claimBits
  | .release => releaseBits
  | .setMode cpol cpha => fun j => if j = 2 then some cpha else if j = 3 then some cpol else none
  | .setSpeed _ => fun _ => none
  | .transfer .. => fun _ => none

section
variable {s t : State} {i : Instr}

/-- In manual mode the lines of two states that read the same line bits are at the same levels (R174). -/
theorem csLine_congr (hcfg : t.cfg = s.cfg) (hm : ctlCS_MANUAL s.blk.ctl = true)
    (h : ∀ j, IsLineBit j → (ctlRead t.blk).getLsbD j = (ctlRead s.blk).getLsbD j) (k : Nat) : csLine t k = csLine s k := by
  have hbit : ∀ j, IsLineBit j → t.blk.ctl.getLsbD j = s.blk.ctl.getLsbD j := fun j hj => by
    rw [← ctlRead_bit_ne (by omega) (by omega), h j hj, ctlRead_bit_ne (by omega) (by omega)]
  have hpol : ctlCSPOL_LOW t.blk.ctl = ctlCSPOL_LOW s.blk.ctl := hbit 4 (by decide)
  have hmanual : ctlCS_MANUAL t.blk.ctl = ctlCS_MANUAL s.blk.ctl := hbit 16 (by decide)
  have hlevel : ctlCS_LEVEL t.blk.ctl = ctlCS_LEVEL s.blk.ctl := hbit 17 (by decide)
  have hcs : ctlCS t.blk.ctl = ctlCS s.blk.ctl := BitVec.eq_of_getLsbD_eq fun j hj => by
    rw [ctlCS, ctlCS, BitVec.getLsbD_extractLsb', BitVec.getLsbD_extractLsb', hbit (12 + j) (by omega)]
  rw [csLine_manual (hmanual.trans hm), csLine_manual hm, hcfg, hcs, hlevel, hpol]

/-- A command other than TRANSFER replaces its bits of CTL, and the configuration stays. -/
theorem exec_replaces (hr : Ready s) (hag : CountsAgree s) (hi : opcodeOf i ≠ 5#4) :
    ∃ t, exec i s = .next t ∧ t.cfg = s.cfg ∧ CtlChanged s t (replacedBits i) := by
  cases i with
  | claim =>
    obtain ⟨t, ht⟩ := ctlRmw_claim.runs hr hag
    exact ⟨t, ht.run, ht.frame.cfg, ht.ctl⟩
  | release =>
    obtain ⟨t, ht⟩ := ctlRmw_release.runs hr hag
    exact ⟨t, ht.run, ht.frame.cfg, ht.ctl⟩
  | setSpeed hz =>
    obtain ⟨c, hrun, hc, -⟩ := exec_setSpeed hz hr hag
    exact ⟨_, hrun, hc.cfg, fun _ _ hj => hc.ctlRead_bit hj⟩
  | setMode cpol cpha =>
    obtain ⟨t, hrun, -, hctl, -, hframe, -⟩ := setModeWritesPolarityAndPhase cpol cpha s hr hag
    exact ⟨t, hrun, hframe.cfg, hctl⟩
  | transfer => exact absurd rfl hi

/-- CLAIM replaces two line bits, setting them; no other command replaces one. -/
theorem replacedBits_line {j : Nat} {x : Bool} (hj : IsLineBit j) (hclaim : i = .claim → j = 4 ∨ j = 16 → x = true) :
    (replacedBits i j).getD x = x := by
  cases i with
  | claim =>
    rw [replacedBits, claimBits]
    split
    · exact (hclaim rfl (by omega)).symm
    · rfl
  | release => rw [replacedBits, releaseBits, if_neg (by omega)]; rfl
  | setMode => dsimp only [replacedBits]; rw [if_neg (by omega), if_neg (by omega)]; rfl
  | setSpeed => rfl
  | transfer => rfl

end

/-- Settles O36: the command replaces no line bit but by the value it has. -/
theorem otherCommandsDoNotDisturbChipSelect : Obligations.OtherCommandsDoNotDisturbChipSelect := by
  unfold Obligations.OtherCommandsDoNotDisturbChipSelect
  intro s i hr hag hm hclaim hi
  obtain ⟨t, hrun, hcfg, hctl⟩ := exec_replaces hr hag hi
  refine ⟨t, hrun, csLine_congr hcfg hm fun j hj => (hctl j (by omega) (by omega)).trans (replacedBits_line hj fun h hset => ?_)⟩
  rw [ctlRead_bit_ne (by omega) (by omega)]
  rcases hset with rfl | rfl
  · exact hclaim h
  · exact hm

end Sys2Proof.Machine
end
